-- ==== Sys2Proof/Word.lean ====
section
/-!
DEFINITION. The widths the spec fixes (00_scope R8, 10_state R20): bytes, 16-bit quantities (bus address, sample,
CSR number) and 32-bit quantities (scalar result, tick counts).
-/
namespace Sys2Proof

/-- A byte: module, function, payload, identity, status bytes (00_scope R8). -/
abbrev Byte := BitVec 8

/-- A 16-bit quantity: `DEV_ADDR`, a moisture sample, a CSR number (00_scope R8, 43_csr R210). -/
abbrev Half := BitVec 16

/-- A 32-bit quantity: the result register and every tick count (10_state R25, R28). -/
abbrev Word := BitVec 32

end Sys2Proof
end

