-- ==== Sys2Proof/Syntax.lean ====
section
/-!
DEFINITION. The commands of tempi-RPF, one constructor for each row of the opcode table (30_encoding R120), with
the operands R115 gives them, and the two small types the key commands speak of (R105, R106).
-/
namespace Sys2Proof

/-- The edge types, in the order of 30_encoding R106. -/
inductive Edge where
  | high | low | falling | rising
  deriving DecidableEq, Repr

/-- A decoded Key Event (30_encoding R105): an edge type and a 6-bit key index. -/
structure KeyEvent where
  edge : Edge
  key : BitVec 6
  deriving DecidableEq, Repr

/-- One command (30_encoding R120); the operands are those of R115 and R123, already assembled. -/
inductive Instr where
  /-- `RDREG m, f` (40_core R142). -/
  | rdreg (m f : Byte)
  /-- `WRREG m, f, b` (40_core R143). -/
  | wrreg (m f b : Byte)
  /-- `RD m, f, n, d` (40_core R144). -/
  | rd (m f n : Byte) (d : Word)
  /-- `WR m, f, ws` (40_core R145). -/
  | wr (m f : Byte) (ws : List Byte)
  /-- `RST` (40_core R146). -/
  | rst
  /-- `KEYDEC b` (41_key R172). -/
  | keydec (b : Byte)
  /-- `KEYENC key, edge` (41_key R173). -/
  | keyenc (key : BitVec 6) (edge : Edge)
  /-- `KEYRD n` (41_key R174). -/
  | keyrd (n : Byte)
  /-- `KEYCNT` (41_key R175). -/
  | keycnt
  /-- `KEYINT en` (41_key R176). -/
  | keyint (en : Bool)
  /-- `KEYCFG key, emask, en` (41_key R177). -/
  | keycfg (key : Byte) (emask : BitVec 4) (en : Bool)
  /-- `MPUSH v` (42_moisture R192). -/
  | mpush (v : Half)
  /-- `MAVG` (42_moisture R194). -/
  | mavg
  /-- `MREAD` (42_moisture R196). -/
  | mread
  /-- `CSRR c` (43_csr R210). -/
  | csrr (c : Half)
  /-- `CSRW c, v` (43_csr R211). -/
  | csrw (c : Half) (v : Word)
  deriving DecidableEq, Repr

end Sys2Proof
end

