-- ==== Sys2Proof/WellFormed.lean ====
section
/-!
DEFINITION. Which terms of `Instr` a descriptor can carry. The operand types already hold every width of
30_encoding R115; the one check left is that the payload of WR fits its 8-bit `LEN`.
-/
namespace Sys2Proof

/-- The payload of WR has at most 255 bytes (30_encoding R101, R115); every other operand is of its exact width. -/
def Instr.wellFormed : Instr → Bool
  | .wr _ _ ws => decide (ws.length ≤ 255)
  | .rdreg _ _ => true
  | .wrreg _ _ _ => true
  | .rd _ _ _ _ => true
  | .rst => true
  | .keydec _ => true
  | .keyenc _ _ => true
  | .keyrd _ => true
  | .keycnt => true
  | .keyint _ => true
  | .keycfg _ _ _ => true
  | .mpush _ => true
  | .mavg => true
  | .mread => true
  | .csrr _ => true
  | .csrw _ _ => true

end Sys2Proof
end

