-- ==== Sys2Proof/Decode.lean ====
section
/-!
DEFINITION. From a descriptor to a command and back (30_encoding R113 to R122). Decoding is total on any byte list
and names what makes a descriptor malformed (R121); the encoder is written from the same format table (R114).
-/
namespace Sys2Proof

/-! ### Byte order: big-endian (30_encoding R113, 20_memory R72) -/

/-- `{hi, lo}`, the 16-bit value `hi * 256 + lo` (00_scope R10). -/
def be16 (hi lo : Byte) : Half := BitVec.ofNat 16 (hi.toNat * 256 + lo.toNat)

/-- `{b3, b2, b1, b0}`, `b3` most significant (30_encoding R115). -/
def be32 (b3 b2 b1 b0 : Byte) : Word :=
  BitVec.ofNat 32 (((b3.toNat * 256 + b2.toNat) * 256 + b1.toNat) * 256 + b0.toNat)

/-- The two bytes of a 16-bit value, most significant first. -/
def bytes16 (v : Half) : List Byte := [v.extractLsb' 8 8, v.extractLsb' 0 8]

/-- The four bytes of a 32-bit value, most significant first. -/
def bytes32 (v : Word) : List Byte :=
  [v.extractLsb' 24 8, v.extractLsb' 16 8, v.extractLsb' 8 8, v.extractLsb' 0 8]

/-! ### The opcode map (30_encoding R119, R120) -/

/-- The mnemonics of 30_encoding R120. -/
inductive Opcode where
  | rdreg | wrreg | rd | wr | rst | keydec | keyenc | keyrd | keycnt | keyint | keycfg | mpush | mavg | mread | csrr | csrw
  deriving DecidableEq, Repr

/-- The opcode numbers of 30_encoding R120. -/
def Opcode.number : Opcode → Byte
  | .rdreg => 0x01
  | .wrreg => 0x02
  | .rd => 0x03
  | .wr => 0x04
  | .rst => 0x05
  | .keydec => 0x10
  | .keyenc => 0x11
  | .keyrd => 0x12
  | .keycnt => 0x13
  | .keyint => 0x14
  | .keycfg => 0x15
  | .mpush => 0x20
  | .mavg => 0x21
  | .mread => 0x22
  | .csrr => 0x30
  | .csrw => 0x31

/-- Every opcode of the map. -/
def Opcode.all : List Opcode :=
  [.rdreg, .wrreg, .rd, .wr, .rst, .keydec, .keyenc, .keyrd, .keycnt, .keyint, .keycfg, .mpush, .mavg, .mread, .csrr, .csrw]

/-- Byte 0 alone selects the command (30_encoding R119); `none` for the reserved values of R121. -/
def opcodeOf (b : Byte) : Option Opcode := Opcode.all.find? fun o => o.number == b

/-- The total length in bytes the opcode requires (30_encoding R114, R116). `len` is the descriptor's `LEN` byte
(byte 3), which only format AW reads. -/
def Opcode.length (o : Opcode) (len : Byte) : Nat :=
  match o with
  | .rst | .keycnt | .mavg | .mread => 1
  | .keydec | .keyrd | .keyint => 2
  | .rdreg | .keyenc | .mpush | .csrr => 3
  | .wrreg | .keycfg => 4
  | .csrw => 7
  | .rd => 8
  | .wr => 4 + len.toNat

/-! ### Operand fields (30_encoding R115) -/

/-- The edge that two bits number (30_encoding R106). -/
def Edge.ofNumber (b : BitVec 2) : Edge :=
  match b.toNat with
  | 0 => .high
  | 1 => .low
  | 2 => .falling
  | _ => .rising

/-- The number of an edge (30_encoding R106). -/
def Edge.number : Edge → BitVec 2
  | .high => 0
  | .low => 1
  | .falling => 2
  | .rising => 3

/-- The low `w` bits of an operand byte, when all bits above them are 0 (30_encoding R115 "must be 0"). -/
def lowField (w : Nat) (b : Byte) : Option (BitVec w) :=
  if b.toNat < 2 ^ w then some (b.setWidth w) else none

/-- A one-bit operand: `EN`, and `B0` of KEYINT (30_encoding R115). -/
def flagField (b : Byte) : Option Bool := (lowField 1 b).map (· == 1)

/-- Why a descriptor is malformed (30_encoding R121). The block reports every one of them as `E_BADCMD`. -/
inductive DecodeError where
  /-- The descriptor has no byte. -/
  | empty
  /-- Byte 0 is no opcode of 30_encoding R120. -/
  | reservedOpcode
  /-- The length is not the one 30_encoding R116 requires. -/
  | wrongLength
  /-- An operand bit that 30_encoding R115 says must be 0 is 1. -/
  | nonzeroOperandBit
  deriving DecidableEq, Repr

/-- An operand that may have failed its must-be-zero check. -/
def checked (i : Option Instr) : Except DecodeError Instr :=
  match i with
  | some i => .ok i
  | none => .error .nonzeroOperandBit

/-- The operands of one opcode, from the bytes after byte 0, in the format R114 gives it. -/
def decodeOperands (o : Opcode) (ops : List Byte) : Except DecodeError Instr :=
  match o with
  | .rdreg => match ops with
    | [m, f] => .ok (.rdreg m f)
    | _ => .error .wrongLength
  | .wrreg => match ops with
    | [m, f, b] => .ok (.wrreg m f b)
    | _ => .error .wrongLength
  | .rd => match ops with
    | [m, f, n, d3, d2, d1, d0] => .ok (.rd m f n (be32 d3 d2 d1 d0))
    | _ => .error .wrongLength
  | .wr => match ops with
    | m :: f :: k :: ws => if ws.length = k.toNat then .ok (.wr m f ws) else .error .wrongLength
    | _ => .error .wrongLength
  | .rst => match ops with
    | [] => .ok .rst
    | _ => .error .wrongLength
  | .keydec => match ops with
    | [b] => .ok (.keydec b)
    | _ => .error .wrongLength
  | .keyenc => match ops with
    | [k, e] => checked do return .keyenc (← lowField 6 k) (Edge.ofNumber (← lowField 2 e))
    | _ => .error .wrongLength
  | .keyrd => match ops with
    | [n] => .ok (.keyrd n)
    | _ => .error .wrongLength
  | .keycnt => match ops with
    | [] => .ok .keycnt
    | _ => .error .wrongLength
  | .keyint => match ops with
    | [b] => checked do return .keyint (← flagField b)
    | _ => .error .wrongLength
  | .keycfg => match ops with
    | [k, m, e] => checked do return .keycfg k (← lowField 4 m) (← flagField e)
    | _ => .error .wrongLength
  | .mpush => match ops with
    | [h, l] => .ok (.mpush (be16 h l))
    | _ => .error .wrongLength
  | .mavg => match ops with
    | [] => .ok .mavg
    | _ => .error .wrongLength
  | .mread => match ops with
    | [] => .ok .mread
    | _ => .error .wrongLength
  | .csrr => match ops with
    | [h, l] => .ok (.csrr (be16 h l))
    | _ => .error .wrongLength
  | .csrw => match ops with
    | [h, l, v3, v2, v1, v0] => .ok (.csrw (be16 h l) (be32 v3 v2 v1 v0))
    | _ => .error .wrongLength

/-- The command a descriptor carries, or why it is malformed (30_encoding R113 to R116, R119 to R121). -/
def decode : List Byte → Except DecodeError Instr
  | [] => .error .empty
  | opc :: ops =>
    match opcodeOf opc with
    | none => .error .reservedOpcode
    | some o => decodeOperands o ops

/-! ### The encoder -/

/-- The opcode of a command (30_encoding R120). -/
def Instr.opcode : Instr → Opcode
  | .rdreg _ _ => .rdreg
  | .wrreg _ _ _ => .wrreg
  | .rd _ _ _ _ => .rd
  | .wr _ _ _ => .wr
  | .rst => .rst
  | .keydec _ => .keydec
  | .keyenc _ _ => .keyenc
  | .keyrd _ => .keyrd
  | .keycnt => .keycnt
  | .keyint _ => .keyint
  | .keycfg _ _ _ => .keycfg
  | .mpush _ => .mpush
  | .mavg => .mavg
  | .mread => .mread
  | .csrr _ => .csrr
  | .csrw _ _ => .csrw

/-- A flag as an operand byte. -/
def flagByte (b : Bool) : Byte := if b then 1 else 0

/-- The operand bytes of a command, in the format of its opcode (30_encoding R114, R115). -/
def encodeOperands : Instr → List Byte
  | .rdreg m f => [m, f]
  | .wrreg m f b => [m, f, b]
  | .rd m f n d => [m, f, n] ++ bytes32 d
  | .wr m f ws => [m, f, BitVec.ofNat 8 ws.length] ++ ws
  | .rst => []
  | .keydec b => [b]
  | .keyenc k e => [k.setWidth 8, e.number.setWidth 8]
  | .keyrd n => [n]
  | .keycnt => []
  | .keyint en => [flagByte en]
  | .keycfg k m en => [k, m.setWidth 8, flagByte en]
  | .mpush v => bytes16 v
  | .mavg => []
  | .mread => []
  | .csrr c => bytes16 c
  | .csrw c v => bytes16 c ++ bytes32 v

/-- The descriptor of a well-formed command. -/
def encode (i : Instr) : List Byte := i.opcode.number :: encodeOperands i

/-! ### The opcode table's view of a descriptor -/

/-- The lowest `n` bytes of `w`, the least significant first: the table numbers bit 0 as the least significant bit
of descriptor byte 0 and counts on from byte to byte. -/
def tableBytes (n w : Nat) : List Byte := (List.range n).map fun j => BitVec.ofNat 8 (w / 2 ^ (8 * j))

/-- The length the bytes require (30_encoding R116), read as if followed by zero bytes; 0 for a reserved opcode. -/
def requiredLength : List Byte → Nat
  | [] => 0
  | opc :: ops =>
    match opcodeOf opc with
    | none => 0
    | some o => o.length (ops.getD 2 0)

/-- The descriptor whose first bits are `w`, completed with zero bytes to the length R116 requires. -/
def tableDescriptor (nbits w : Nat) : List Byte :=
  let given := tableBytes ((nbits + 7) / 8) w
  given ++ List.replicate (requiredLength given - given.length) 0

/-- The command the decoder reads from a row of the opcode table filled in with `w`; `none` where it is malformed. -/
def decodeTableWord (nbits w : Nat) : Option Instr :=
  match decode (tableDescriptor nbits w) with
  | .ok i => some i
  | .error _ => none

end Sys2Proof
end

