-- ==== Sys2Proof/Config.lean ====
section
/-!
DEFINITION. What stands outside the block's state: the parameters of 00_scope R7, the transactions and events of
20_memory R64 to R69 and 60_exceptions R245, and the free values (opaque constants without a body, of which nothing
can be proved but their type): the block's own parameters, the transport's answers, and the values the spec calls
unspecified (00_scope R12).
-/
namespace Sys2Proof

/-! ### Fixed numbers -/

/-- `N_MOIST_TRY`: "retried up to 5 times" (00_scope R7, 42_moisture R197). -/
def Config.moistTries : Nat := 5

/-- `BUF_MAX` (00_scope R7): the buffer's size in bytes. -/
def Config.bufMax : Nat := 255

/-! ### The OPEN parameters -/

/-- The OPEN parameters of 00_scope R7, under the spec's names; every delay is a count of ticks (R7, 92 D3). -/
structure Params where
  /-- `DEFAULT_ADDR` -/
  defaultAddr : Half
  /-- `STD_DELAY_DEFAULT` -/
  stdDelayDefault : Word
  /-- `TICK`, a duration; its unit of time is the reader's, since no rule fixes one. -/
  tick : Nat
  /-- `RST_MODULE` -/
  rstModule : Byte
  /-- `RST_FUNCTION` -/
  rstFunction : Byte
  /-- `RST_PAYLOAD` -/
  rstPayload : List Byte
  /-- `ID_MODULE` -/
  idModule : Byte
  /-- `ID_FUNCTION` -/
  idFunction : Byte
  /-- `KNOWN_IDS`, first member (log 25) -/
  knownIdA : Byte
  /-- `KNOWN_IDS`, second member -/
  knownIdB : Byte
  /-- `T_RESET_SETTLE` -/
  tResetSettle : Word
  /-- `N_ID_TRY` -/
  nIdTry : Nat
  /-- `T_ID_RETRY` -/
  tIdRetry : Word
  /-- `KEY_MODULE` -/
  keyModule : Byte
  /-- `KEY_FN_COUNT` -/
  keyFnCount : Byte
  /-- `KEY_FN_FIFO` -/
  keyFnFifo : Byte
  /-- `KEY_FN_INTENSET` -/
  keyFnIntenset : Byte
  /-- `KEY_FN_INTENCLR` -/
  keyFnIntenclr : Byte
  /-- `KEY_FN_EVENT` -/
  keyFnEvent : Byte
  /-- `KEY_INT_PAYLOAD` -/
  keyIntPayload : List Byte
  /-- `T_KEY_FIFO` -/
  tKeyFifo : Word
  /-- `MOIST_MODULE` -/
  moistModule : Byte
  /-- `MOIST_FUNCTION` -/
  moistFunction : Byte
  /-- `T_MOIST` -/
  tMoist : Word
  /-- `T_MOIST_BACKOFF` -/
  tMoistBackoff : Word
  /-- `RING_CAP` (log 19) -/
  ringCap : Nat
  deriving DecidableEq, Repr

/-- The constraints of the table of 00_scope R7. -/
def Params.legal (p : Params) : Bool :=
  decide (0 < p.tick) && decide (p.rstPayload.length ≤ 255) && decide (p.knownIdA ≠ p.knownIdB) &&
    decide (1 ≤ p.nIdTry) && decide (p.keyFnIntenset ≠ p.keyFnIntenclr) && decide (p.keyIntPayload.length ≤ 255) &&
    decide (1 ≤ p.ringCap) && decide (p.ringCap ≤ 61440)

/-- The configuration EX of 95_test_vectors, Part 3: a value for the tests, and the reason why the type of legal
configurations is not empty. Nothing of the machine reads it (log 22). -/
def Params.ex : Params where
  defaultAddr := 0x0049
  stdDelayDefault := 250
  tick := 1
  rstModule := 0x00
  rstFunction := 0x7F
  rstPayload := [0xFF]
  idModule := 0x00
  idFunction := 0x01
  knownIdA := 0x55
  knownIdB := 0x87
  tResetSettle := 1000000
  nIdTry := 3
  tIdRetry := 10000
  keyModule := 0x10
  keyFnCount := 0x04
  keyFnFifo := 0x10
  keyFnIntenset := 0x02
  keyFnIntenclr := 0x03
  keyFnEvent := 0x01
  keyIntPayload := [0x01]
  tKeyFifo := 1000
  moistModule := 0x0F
  moistFunction := 0x10
  tMoist := 3000
  tMoistBackoff := 1000
  ringCap := 5

/-- The one configuration record of 00_scope R7: parameters that meet the table's constraints. -/
structure Config extends Params where
  legal : toParams.legal = true
  deriving DecidableEq, Repr

/-- EX as a configuration. -/
def Config.ex : Config := { Params.ex with legal := by decide }

/-- Why an opaque configuration exists at all: the default of this one-field structure is EX. -/
structure Config.Held where
  held : Config := Config.ex
  deriving Inhabited

/-- The configuration of the block that `State.reset` describes: FREE, but for the constraints of R7 (log 1). -/
opaque Config.thisBlock : Config.Held

/-! ### The Bus Transport port (20_memory R64 to R69) -/

/-- A transport error code: one byte, never 0x00 (20_memory R69). -/
inductive TransportError where
  /-- `TE_NACK` -/
  | nack
  /-- `TE_FAULT` -/
  | busFault
  /-- A code of the transport's own, 0x03 to 0xFF. -/
  | other (k : Fin 253)
  deriving DecidableEq, Repr

/-- What the block asks of the transport (20_memory R65, R66): never both a write and a read (R70). -/
inductive Transaction where
  /-- `BusWrite(addr, ws)` -/
  | write (addr : Half) (ws : List Byte)
  /-- `BusRead(addr, n)` -/
  | read (addr : Half) (n : Nat)
  deriving DecidableEq, Repr

/-- What the transport answers (20_memory R68): `Ok`, with any byte list, or `Fail(e)`. A BusWrite reads nothing,
so the block does not look at the bytes of its `Ok` (log 12). -/
inductive Reply where
  | ok (bs : List Byte)
  | fail (e : TransportError)
  deriving DecidableEq, Repr, Inhabited

/-- What happens to a transaction: the transport replies, or never does (00_scope R15, 20_memory R67, log 3). -/
inductive Answer where
  | reply (r : Reply)
  | silent
  deriving DecidableEq, Repr

/-- What can be seen from outside the block, in order: events of its commands (00_scope R13) and of its ports. -/
inductive Event where
  /-- The block took a descriptor (60_exceptions R251). -/
  | accepted (d : List Byte)
  /-- A transaction and what became of it. -/
  | transaction (t : Transaction) (a : Answer)
  /-- `Delay(d)` (60_exceptions R245). -/
  | delay (d : Word)
  /-- The block delivered a response (30_encoding R118). -/
  | responded (bs : List Byte)
  /-- The block's own reset was applied (70_reset R260). -/
  | blockReset
  deriving DecidableEq, Repr

/-! ### Free values -/

/-- The transport's reply where no script gives one: FREE, any function of everything that happened before and of
the transaction (20_memory R68, log 2). -/
opaque Config.transport : List Event → Transaction → Reply

/-- The value `R` holds after a failed command: FREE, one for each draw (10_state R28, log 5). -/
opaque Config.freeR : Nat → Word

/-- The value of a byte of `BUF` at or beyond `BLEN`: FREE, one for each draw and index (10_state R29, log 5). -/
opaque Config.freeBufByte : Nat → Nat → Byte

end Sys2Proof
end

