-- ==== Sys2Proof/Machine/State.lean ====
section
/-!
DEFINITION. The state of one tempi-RPF instance (10_state R20) with its ports (60_exceptions R250, R251), as plain
data; its values after the block's own reset (R40, 70_reset R260); and the ways a step could stop.
-/
namespace Sys2Proof.Machine

/-- The handshake state `HS` (10_state R26). -/
inductive Handshake where
  | unknown | resetting | ready | failed
  deriving DecidableEq, Repr

/-- The status codes of 60_exceptions R221. -/
inductive Status where
  | ok | eTransport | eLength | eHandshake | eRetry | eBadCmd | eBadId | eBadCsr
  deriving DecidableEq, Repr, Inhabited

end Sys2Proof.Machine

namespace Sys2Proof

/-- The value RST and MREAD set `LAST` to at their start, before any attempt has failed: FREE, one for each draw
(10_state R34 gives none; log 31). -/
opaque Config.freeLast : Nat → Machine.Status × Byte

end Sys2Proof

namespace Sys2Proof.Machine

/-- The sequencer phases `SEQ` (10_state R32). -/
inductive Phase where
  | idle | addr | wait | data | write | done
  deriving DecidableEq, Repr

/-- What the host hands over next: a descriptor on the command port (60_exceptions R251), or its reset input
asserted (70_reset R260). -/
inductive HostInput where
  | command (d : List Byte)
  | reset
  deriving DecidableEq, Repr

/-- The bytes of `BUF` that hold a value, as (index, byte) pairs with the indices strictly rising. A byte not listed
is unspecified (10_state R29): it reads as a free value, see `State.bufByte`. -/
abbrev Memory := List Host.Cell

/-- The non-empty slots of `RING`, as (index, sample) pairs with the indices strictly rising. A slot not listed holds
0x0000, the empty slot and the reset contents (10_state R36). -/
abbrev Ring := List (Nat × Half)

/-- The state. The fields from `devAddr` to `dcnt` are the tuple of 10_state R20, in its order; `response` is what
stands on the response port; the others are the model's own: the configuration (constant), the environment (what
the host will hand over, what the transport is scripted to answer), the record of events, the draw counter. -/
structure State where
  /-- The configuration record of 00_scope R7; no step changes it (log 1). -/
  cfg : Config
  /-- `DEV_ADDR` (10_state R23) -/
  devAddr : Half
  /-- `HW_ID` (10_state R24) -/
  hwId : Byte
  /-- `STD_DELAY` (10_state R25) -/
  stdDelay : Word
  /-- `HS` (10_state R26) -/
  hs : Handshake
  /-- `ST` (10_state R27) -/
  st : Status
  /-- `SUB` (10_state R27): `ok` stands for the code 0, "none" (log 27) -/
  sub : Status
  /-- `INFO` (10_state R27) -/
  info : Byte
  /-- `R` (10_state R28) -/
  r : Word
  /-- `BUF` (10_state R29) -/
  buf : Memory
  /-- `BLEN` (10_state R29) -/
  blen : Byte
  /-- `BUF` holds the bytes of a KEYRD that ended `OK`: only then are there events (10_state R30, log 15). -/
  evtValid : Bool
  /-- `RING` (10_state R36) -/
  ring : Ring
  /-- `CUR` (10_state R37, log 19) -/
  cur : Nat
  /-- `SEQ` (10_state R32) -/
  seq : Phase
  /-- `ATT` (10_state R34) -/
  att : Nat
  /-- `LAST` (10_state R34) -/
  last : Status × Byte
  /-- `DCNT` (10_state R35) -/
  dcnt : Word
  /-- The response port: what was delivered last, `none` from a command's acceptance to its response. -/
  response : Option (List Byte)
  /-- What the host will hand over, in order (log 9). -/
  inputs : List HostInput
  /-- What the transport is scripted to answer, in order; past its end, `Config.transport` (log 2). -/
  answers : List Answer
  /-- The events so far, oldest first (log 13). -/
  trace : List Event
  /-- How many unspecified values have been drawn (log 5). -/
  draws : Nat
  deriving DecidableEq, Repr

/-- The block with configuration `c` right after its own reset (10_state R40), nothing handed over and nothing
scripted. `att`, `last` and `dcnt` are dead (R20); their values are log 6's. -/
def State.resetOf (c : Config) : State where
  cfg := c
  devAddr := c.defaultAddr
  hwId := 0x00
  stdDelay := c.stdDelayDefault
  hs := .unknown
  st := .ok
  sub := .ok
  info := 0
  r := 0
  buf := []
  blen := 0
  evtValid := false
  ring := []
  cur := 0
  seq := .idle
  att := 0
  last := (.ok, 0)
  dcnt := 0
  response := none
  inputs := []
  answers := []
  trace := []
  draws := 0

/-- The machine right after reset (70_reset R260), under the free configuration of log 1. -/
def State.reset : State := State.resetOf Config.thisBlock.held

/-- Why a step could stop with a fault. NO CONSTRUCTOR: the block has no trap (00_scope R15), every command ends
with a status (60_exceptions R220), and a transport that never answers leaves a state that stays as it is (log 3). -/
inductive Fault where
  deriving DecidableEq, Repr

/-- Why a step could be refused. -/
inductive Refusal where
  /-- A command without a meaning in the model. No arm of `exec` answers it: every row of the opcode table has its
  meaning. Safe: it would only stop a run. -/
  | notModelled (mnemonic : String)
  deriving DecidableEq, Repr

end Sys2Proof.Machine
end

