-- ==== Sys2Proof/Machine/Flags.lean ====
section
/-!
DEFINITION. The codes the host sees (10_state R26, R27; 60_exceptions R221; 20_memory R69) and the status record,
which are the block's only flags (R27).
-/
namespace Sys2Proof.Machine

/-- The number of a status (60_exceptions R221). -/
def Status.code : Status → Byte
  | .ok => 0
  | .eTransport => 1
  | .eLength => 2
  | .eHandshake => 3
  | .eRetry => 4
  | .eBadCmd => 5
  | .eBadId => 6
  | .eBadCsr => 7

/-- The number of a handshake state (10_state R26). -/
def Handshake.code : Handshake → BitVec 2
  | .unknown => 0
  | .resetting => 1
  | .ready => 2
  | .failed => 3

/-- The byte a transport error travels as (20_memory R69). -/
def errorCode : TransportError → Byte
  | .nack => 0x01
  | .busFault => 0x02
  | .other k => BitVec.ofNat 8 (3 + k.val)

/-- A byte count as `INFO` reports it, saturated at 255 (40_core R140, 60_exceptions R221). -/
def countByte (n : Nat) : Byte := BitVec.ofNat 8 (min n 255)

/-- Every command writes the three bytes of the status record at its end (10_state R27). -/
def State.setStatus (st sub : Status) (info : Byte) (s : State) : State :=
  { s with st := st, sub := sub, info := info }

/-- CSR `STATUS`: `ST` in bits 23:16, `SUB` in 15:8, `INFO` in 7:0 (43_csr R212). -/
def State.statusWord (s : State) : Word :=
  be32 0 s.st.code s.sub.code s.info

end Sys2Proof.Machine
end

