-- ==== Sys2Proof/Machine/Ops.lean ====
section
/-!
DEFINITION. The shared operations: the buffer and the ring, the transactions and delays, the two core procedures
(40_core R140, R141), the bounded retry loop (R146, 42_moisture R196), and the two ways a command ends
(60_exceptions R229, R230).
-/
namespace Sys2Proof.Machine

/-! ### BUF -/

/-- Indices strictly rising, none below `a`. -/
def risingFrom {α : Type} (a : Nat) : List (Nat × α) → Bool
  | [] => true
  | (i, _) :: m => decide (a ≤ i) && risingFrom (i + 1) m

/-- The canonical form of `BUF`: indices strictly rising, all below `BUF_MAX`. -/
def Memory.wf (m : Memory) : Bool := risingFrom 0 m && m.all fun c => decide (c.1 < Config.bufMax)

/-- The bytes at rising indices from `a` on. -/
def Memory.ofBytes (a : Nat) : List Byte → Memory
  | [] => []
  | b :: bs => (a, b) :: Memory.ofBytes (a + 1) bs

/-- `BUF[i]`: the listed byte, or a free value where the spec leaves the byte unspecified (10_state R29, log 5). -/
def State.bufByte (s : State) (i : Nat) : Byte :=
  match s.buf.lookup i with
  | some b => b
  | none => Config.freeBufByte s.draws i

/-- The bytes of `BUF` below `BLEN`, in index order. -/
def State.validBytes (s : State) : List Byte := (List.range s.blen.toNat).map s.bufByte

/-- A successful read of the bytes `bs`: `BUF[0..n-1] <- bs`, `BLEN <- n`; all else in `BUF` is unspecified
(10_state R29). The bytes are no events yet (R30): that is for the command to say, see `State.markEvents`. -/
def State.loadBuf (bs : List Byte) (s : State) : State :=
  { s with buf := Memory.ofBytes 0 bs, blen := BitVec.ofNat 8 bs.length, evtValid := false }

/-- The bytes in `BUF` are those of a KEYRD that ended `OK` (10_state R30). -/
def State.markEvents (s : State) : State := { s with evtValid := true }

/-! ### RING -/

/-- The canonical form of `RING`: indices strictly rising, no slot listed that holds 0x0000. -/
def Ring.wf (g : Ring) : Bool := risingFrom 0 g && g.all fun c => decide (c.2 ≠ 0)

/-- `RING[i]` (10_state R36). -/
def Ring.read (g : Ring) (i : Nat) : Half := (g.lookup i).getD 0

/-- `RING[i] <- v`; a slot that comes to hold 0x0000 is no longer listed. -/
def Ring.write (i : Nat) (v : Half) : Ring → Ring
  | [] => if v = 0 then [] else [(i, v)]
  | (j, w) :: g =>
    if i < j then (if v = 0 then (j, w) :: g else (i, v) :: (j, w) :: g)
    else if i = j then (if v = 0 then g else (i, v) :: g)
    else (j, w) :: Ring.write i v g

/-- The non-zero samples of the slots 0 to `cap - 1`, in slot order. -/
def Ring.samples (cap : Nat) (g : Ring) : List Half := ((List.range cap).map g.read).filter fun v => v ≠ 0

/-- `Avg(RING)`: 0 when there is no non-zero slot, else the exact sum divided by the count, fraction discarded
(42_moisture R191). -/
def Ring.average (cap : Nat) (g : Ring) : Half :=
  let vs := Ring.samples cap g
  if vs.length = 0 then 0 else BitVec.ofNat 16 ((vs.map BitVec.toNat).sum / vs.length)

/-- `Push(v)` (42_moisture R192). -/
def State.push (v : Half) (s : State) : State :=
  if v = 0 then s else { s with ring := Ring.write s.cur v s.ring, cur := (s.cur + 1) % s.cfg.ringCap }

/-! ### Writes of single registers (00_scope R11 `x <- v`) -/

/-- `R <- v` -/
def State.setR (v : Word) (s : State) : State := { s with r := v }

/-- `HS <- h` -/
def State.setHs (h : Handshake) (s : State) : State := { s with hs := h }

/-- `HW_ID <- b` -/
def State.setHwId (b : Byte) (s : State) : State := { s with hwId := b }

/-- `ATT <- n` -/
def State.setAtt (n : Nat) (s : State) : State := { s with att := n }

/-- `LAST <- (st, info)` -/
def State.setLast (l : Status × Byte) (s : State) : State := { s with last := l }

/-- One more unspecified value has been drawn (log 5). -/
def State.countDraw (s : State) : State := { s with draws := s.draws + 1 }

/-- RST and MREAD start (10_state R34): they set `ATT` and `LAST`. The rule states no values: `ATT` is
the number of the first attempt, `LAST` is free (log 31). -/
def State.startLoop (s : State) : State := ((s.setAtt 1).setLast (Config.freeLast s.draws)).countDraw

/-! ### Events -/

/-- `SEQ <- p` (00_scope R11). -/
def State.enter (p : Phase) (s : State) : State := { s with seq := p }

/-- An event is put on record. -/
def State.record (e : Event) (s : State) : State := { s with trace := s.trace ++ [e] }

/-- What becomes of the transaction `t` if the block issues it now: the next scripted answer, and where nothing is
scripted, the free reply to `t` after all that happened before (20_memory R68, log 2, log 23). -/
def State.nextAnswer (t : Transaction) (s : State) : Answer :=
  match s.answers with
  | a :: _ => a
  | [] => .reply (Config.transport s.trace t)

/-- The block issues `t` (20_memory R65, R66). -/
def State.issue (t : Transaction) (s : State) : State :=
  { s with answers := s.answers.tail, trace := s.trace ++ [.transaction t (s.nextAnswer t)] }

/-- `Delay(d)` begins: `SEQ` is `WAIT` and `DCNT` is loaded (10_state R32, R35, log 29). -/
def State.startDelay (d : Word) (s : State) : State :=
  ({ s with seq := .wait, dcnt := d }).record (.delay d)

/-- The down-counter has run out (10_state R35, log 7). -/
def State.endDelay (s : State) : State := { s with dcnt := 0 }

/-- `Delay(d)` (60_exceptions R245): the trace says that at least `d` ticks lie between its neighbours. -/
def State.delay (d : Word) (s : State) : State := (s.startDelay d).endDelay

/-! ### How a command ends -/

/-- The response: `[ST, SUB, INFO, R[31:24], R[23:16], R[15:8], R[7:0], BLEN] ++ BUF[0..BLEN-1]` (30_encoding R118). -/
def State.responseBytes (s : State) : List Byte :=
  [s.st.code, s.sub.code, s.info] ++ bytes32 s.r ++ [s.blen] ++ s.validBytes

/-- The response is delivered (`SEQ` is `DONE`), then `SEQ <- IDLE` (60_exceptions R229, R230; 10_state R32). -/
def State.respond (s : State) : State :=
  let t := s.enter .done
  (({ t with response := some t.responseBytes }).record (.responded t.responseBytes)).enter .idle

/-- `return OK` (60_exceptions R229). -/
def State.returnOk (s : State) : State := (s.setStatus .ok .ok 0).respond

/-- What a failure leaves unspecified or empty: `BLEN <- 0`; `R` and the contents of `BUF` become unspecified, that is,
free values (60_exceptions R230, log 5). -/
def State.spoil (s : State) : State :=
  { s with blen := 0, buf := [], evtValid := false, r := Config.freeR s.draws, draws := s.draws + 1 }

/-- `fail st(sub, info)` (60_exceptions R230): the status record, then what a failure spoils; everything else keeps the
value it has; then the response, which carries the free `R` (log 24). -/
def State.fail (st sub : Status) (info : Byte) (s : State) : State := (s.setStatus st sub info).spoil.respond

/-! ### The core procedures -/

/-- What a called procedure comes back with (00_scope R11): `Ok`, `Fail(st, info)`, or never, when the transport
does not answer (R15); each with the state it left. -/
inductive Result where
  | ok (s : State)
  | failed (st : Status) (info : Byte) (s : State)
  | stalled (s : State)
  deriving DecidableEq, Repr

/-- A transaction's answer as its caller sees it: `Ok` carries on with the bytes, `Fail(e)` is `E_TRANSPORT` with the
transport's code (60_exceptions R222), silence is for ever. `s` is the state after the transaction. -/
def onAnswer (a : Answer) (s : State) (k : List Byte → Result) : Result :=
  match a with
  | .silent => .stalled s
  | .reply (.fail e) => .failed .eTransport (errorCode e) s
  | .reply (.ok bs) => k bs

/-- The state after the address-pair phase of a read and its settle delay, when the transport takes the pair
(40_core R140). -/
def State.afterAddressPhase (m f : Byte) (d : Word) (s : State) : State :=
  ((s.enter .addr).issue (.write s.devAddr [m, f])).delay d

/-- The data phase of a read of `n` bytes (40_core R140): an answer of another length is `E_LENGTH` with the number of
bytes that came, saturated at 255 (60_exceptions R223). -/
def dataPhase (n : Byte) (s : State) : Result :=
  let s1 := s.enter .data
  let t := Transaction.read s.devAddr n.toNat
  let s2 := s1.issue t
  onAnswer (s1.nextAnswer t) s2 fun bs =>
    if bs.length = n.toNat then .ok (s2.loadBuf bs) else .failed .eLength (countByte bs.length) s2

/-- `DoRead(m, f, n, d)` (40_core R140). -/
def doRead (m f n : Byte) (d : Word) (s : State) : Result :=
  let s1 := s.enter .addr
  let t := Transaction.write s.devAddr [m, f]
  onAnswer (s1.nextAnswer t) (s1.issue t) fun _ => dataPhase n (s.afterAddressPhase m f d)

/-- `DoWrite(m, f, ws)` (40_core R141). -/
def doWrite (m f : Byte) (ws : List Byte) (s : State) : Result :=
  let s1 := s.enter .write
  let t := Transaction.write s.devAddr (m :: f :: ws)
  onAnswer (s1.nextAnswer t) (s1.issue t) fun _ => .ok (s1.issue t)

/-- A command that is one procedure (a bare call, 00_scope R11): the state it ends in. On `Ok`, `finish` makes the
command's own state writes before `return OK`. -/
def Result.conclude (finish : State → State) : Result → State
  | .ok s => (finish s).returnOk
  | .failed st info s => s.fail st .ok info
  | .stalled s => s

/-- The loop of RST (40_core R146) and MREAD (42_moisture R196): the attempt is made again, after a pause, until it
succeeds or `ATT` has reached `limit`; `LAST` keeps the outcome of the last failed attempt. `fuel` only bounds the
recursion: with `ATT` = 1 and fuel = limit >= 1 it never runs out (log 21). -/
def retry (attempt : State → Result) (limit : Nat) (pause : Word) : Nat → State → Result
  | 0, s => .failed s.last.1 s.last.2 s
  | fuel + 1, s =>
    match attempt s with
    | .ok t => .ok t
    | .stalled t => .stalled t
    | .failed st info t =>
      let u := t.setLast (st, info)
      if u.att = limit then .failed u.last.1 u.last.2 u
      else retry attempt limit pause fuel ((u.delay pause).setAtt (u.att + 1))

/-- `ATT <- 1`, then the loop. -/
def retryFromOne (attempt : State → Result) (limit : Nat) (pause : Word) (s : State) : Result :=
  retry attempt limit pause limit (s.setAtt 1)

/-! ### The ports -/

/-- The block takes the descriptor `d` (60_exceptions R251): it leaves the host's list, and the previous response
leaves the port (log 11). -/
def State.accept (d : List Byte) (rest : List HostInput) (s : State) : State :=
  ({ s with inputs := rest, response := none }).record (.accepted d)

/-- A malformed descriptor ends at once with `E_BADCMD` (30_encoding R121, log 26). -/
def State.rejectDescriptor (s : State) : State := s.fail .eBadCmd .ok 0

/-- The block's own reset (70_reset R260): every piece of its state at the reset value of 10_state R40. The
configuration, the environment and the record of events are not the block's (log 30). -/
def State.applyReset (rest : List HostInput) (s : State) : State :=
  { State.resetOf s.cfg with
    inputs := rest, answers := s.answers, trace := s.trace ++ [.blockReset], draws := s.draws + 1 }

/-- What the block does next, for `step`: nothing, its reset, or a command. -/
inductive Fetched where
  | nothing
  | reset (rest : List HostInput)
  | command (d : List Byte) (rest : List HostInput)
  deriving DecidableEq, Repr

/-- The block takes something from the host only while `SEQ = IDLE` (60_exceptions R252). -/
def State.fetch (s : State) : Fetched :=
  match s.seq, s.inputs with
  | .idle, .command d :: rest => .command d rest
  | .idle, .reset :: rest => .reset rest
  | _, _ => .nothing

end Sys2Proof.Machine
end

