-- ==== Sys2Proof/Machine/Operands.lean ====
section
/-!
DEFINITION. The operand forms that need more than their field: Key Events (30_encoding R105 to R107, 41_key R170,
R171) and CSR numbers (43_csr R212), with what reading and writing a CSR does.
-/
namespace Sys2Proof.Machine

/-! ### Key Events -/

/-- `KeyDec(b)`: `edge = b[1:0]`, `key = b[7:2]` (41_key R170). -/
def keyDec (b : Byte) : KeyEvent := { edge := Edge.ofNumber (b.extractLsb' 0 2), key := b.extractLsb' 2 6 }

/-- `KeyEnc(edge, key) = (zext_8(key) << 2) | zext_8(edge)` (41_key R171). -/
def keyEnc (e : KeyEvent) : Byte := e.key.setWidth 8 <<< 2 ||| e.edge.number.setWidth 8

/-- The decoded pair as KEYDEC leaves it in `R`: key in bits 15:8, edge in bits 7:0 (41_key R172). -/
def keyWord (e : KeyEvent) : Word := (be16 (e.key.setWidth 8) (e.edge.number.setWidth 8)).setWidth 32

/-- `EVT[i]`, the decoded view of `BUF[i]`, only below `BLEN` and only of the bytes of a KEYRD that ended `OK`
(10_state R30, log 15). -/
def State.evt (s : State) (i : Nat) : Option KeyEvent :=
  if s.evtValid = true ∧ i < s.blen.toNat then some (keyDec (s.bufByte i)) else none

/-- The keypad state byte: `(zext_8(emask) << 1) | en` (30_encoding R107). -/
def keypadState (emask : BitVec 4) (en : Bool) : Byte := emask.setWidth 8 <<< 1 ||| flagByte en

/-! ### Control and status registers -/

/-- The registers of 43_csr R212. -/
inductive Csr where
  | devAddr | hwId | stdDelay | hs | status | r | blen | cur | ringCap
  | buf (i : Nat)
  | ring (i : Nat)
  deriving DecidableEq, Repr

/-- The register a CSR number names, if any (43_csr R212). -/
def csrOf (ringCap : Nat) (c : Half) : Option Csr :=
  let n := c.toNat
  if n = 0x0000 then some .devAddr
  else if n = 0x0001 then some .hwId
  else if n = 0x0002 then some .stdDelay
  else if n = 0x0003 then some .hs
  else if n = 0x0004 then some .status
  else if n = 0x0005 then some .r
  else if n = 0x0006 then some .blen
  else if n = 0x0007 then some .cur
  else if n = 0x0008 then some .ringCap
  else if 0x0100 ≤ n ∧ n < 0x0100 + Config.bufMax then some (.buf (n - 0x0100))
  else if 0x1000 ≤ n ∧ n < 0x1000 + ringCap then some (.ring (n - 0x1000))
  else none

/-- The value of a register, zero-extended to 32 bits (43_csr R210, R212). -/
def State.csrValue (s : State) : Csr → Word
  | .devAddr => s.devAddr.setWidth 32
  | .hwId => s.hwId.setWidth 32
  | .stdDelay => s.stdDelay
  | .hs => s.hs.code.setWidth 32
  | .status => s.statusWord
  | .r => s.r
  | .blen => s.blen.setWidth 32
  | .cur => (BitVec.ofNat 16 s.cur).setWidth 32
  | .ringCap => (BitVec.ofNat 16 s.cfg.ringCap).setWidth 32
  | .buf i => (s.bufByte i).setWidth 32
  | .ring i => (s.ring.read i).setWidth 32

/-- Reading a byte of `BUF` that is unspecified draws a value: the next such read draws another (log 14). -/
def State.afterCsrRead (s : State) : Csr → State
  | .buf i => if i < s.blen.toNat then s else s.countDraw
  | .devAddr | .hwId | .stdDelay | .hs | .status | .r | .blen | .cur | .ringCap | .ring _ => s

/-- The width of a writable register; `none` for a read-only one (43_csr R211, R212). -/
def Csr.writableWidth : Csr → Option Nat
  | .devAddr => some 16
  | .stdDelay => some 32
  | .hwId | .hs | .status | .r | .blen | .cur | .ringCap | .buf _ | .ring _ => none

/-- `csr[c] <- v[width-1:0]` for the two writable registers; no other register is ever written so (43_csr R211). -/
def State.writeCsr (x : Csr) (v : Word) (s : State) : State :=
  match x with
  | .devAddr => { s with devAddr := v.setWidth 16 }
  | .stdDelay => { s with stdDelay := v }
  | .hwId | .hs | .status | .r | .blen | .cur | .ringCap | .buf _ | .ring _ => s

end Sys2Proof.Machine
end

