-- ==== Sys2Proof/Machine/CsrAccess.lean ====
section
/-!
DEFINITION. Control and status register access: CSRR, CSRW (43_csr R210 to R213).
-/
namespace Sys2Proof.Machine

/-- CSRR (43_csr R210): the value is taken before the command writes anything. -/
def execCsrr (c : Half) (s : State) : Host.Outcome State Fault Refusal :=
  .next <|
    match csrOf s.cfg.ringCap c with
    | none => s.fail .eBadCsr .ok 0
    | some x => ((s.afterCsrRead x).setR (s.csrValue x)).returnOk

/-- CSRW (43_csr R211): no such register, read-only, too wide, in this order (60_exceptions R232). -/
def execCsrw (c : Half) (v : Word) (s : State) : Host.Outcome State Fault Refusal :=
  .next <|
    match csrOf s.cfg.ringCap c with
    | none => s.fail .eBadCsr .ok 0
    | some x =>
      match x.writableWidth with
      | none => s.fail .eBadCsr .ok 1
      | some w => if 2 ^ w ≤ v.toNat then s.fail .eBadCsr .ok 2 else (s.writeCsr x v).returnOk

end Sys2Proof.Machine
end

