-- ==== Sys2Proof/Machine/Engine.lean ====
section
/-!
DEFINITION. The Register Protocol Engine commands: RDREG, WRREG, RD, WR, RST (40_core R142 to R150).
-/
namespace Sys2Proof.Machine

/-- `R <- zext_32(BUF[0])` (40_core R142, 41_key R175). -/
def State.byteToR (s : State) : State := s.setR ((s.bufByte 0).setWidth 32)

/-- RDREG (40_core R142): one byte, with the standard delay. -/
def execRdreg (m f : Byte) (s : State) : Host.Outcome State Fault Refusal :=
  .next ((doRead m f 1 s.stdDelay s).conclude State.byteToR)

/-- WRREG (40_core R143). -/
def execWrreg (m f b : Byte) (s : State) : Host.Outcome State Fault Refusal :=
  .next ((doWrite m f [b] s).conclude id)

/-- RD (40_core R144). -/
def execRd (m f n : Byte) (d : Word) (s : State) : Host.Outcome State Fault Refusal :=
  .next ((doRead m f n d s).conclude id)

/-- WR (40_core R145). -/
def execWr (m f : Byte) (ws : List Byte) (s : State) : Host.Outcome State Fault Refusal :=
  .next ((doWrite m f ws s).conclude id)

/-- `b` is a member of `KNOWN_IDS` (30_encoding R110). -/
def knownId (c : Config) (b : Byte) : Bool := b == c.knownIdA || b == c.knownIdB

/-- The identity test after a poll that read a byte (40_core R147): a known byte is written to `HW_ID` and `R` and
makes the handshake `Ready`; any other is the attempt's failure, `E_BADID` with the byte. -/
def identityTest (s : State) : Result :=
  let b := s.bufByte 0
  if knownId s.cfg b then .ok (((s.setHwId b).setR (b.setWidth 32)).setHs .ready)
  else .failed .eBadId b s

/-- One poll of the identity register (40_core R146). -/
def identityPoll (s : State) : Result :=
  match doRead s.cfg.idModule s.cfg.idFunction 1 s.stdDelay s with
  | .ok t => identityTest t
  | .failed st info t => .failed st info t
  | .stalled t => .stalled t

/-- `HS <- Failed`, then the command fails (40_core R148). -/
def State.failHandshake (st sub : Status) (info : Byte) (s : State) : State :=
  (s.setHs .failed).fail st sub info

/-- The polls of RST, after its reset write and settle delay (40_core R146). -/
def handshakePolls (s : State) : State :=
  match retryFromOne identityPoll s.cfg.nIdTry s.cfg.tIdRetry s with
  | .ok t => t.returnOk
  | .failed st info t => t.failHandshake .eHandshake st info
  | .stalled t => t

/-- RST (40_core R146 to R149, 10_state R34). -/
def execRst (s : State) : Host.Outcome State Fault Refusal :=
  .next <|
    match doWrite s.cfg.rstModule s.cfg.rstFunction s.cfg.rstPayload (s.startLoop.setHs .resetting) with
    | .ok t => handshakePolls (t.delay t.cfg.tResetSettle)
    | .failed st info t => t.failHandshake st .ok info
    | .stalled t => t

end Sys2Proof.Machine
end

