-- ==== Sys2Proof/Machine/Key.lean ====
section
/-!
DEFINITION. The Key Event Decoder and key-matrix commands: KEYDEC, KEYENC, KEYRD, KEYCNT, KEYINT, KEYCFG (41_key
R172 to R178).
-/
namespace Sys2Proof.Machine

/-- KEYDEC (41_key R172). -/
def execKeydec (b : Byte) (s : State) : Host.Outcome State Fault Refusal :=
  .next (s.setR (keyWord (keyDec b))).returnOk

/-- KEYENC (41_key R173). -/
def execKeyenc (key : BitVec 6) (edge : Edge) (s : State) : Host.Outcome State Fault Refusal :=
  .next (s.setR ((keyEnc { edge := edge, key := key }).setWidth 32)).returnOk

/-- KEYRD (41_key R174): on `Ok` the bytes read are events (10_state R30). -/
def execKeyrd (n : Byte) (s : State) : Host.Outcome State Fault Refusal :=
  .next ((doRead s.cfg.keyModule s.cfg.keyFnFifo n s.cfg.tKeyFifo s).conclude State.markEvents)

/-- KEYCNT (41_key R175). -/
def execKeycnt (s : State) : Host.Outcome State Fault Refusal :=
  .next ((doRead s.cfg.keyModule s.cfg.keyFnCount 1 s.stdDelay s).conclude State.byteToR)

/-- KEYINT (41_key R176): two distinct registers, one payload. -/
def execKeyint (en : Bool) (s : State) : Host.Outcome State Fault Refusal :=
  .next ((doWrite s.cfg.keyModule (if en then s.cfg.keyFnIntenset else s.cfg.keyFnIntenclr) s.cfg.keyIntPayload
    s).conclude id)

/-- KEYCFG (41_key R177; payload order 30_encoding R108). -/
def execKeycfg (key : Byte) (emask : BitVec 4) (en : Bool) (s : State) : Host.Outcome State Fault Refusal :=
  .next ((doWrite s.cfg.keyModule s.cfg.keyFnEvent [key, keypadState emask en] s).conclude id)

end Sys2Proof.Machine
end

