-- ==== Sys2Proof/Machine/Moisture.lean ====
section
/-!
DEFINITION. The Moisture Sample Ring commands: MPUSH, MAVG, MREAD (42_moisture R190 to R198).
-/
namespace Sys2Proof.Machine

/-- MPUSH (42_moisture R192, R193). -/
def execMpush (v : Half) (s : State) : Host.Outcome State Fault Refusal :=
  .next (s.push v).returnOk

/-- MAVG (42_moisture R194). -/
def execMavg (s : State) : Host.Outcome State Fault Refusal :=
  .next (s.setR ((Ring.average s.cfg.ringCap s.ring).setWidth 32)).returnOk

/-- The sample in `BUF`: `{BUF[0], BUF[1]}`, big-endian (30_encoding R109). -/
def State.sample (s : State) : Half := be16 (s.bufByte 0) (s.bufByte 1)

/-- What MREAD does with a successful read (42_moisture R196): the sample is pushed, and returned also when it is 0. -/
def State.takeSample (s : State) : State := (s.push s.sample).setR (s.sample.setWidth 32)

/-- One attempt of MREAD (42_moisture R196): a read of two bytes. -/
def moistureRead (s : State) : Result := doRead s.cfg.moistModule s.cfg.moistFunction 2 s.cfg.tMoist s

/-- MREAD (42_moisture R196, R197, 10_state R34). -/
def execMread (s : State) : Host.Outcome State Fault Refusal :=
  .next <|
    match retryFromOne moistureRead Config.moistTries s.cfg.tMoistBackoff s.startLoop with
    | .ok t => t.takeSample.returnOk
    | .failed st info t => t.fail .eRetry st info
    | .stalled t => t

end Sys2Proof.Machine
end

