-- ==== Sys2Proof/Machine/Dispatch.lean ====
section
/-!
DEFINITION. One arm per command: the meaning each has (30_encoding R120).
-/
namespace Sys2Proof.Machine

def exec (i : Instr) (s : State) : Host.Outcome State Fault Refusal :=
  match i with
  | .rdreg m f => Sys2Proof.Machine.execRdreg m f s
  | .wrreg m f b => Sys2Proof.Machine.execWrreg m f b s
  | .rd m f n d => Sys2Proof.Machine.execRd m f n d s
  | .wr m f ws => Sys2Proof.Machine.execWr m f ws s
  | .rst => Sys2Proof.Machine.execRst s
  | .keydec b => Sys2Proof.Machine.execKeydec b s
  | .keyenc key edge => Sys2Proof.Machine.execKeyenc key edge s
  | .keyrd n => Sys2Proof.Machine.execKeyrd n s
  | .keycnt => Sys2Proof.Machine.execKeycnt s
  | .keyint en => Sys2Proof.Machine.execKeyint en s
  | .keycfg key emask en => Sys2Proof.Machine.execKeycfg key emask en s
  | .mpush v => Sys2Proof.Machine.execMpush v s
  | .mavg => Sys2Proof.Machine.execMavg s
  | .mread => Sys2Proof.Machine.execMread s
  | .csrr c => Sys2Proof.Machine.execCsrr c s
  | .csrw c v => Sys2Proof.Machine.execCsrw c v s

end Sys2Proof.Machine
end

