-- ==== Sys2Proof/Machine/Step.lean ====
section
/-!
DEFINITION. One step of the machine: the block serves the host once (60_exceptions R251), running a command from its
acceptance to its response (20_memory R79).
-/
namespace Sys2Proof.Machine

/-- One step. With nothing handed over the block is simply idle (60_exceptions R253); while `SEQ` is not `IDLE` it
takes nothing (R252): the running command waits for ever on a transport that never answers (00_scope R15, log 3). -/
def step (s : State) : Host.Outcome State Fault Refusal :=
  match s.fetch with
  | .nothing => .next s
  | .reset rest => .next (s.applyReset rest)
  | .command d rest =>
    match decode d with
    | .ok i => exec i (s.accept d rest)
    | .error _ => .next (s.accept d rest).rejectDescriptor

/-- The descriptor of a row of the opcode table, as the next thing the host hands over to an idle block (log 9,
log 17). -/
def State.withFetchWord (s : State) (nbits w : Nat) : State :=
  { s with seq := .idle, inputs := .command (tableDescriptor nbits w) :: s.inputs }

end Sys2Proof.Machine
end

