-- ==== Sys2Proof/Safety.lean ====
section
/-!
DEFINITION. The terms in which claims speak of the machine: how the bus traffic is framed (20_memory R65, R71), when
a trace's timestamps keep its delays (60_exceptions R245), which descriptors are malformed (30_encoding R121), what
the CSR map numbers (43_csr R212), how much work a command may do (70_reset R281), the failed attempts of the two
retry loops (40_core R146, 42_moisture R196), how a command ended, what it left alone, and the invariant of a run.
-/
namespace Sys2Proof.Machine

/-! ### Bus traffic -/

/-- Every BusWrite carries 2 to 257 bytes (20_memory R65), and every BusRead stands right after a Delay that stands
right after a BusWrite of exactly two bytes to the same address, which the transport took (20_memory R71). -/
def Framed (tr : List Event) : Prop :=
  (∀ a ws x, Event.transaction (.write a ws) x ∈ tr → 2 ≤ ws.length ∧ ws.length ≤ 257) ∧
  ∀ before after a n x, tr = before ++ .transaction (.read a n) x :: after →
    ∃ earlier m f w d, before = earlier ++ [.transaction (.write a [m, f]) (.reply (.ok w)), .delay d]

/-- The transactions of a trace, in order. -/
def transactionsOf (tr : List Event) : List Transaction :=
  tr.filterMap fun e => match e with
    | .transaction t _ => some t
    | _ => none

/-- What became of the transactions of a trace, in order. -/
def answersOf (tr : List Event) : List Answer :=
  tr.filterMap fun e => match e with
    | .transaction _ a => some a
    | _ => none

/-- The delays of a trace, in order. -/
def delaysOf (tr : List Event) : List Word :=
  tr.filterMap fun e => match e with
    | .delay d => some d
    | _ => none

/-- The bus address of a transaction. -/
def addressOf : Transaction → Half
  | .write a _ => a
  | .read a _ => a

/-- The events of the bus and of time, without those of the host's ports. -/
def busEvents (tr : List Event) : List Event :=
  tr.filter fun e => match e with
    | .transaction _ _ => true
    | .delay _ => true
    | _ => false

/-! ### Time (60_exceptions R245) -/

/-- The least number of ticks an event lasts. -/
def minTicks : Event → Nat
  | .delay d => d.toNat
  | _ => 0

/-- Events with the times at which each starts and ends, from `now` on: one after the other, no delay shorter than
its ticks of length `tick`, any of them as long as it likes (60_exceptions R245). -/
def Scheduled (tick : Nat) : Nat → List (Event × Nat × Nat) → Prop
  | _, [] => True
  | now, (e, start, stop) :: rest => now ≤ start ∧ start + minTicks e * tick ≤ stop ∧ Scheduled tick stop rest

/-! ### Descriptors (30_encoding R121) -/

/-- The reserved opcode values, as 30_encoding R121 lists them. -/
def reservedOpcode (b : Byte) : Bool :=
  let n := b.toNat
  n == 0x00 || (decide (0x06 ≤ n) && decide (n ≤ 0x0F)) || (decide (0x16 ≤ n) && decide (n ≤ 0x1F)) ||
    (decide (0x23 ≤ n) && decide (n ≤ 0x2F)) || decide (0x32 ≤ n)

/-- The length a descriptor must have, by its opcode number and its `LEN` byte (30_encoding R114, R116). -/
def formatLength (d : List Byte) : Nat :=
  match (d.getD 0 0).toNat with
  | 0x05 | 0x13 | 0x21 | 0x22 => 1
  | 0x10 | 0x12 | 0x14 => 2
  | 0x01 | 0x11 | 0x20 | 0x30 => 3
  | 0x02 | 0x15 => 4
  | 0x31 => 7
  | 0x03 => 8
  | 0x04 => 4 + (d.getD 3 0).toNat
  | _ => 0

/-- An operand bit that 30_encoding R115 says must be 0 is 1: `KEY[7:6]` or `EDGE[7:2]` of KEYENC, `B0[7:1]` of
KEYINT, `EMASK[7:4]` or `EN[7:1]` of KEYCFG. -/
def badOperandBit (d : List Byte) : Bool :=
  match (d.getD 0 0).toNat with
  | 0x11 => (d.getD 1 0) &&& 0xC0 != 0 || (d.getD 2 0) &&& 0xFC != 0
  | 0x14 => (d.getD 1 0) &&& 0xFE != 0
  | 0x15 => (d.getD 2 0) &&& 0xF0 != 0 || (d.getD 3 0) &&& 0xFE != 0
  | _ => false

/-- A malformed descriptor: empty, a reserved opcode, a wrong length, or a must-be-zero bit set (30_encoding R121). -/
def Malformed (d : List Byte) : Prop :=
  d = [] ∨ reservedOpcode (d.getD 0 0) = true ∨ d.length ≠ formatLength d ∨ badOperandBit d = true

/-! ### Control and status registers (43_csr R212) -/

/-- A CSR number that the map of 43_csr R212 lists, for a ring of `cap` slots. -/
def listedCsr (cap n : Nat) : Prop := n ≤ 0x0008 ∨ (0x0100 ≤ n ∧ n ≤ 0x0100 + 254) ∨ (0x1000 ≤ n ∧ n < 0x1000 + cap)

/-- The numbers of a handshake state and a status, as naturals (10_state R26, 60_exceptions R221). -/
def handshakeNumber : Handshake → Nat
  | .unknown => 0
  | .resetting => 1
  | .ready => 2
  | .failed => 3

/-- See `handshakeNumber`. -/
def statusNumber : Status → Nat
  | .ok => 0
  | .eTransport => 1
  | .eLength => 2
  | .eHandshake => 3
  | .eRetry => 4
  | .eBadCmd => 5
  | .eBadId => 6
  | .eBadCsr => 7

/-- A status record that 60_exceptions R221 allows: which `SUB` and `INFO` stand beside which `ST`; a transport code
is never 0 (20_memory R69). -/
def statusAllowed (st sub : Status) (info : Byte) : Prop :=
  match st with
  | .ok => sub = .ok ∧ info = 0
  | .eTransport => sub = .ok ∧ info ≠ 0
  | .eLength => sub = .ok
  | .eHandshake => (sub = .eTransport ∧ info ≠ 0) ∨ sub = .eLength ∨ sub = .eBadId
  | .eRetry => (sub = .eTransport ∧ info ≠ 0) ∨ sub = .eLength
  | .eBadCmd => sub = .ok ∧ info = 0
  | .eBadId => False
  | .eBadCsr => sub = .ok ∧ info.toNat ≤ 2

/-! ### The work of a command (70_reset R281) -/

/-- The most transactions a command issues. -/
def maxTransactions (c : Config) : Instr → Nat
  | .rdreg _ _ | .rd _ _ _ _ | .keyrd _ | .keycnt => 2
  | .wrreg _ _ _ | .wr _ _ _ | .keyint _ | .keycfg _ _ _ => 1
  | .rst => 1 + 2 * c.nIdTry
  | .mread => 10
  | .keydec _ | .keyenc _ _ | .mpush _ | .mavg | .csrr _ | .csrw _ _ => 0

/-- The most delays a command inserts. -/
def maxDelays (c : Config) : Instr → Nat
  | .rdreg _ _ | .rd _ _ _ _ | .keyrd _ | .keycnt => 1
  | .rst => 1 + c.nIdTry + (c.nIdTry - 1)
  | .mread => 9
  | .wrreg _ _ _ | .wr _ _ _ | .keyint _ | .keycfg _ _ _ => 0
  | .keydec _ | .keyenc _ _ | .mpush _ | .mavg | .csrr _ | .csrw _ _ => 0

/-! ### Reads, writes and failed attempts -/

/-- The read a command is (30_encoding R124): address pair, number of bytes, delay. -/
def readForm (s : State) : Instr → Option (Byte × Byte × Byte × Word)
  | .rdreg m f => some (m, f, 1, s.stdDelay)
  | .rd m f n d => some (m, f, n, d)
  | .keyrd n => some (s.cfg.keyModule, s.cfg.keyFnFifo, n, s.cfg.tKeyFifo)
  | .keycnt => some (s.cfg.keyModule, s.cfg.keyFnCount, 1, s.stdDelay)
  | .wrreg _ _ _ | .wr _ _ _ | .rst | .keydec _ | .keyenc _ _ | .keyint _ | .keycfg _ _ _ | .mpush _ | .mavg
  | .mread | .csrr _ | .csrw _ _ => none

/-- The write a command is (30_encoding R124): the bytes of its one transaction. -/
def writeForm (s : State) : Instr → Option (List Byte)
  | .wrreg m f b => some [m, f, b]
  | .wr m f ws => some (m :: f :: ws)
  | .keyint true => some (s.cfg.keyModule :: s.cfg.keyFnIntenset :: s.cfg.keyIntPayload)
  | .keyint false => some (s.cfg.keyModule :: s.cfg.keyFnIntenclr :: s.cfg.keyIntPayload)
  | .keycfg k m en => some [s.cfg.keyModule, s.cfg.keyFnEvent, k, BitVec.ofNat 8 (2 * m.toNat + en.toNat)]
  | .rdreg _ _ | .rd _ _ _ _ | .rst | .keydec _ | .keyenc _ _ | .keyrd _ | .keycnt | .mpush _ | .mavg
  | .mread | .csrr _ | .csrw _ _ => none

/-- The delay between the two phases of every read of the command `i` (60_exceptions R246). -/
def dataDelay (s : State) (i : Instr) : Word :=
  match i with
  | .rst => s.stdDelay
  | .mread => s.cfg.tMoist
  | .rdreg _ _ | .wrreg _ _ _ | .rd _ _ _ _ | .wr _ _ _ | .keydec _ | .keyenc _ _ | .keyrd _ | .keycnt | .keyint _
  | .keycfg _ _ _ | .mpush _ | .mavg | .csrr _ | .csrw _ _ =>
    match readForm s i with
    | some (_, _, _, d) => d
    | none => 0

/-- The delay before an attempt of the command `i` that follows an earlier transaction (60_exceptions R246): before a
poll of RST, `T_RESET_SETTLE` after the reset write, which is the command's first transaction, and `T_ID_RETRY` after
another poll; before an attempt of MREAD, `T_MOIST_BACKOFF`. No other command has a second attempt. -/
def attemptDelay (s : State) (i : Instr) (afterFirst : Bool) : Word :=
  match i with
  | .rst => if afterFirst then s.cfg.tResetSettle else s.cfg.tIdRetry
  | .mread => s.cfg.tMoistBackoff
  | .rdreg _ _ | .wrreg _ _ _ | .rd _ _ _ _ | .wr _ _ _ | .keydec _ | .keyenc _ _ | .keyrd _ | .keycnt | .keyint _
  | .keycfg _ _ _ | .mpush _ | .mavg | .csrr _ | .csrw _ _ => 0

/-- The delay that 60_exceptions R246 puts between the transaction `x` and the one before it, when `earlier` are the
command's transactions before both. -/
def delayBefore (s : State) (i : Instr) (earlier : List Transaction) (x : Transaction) : Word :=
  match x with
  | .read _ _ => dataDelay s i
  | .write _ _ => attemptDelay s i earlier.isEmpty

/-- How a read of `n` bytes can fail (40_core R140): at its address pair, in its data phase, or by its length. `w` is
what came with the `Ok` of the address pair. -/
inductive FailedRead where
  | address (e : TransportError)
  | data (w : List Byte) (e : TransportError)
  | length (w bs : List Byte)
  deriving DecidableEq, Repr

/-- A wrong length is one that differs from the number asked for. -/
def FailedRead.possible (n : Nat) : FailedRead → Prop
  | .address _ => True
  | .data _ _ => True
  | .length _ bs => bs.length ≠ n

/-- The transport's answers that make a read fail so. -/
def FailedRead.answers : FailedRead → List Answer
  | .address e => [.reply (.fail e)]
  | .data w e => [.reply (.ok w), .reply (.fail e)]
  | .length w bs => [.reply (.ok w), .reply (.ok bs)]

/-- The events of a read that fails so (40_core R140): no delay and no data phase after a failed address pair. -/
def FailedRead.events (a : Half) (m f : Byte) (n : Nat) (d : Word) : FailedRead → List Event
  | .address e => [.transaction (.write a [m, f]) (.reply (.fail e))]
  | .data w e =>
    [.transaction (.write a [m, f]) (.reply (.ok w)), .delay d, .transaction (.read a n) (.reply (.fail e))]
  | .length w bs =>
    [.transaction (.write a [m, f]) (.reply (.ok w)), .delay d, .transaction (.read a n) (.reply (.ok bs))]

/-- The status and `INFO` of a read that fails so (60_exceptions R221 to R223). -/
def FailedRead.outcome : FailedRead → Status × Byte
  | .address e => (.eTransport, errorCode e)
  | .data _ e => (.eTransport, errorCode e)
  | .length _ bs => (.eLength, countByte bs.length)

/-- The events of a read of the bytes `bs` (40_core R140). -/
def readEvents (a : Half) (m f : Byte) (n : Nat) (d : Word) (w bs : List Byte) : List Event :=
  [.transaction (.write a [m, f]) (.reply (.ok w)), .delay d, .transaction (.read a n) (.reply (.ok bs))]

/-- How a poll of RST can fail (40_core R147): its read fails, or it reads an unknown identity byte. -/
inductive FailedPoll where
  | read (x : FailedRead)
  | unknownId (w : List Byte) (b : Byte)
  deriving DecidableEq, Repr

/-- The byte of an unknown identity is not in `KNOWN_IDS`. -/
def FailedPoll.possible (c : Config) : FailedPoll → Prop
  | .read x => x.possible 1
  | .unknownId _ b => b ≠ c.knownIdA ∧ b ≠ c.knownIdB

/-- The transport's answers that make a poll fail so. -/
def FailedPoll.answers : FailedPoll → List Answer
  | .read x => x.answers
  | .unknownId w b => [.reply (.ok w), .reply (.ok [b])]

/-- The events of a poll that fails so, in the state `s`. -/
def FailedPoll.events (s : State) : FailedPoll → List Event
  | .read x => x.events s.devAddr s.cfg.idModule s.cfg.idFunction 1 s.stdDelay
  | .unknownId w b => readEvents s.devAddr s.cfg.idModule s.cfg.idFunction 1 s.stdDelay w [b]

/-- The status and `INFO` of a poll that fails so (40_core R148). -/
def FailedPoll.outcome : FailedPoll → Status × Byte
  | .read x => x.outcome
  | .unknownId _ b => (.eBadId, b)

/-- The events of RST before its polls (40_core R146): the reset write and the settle delay. -/
def resetEvents (s : State) (w : List Byte) : List Event :=
  [.transaction (.write s.devAddr (s.cfg.rstModule :: s.cfg.rstFunction :: s.cfg.rstPayload)) (.reply (.ok w)),
    .delay s.cfg.tResetSettle]

/-! ### How a command ended, and what it left alone -/

/-- The command ended `OK` (60_exceptions R229) with the bus events `es`, then its response; the block is idle. -/
def EndedOk (s t : State) (es : List Event) : Prop :=
  t.st = .ok ∧ t.sub = .ok ∧ t.info = 0 ∧ t.seq = .idle ∧ t.response = some t.responseBytes ∧
    t.trace = s.trace ++ es ++ [.responded t.responseBytes]

/-- The command failed (60_exceptions R230) with this status record, `BLEN` 0 and the bus events `es`, then its
response; the block is idle. `R` and `BUF` are unspecified, so nothing is said of them. -/
def EndedFailed (s t : State) (st sub : Status) (info : Byte) (es : List Event) : Prop :=
  t.st = st ∧ t.sub = sub ∧ t.info = info ∧ t.blen = 0 ∧ t.seq = .idle ∧ t.response = some t.responseBytes ∧
    t.trace = s.trace ++ es ++ [.responded t.responseBytes]

/-- The command waits for ever (00_scope R15) in the phase `p`, after the bus events `es`: no response is delivered, the
status record is as it was, and the next step leaves the state as it is (log 3). -/
def Stalled (s t : State) (p : Phase) (es : List Event) : Prop :=
  t.seq = p ∧ t.response = s.response ∧ t.st = s.st ∧ t.sub = s.sub ∧ t.info = s.info ∧ t.trace = s.trace ++ es ∧
    step t = .next t

/-- `DEV_ADDR` and `STD_DELAY` keep their values. -/
def SameSettings (s t : State) : Prop := t.devAddr = s.devAddr ∧ t.stdDelay = s.stdDelay

/-- `HS` and `HW_ID` keep their values. -/
def SameHandshake (s t : State) : Prop := t.hs = s.hs ∧ t.hwId = s.hwId

/-- Every slot of `RING` and `CUR` keep their values. -/
def SameRing (s t : State) : Prop := t.ring = s.ring ∧ t.cur = s.cur

/-- Every byte of `BUF`, specified or not, and `BLEN` keep their values, and so does every event of the view `EVT`. -/
def SameBuf (s t : State) : Prop :=
  t.blen = s.blen ∧ (∀ i, t.bufByte i = s.bufByte i) ∧ ∀ i, t.evt i = s.evt i

/-- The retry loops' registers keep their values (10_state R34). -/
def SameLoop (s t : State) : Prop := t.att = s.att ∧ t.last = s.last

/-- The configuration and what the host has still to hand over are untouched. -/
def SameOutside (s t : State) : Prop := t.cfg = s.cfg ∧ t.inputs = s.inputs

/-- Nothing but the named results of a command without bus traffic changed: everything is as before except `R`, the
status record, the response, the record of events, `SEQ`, and the draw counter. -/
def SameButResult (s t : State) : Prop :=
  SameSettings s t ∧ SameHandshake s t ∧ SameRing s t ∧ t.blen = s.blen ∧ t.buf = s.buf ∧
    t.evtValid = s.evtValid ∧ SameLoop s t ∧ t.dcnt = s.dcnt ∧ SameOutside s t ∧ t.answers = s.answers

/-- What a successful read of `bs` with delay `d` leaves (40_core R140, 10_state R29): the bytes in `BUF`, `BLEN`, its
three events; `DCNT` has run out; two answers are used up; everything else but `R` as before. -/
def ReadEffect (s t : State) (m f : Byte) (d : Word) (w bs : List Byte) : Prop :=
  t.blen.toNat = bs.length ∧ (∀ i (h : i < bs.length), t.bufByte i = bs[i]) ∧
    EndedOk s t (readEvents s.devAddr m f bs.length d w bs) ∧ SameSettings s t ∧ SameHandshake s t ∧ SameRing s t ∧
    SameLoop s t ∧ t.dcnt = 0 ∧ SameOutside s t ∧ t.answers = s.answers.drop 2 ∧ t.draws = s.draws

/-- What a successful write of `ws` leaves (40_core R141): the status record and its one event; one answer is used
up; everything else as before. -/
def WriteEffect (s t : State) (w ws : List Byte) : Prop :=
  EndedOk s t [.transaction (.write s.devAddr ws) (.reply (.ok w))] ∧ t.r = s.r ∧ SameBuf s t ∧ SameSettings s t ∧
    SameHandshake s t ∧ SameRing s t ∧ SameLoop s t ∧ t.dcnt = s.dcnt ∧ SameOutside s t ∧
    t.answers = s.answers.drop 1 ∧ t.draws = s.draws

/-- The transport takes the address pair `m, f` when the block sends it in state `s`. -/
def TakesPair (s : State) (m f : Byte) (w : List Byte) : Prop :=
  s.nextAnswer (.write s.devAddr [m, f]) = .reply (.ok w)

/-- The transport then returns `bs` to a data phase of `n` bytes. -/
def Returns (s : State) (m f : Byte) (d : Word) (n : Nat) (bs : List Byte) : Prop :=
  (s.afterAddressPhase m f d).nextAnswer (.read s.devAddr n) = .reply (.ok bs)

/-! ### The invariant of a run -/

/-- What holds of the block at reset and after every step, from any state in which it holds. -/
structure Inv (s : State) : Prop where
  /-- `BUF` is in its canonical form. -/
  bufCanonical : Memory.wf s.buf = true
  /-- The listed bytes of `BUF` are exactly those below `BLEN` (10_state R29). -/
  bufValid : s.buf.map Prod.fst = List.range s.blen.toNat
  /-- `RING` is in its canonical form: no zero sample is ever stored (10_state R36, R38). -/
  ringCanonical : Ring.wf s.ring = true
  /-- `RING` has the slots 0 to `RING_CAP - 1` (10_state R36). -/
  ringSlots : ∀ c ∈ s.ring, c.1 < s.cfg.ringCap
  /-- `CUR` is a slot number (10_state R37). -/
  curSlot : s.cur < s.cfg.ringCap
  /-- An idle block never shows `Resetting` (10_state R26). -/
  handshakeSettled : s.seq = .idle → s.hs ≠ .resetting
  /-- The status record is one of 60_exceptions R221. -/
  statusLegal : statusAllowed s.st s.sub s.info

/-- The slots that read non-zero are a prefix of the ring, up to the cursor, until every slot does (10_state R38). -/
def RingFilled (s : State) : Prop :=
  s.cur < s.cfg.ringCap ∧
    ((∀ k, k < s.cfg.ringCap → s.ring.read k ≠ 0) ∨ ∀ k, k < s.cfg.ringCap → (s.ring.read k ≠ 0 ↔ k < s.cur))

end Sys2Proof.Machine
end

