-- ==== Sys2Proof/Certificates/Slice0/Obligations.lean ====
section
/-!
DEFINITION. The statements about tempi-RPF, from the numbered rules of spec/. Each docstring names the rules it
formalises; where a clause rests on a choice of the model, it names the log entry.
-/
open Sys2Proof Sys2Proof.Machine

/-! ### Encoding -/

/-- Descriptors written out byte by byte from 30_encoding R114, R115, R120 decode to the commands they stand for. That
the edge number 3 of KEYENC is called rising is 30_encoding R106, a choice that the spec takes from general knowledge
(log 18). -/
def Obligations.SpecDescriptorsDecode : Prop :=
  decode [0x01, 0x00, 0x01] = .ok (.rdreg 0x00 0x01) ∧
    decode [0x03, 0x0F, 0x10, 0x02, 0x00, 0x00, 0x0B, 0xB8] = .ok (.rd 0x0F 0x10 2 3000) ∧
    decode [0x04, 0x10, 0x01, 0x02, 0x04, 0x19] = .ok (.wr 0x10 0x01 [0x04, 0x19]) ∧
    decode [0x05] = .ok .rst ∧
    decode [0x11, 0x05, 0x03] = .ok (.keyenc 5 .rising) ∧
    decode [0x15, 0x04, 0x0C, 0x01] = .ok (.keycfg 4 0b1100 true) ∧
    decode [0x20, 0x01, 0x2C] = .ok (.mpush 300) ∧
    decode [0x31, 0x00, 0x02, 0x00, 0x00, 0x03, 0xE8] = .ok (.csrw 0x0002 1000)

/-- 30_encoding R113 to R116, R120: the descriptor of every well-formed command decodes to that command. -/
def Obligations.DecodeOfEncodeIsTheCommand : Prop :=
  ∀ i : Instr, i.wellFormed = true → decode (encode i) = .ok i

/-- 30_encoding R113 to R116, R119: a descriptor that decodes is the one descriptor of its command, and the command
is well-formed. -/
def Obligations.EncodeOfDecodeIsTheDescriptor : Prop :=
  ∀ (d : List Byte) (i : Instr), decode d = .ok i → encode i = d ∧ i.wellFormed = true

/-- 30_encoding R115, R116, R121: the decoder rejects exactly the malformed descriptors. -/
def Obligations.DecodeRejectsExactlyTheMalformed : Prop :=
  ∀ d : List Byte, (∃ e, decode d = .error e) ↔ Malformed d

/-! ### One step -/

/-- 30_encoding R121 (with R230): a malformed descriptor, taken by an idle block, ends at once with `E_BADCMD`: no
transaction and no delay; besides the status record, `BLEN`, `R` and `BUF` nothing of the block's state changes. That
this is one step (log 26), that the descriptor leaves the host's list (log 9), and the event that records its
acceptance (log 13) are the model's choices. -/
def Obligations.MalformedDescriptorEndsBadCmd : Prop :=
  ∀ (s : State) (d : List Byte) (rest : List HostInput), s.seq = .idle → s.inputs = .command d :: rest →
    Malformed d →
    ∃ t, step s = .next t ∧ EndedFailed s t .eBadCmd .ok 0 [.accepted d] ∧ SameSettings s t ∧ SameHandshake s t ∧
      SameRing s t ∧ SameLoop s t ∧ t.dcnt = s.dcnt ∧ t.cfg = s.cfg ∧ t.inputs = rest ∧ t.answers = s.answers

/-- 60_exceptions R251, 20_memory R79: an idle block takes the descriptor the host hands over, and the step is the
whole command it decodes to. Around `exec`, the step takes the descriptor off the host's list (log 9), clears the
response port (log 11) and records the acceptance (log 13): these three are the model's choices. -/
def Obligations.StepRunsTheDecodedCommand : Prop :=
  ∀ (s : State) (d : List Byte) (rest : List HostInput) (i : Instr), s.seq = .idle →
    s.inputs = .command d :: rest → decode d = .ok i →
    step s = exec i { s with inputs := rest, response := none, trace := s.trace ++ [.accepted d] }

/-- 60_exceptions R252: while `SEQ` is not `IDLE` no descriptor the host offers is taken. That a busy state then stays
wholly as it is, step after step (log 3), and that the reset input is not taken either (log 10), are the model's
choices. -/
def Obligations.BusyBlockServesNoHost : Prop :=
  ∀ s : State, s.seq ≠ .idle → step s = .next s

/-- 60_exceptions R253, R251: with nothing handed over, an idle block stays as it is (the list of what the
host hands over is the model's, log 9). -/
def Obligations.IdleBlockWaits : Prop :=
  ∀ s : State, s.seq = .idle → s.inputs = [] → step s = .next s

/-- 10_state R40, 70_reset R260, R261: what the block's reset leaves, at power-on (`State.reset`) and when the reset
input is asserted between commands: every value R40 names, no transaction and no delay. Nothing is said of `BUF`,
`ATT`, `LAST`, `DCNT`. That the configuration, the environment and the record of events are kept is log 30. -/
def Obligations.ResetLeavesTheSpecValues : Prop :=
  let resetValues : State → Prop := fun t =>
    t.devAddr = t.cfg.defaultAddr ∧ t.hwId = 0x00 ∧ t.stdDelay = t.cfg.stdDelayDefault ∧ t.hs = .unknown ∧
      t.st = .ok ∧ t.sub = .ok ∧ t.info = 0 ∧ t.r = 0 ∧ t.blen = 0 ∧ (∀ k, t.ring.read k = 0x0000) ∧ t.cur = 0 ∧
      t.seq = .idle
  resetValues State.reset ∧
    ∀ (s : State) (rest : List HostInput), s.seq = .idle → s.inputs = .reset :: rest →
      ∃ t, step s = .next t ∧ resetValues t ∧ t.cfg = s.cfg ∧ t.inputs = rest ∧ t.answers = s.answers ∧
        t.trace = s.trace ++ [.blockReset]

/-- The opcode table read as 30_encoding R113 lays a descriptor out: a row filled in with `w` and handed over next
(log 9, log 17) runs as the very next step. Around `exec`, the step clears the response port (log 11) and records the
acceptance (log 13): these are the model's choices. -/
def Obligations.TableRowRunsNext : Prop :=
  ∀ (s : State) (nbits w : Nat) (i : Instr), decodeTableWord nbits w = some i →
    step (s.withFetchWord nbits w) =
      exec i { s with seq := .idle, response := none, trace := s.trace ++ [.accepted (tableDescriptor nbits w)] }

/-! ### Invariants -/

/-- 10_state R40: the state after reset has the invariant of a run, a framed trace and a ring filled up to its
cursor. -/
def Obligations.ResetStateHasTheInvariants : Prop :=
  Inv State.reset ∧ Framed State.reset.trace ∧ RingFilled State.reset

/-- 10_state R26, R29, R36, R37, R38, 60_exceptions R221: from every state that has the invariant, every step gives
a state that has it. -/
def Obligations.StepKeepsTheInvariant : Prop :=
  ∀ s t : State, Inv s → step s = .next t → Inv t

/-- 20_memory R65, R71: every step keeps the bus traffic framed. -/
def Obligations.StepKeepsTheTraceFramed : Prop :=
  ∀ s t : State, Framed s.trace → step s = .next t → Framed t.trace

/-- 10_state R38: every step keeps the slots that read non-zero a prefix of the ring, up to the cursor, until all of
them do. -/
def Obligations.StepKeepsTheRingFilled : Prop :=
  ∀ s t : State, RingFilled s → step s = .next t → RingFilled t

/-! ### Rules over all commands -/

/-- 60_exceptions R220, 70_reset R281: when the transport answers what the block asks, every command ends, with the
block idle and its response delivered, as the last event. The script of answers, and that a free answer is never
silence, are the model's (log 2, log 3). -/
def Obligations.EveryCommandEnds : Prop :=
  ∀ (i : Instr) (s : State), (∀ a ∈ s.answers, a ≠ .silent) →
    ∃ t es, exec i s = .next t ∧ t.seq = .idle ∧ t.response = some t.responseBytes ∧
      t.trace = s.trace ++ busEvents es ++ [.responded t.responseBytes]

/-- 00_scope R15, 20_memory R67: a transport that never answers leaves a read or write command where it waits, with no
response and the status record untouched, for ever: at the address pair of a read, in its data phase, at the
transaction of a write. That such a state stays as it is, step after step, is the model's form of the hang (log 3).
RST and MREAD: SilentTransportStallsRst, SilentTransportStallsMread. -/
def Obligations.SilentTransportStallsTheCommand : Prop :=
  (∀ i s m f n d, readForm s i = some (m, f, n, d) → s.nextAnswer (.write s.devAddr [m, f]) = .silent →
    ∃ t, exec i s = .next t ∧ Stalled s t .addr [.transaction (.write s.devAddr [m, f]) .silent]) ∧
  (∀ i s m f n d w, readForm s i = some (m, f, n, d) → TakesPair s m f w →
    (s.afterAddressPhase m f d).nextAnswer (.read s.devAddr n.toNat) = .silent →
    ∃ t, exec i s = .next t ∧ Stalled s t .data [.transaction (.write s.devAddr [m, f]) (.reply (.ok w)), .delay d,
      .transaction (.read s.devAddr n.toNat) .silent]) ∧
  (∀ i s ws, writeForm s i = some ws → s.nextAnswer (.write s.devAddr ws) = .silent →
    ∃ t, exec i s = .next t ∧ Stalled s t .write [.transaction (.write s.devAddr ws) .silent])

/-- 20_memory R62: every transaction a command issues carries the whole 16-bit `DEV_ADDR`, unchanged. -/
def Obligations.TransactionsCarryDevAddr : Prop :=
  ∀ (i : Instr) (s t : State), exec i s = .next t →
    ∃ es, t.trace = s.trace ++ es ∧ ∀ x ∈ transactionsOf es, addressOf x = s.devAddr

/-- 70_reset R281: the most transactions and delays each command makes. -/
def Obligations.CommandWorkIsBounded : Prop :=
  ∀ (i : Instr) (s t : State), exec i s = .next t →
    ∃ es, t.trace = s.trace ++ es ∧ (transactionsOf es).length ≤ maxTransactions s.cfg i ∧
      (delaysOf es).length ≤ maxDelays s.cfg i

/-- 20_memory R68, 00_scope R14: the transport's answers are all that a command takes from outside: whatever a
command does, on scripted or on free answers (log 2), it does again on the script of the answers its trace shows. -/
def Obligations.CommandIsDeterminedByItsAnswers : Prop :=
  ∀ (i : Instr) (s t : State), exec i s = .next t →
    ∃ es, t.trace = s.trace ++ es ∧ exec i { s with answers := answersOf es } = .next { t with answers := [] }

/-- 30_encoding R118: the response, byte by byte, from the state after the command's last write; `BLEN` is 0 when the
command failed. -/
def Obligations.ResponseIsBuiltFromTheEndState : Prop :=
  ∀ (i : Instr) (s t : State), exec i s = .next t → t.seq = .idle →
    ∃ bs, t.response = some bs ∧ bs.length = 8 + t.blen.toNat ∧
      bs.take 3 = [BitVec.ofNat 8 (statusNumber t.st), BitVec.ofNat 8 (statusNumber t.sub), t.info] ∧
      (((bs.drop 3).take 4).foldl (fun n b => 256 * n + b.toNat) 0) = t.r.toNat ∧ (bs.drop 7).take 1 = [t.blen] ∧
      (∀ k, k < t.blen.toNat → (bs.drop 8)[k]? = some (t.bufByte k)) ∧ (t.st ≠ .ok → t.blen = 0)

/-- 60_exceptions R230, 10_state R23 to R25, R36, R37: a command that fails leaves `BLEN` 0 and changes neither
`DEV_ADDR`, `STD_DELAY`, `HW_ID`, `RING` nor `CUR`; `HS` stays too, unless the command is RST, which leaves `Failed`. -/
def Obligations.FailureLeavesPersistentState : Prop :=
  ∀ (i : Instr) (s t : State), exec i s = .next t → t.seq = .idle → t.st ≠ .ok →
    t.blen = 0 ∧ SameSettings s t ∧ t.hwId = s.hwId ∧ SameRing s t ∧ (i ≠ .rst → t.hs = s.hs) ∧
      (i = .rst → t.hs = .failed)

/-- 10_state R23 to R26, R36, R37, 40_core R149, 42_moisture R198: which command alone writes which piece of state. -/
def Obligations.OnlyNamedCommandsWriteEachRegister : Prop :=
  ∀ (i : Instr) (s t : State), exec i s = .next t →
    (t.devAddr ≠ s.devAddr → ∃ v, i = .csrw 0x0000 v) ∧ (t.stdDelay ≠ s.stdDelay → ∃ v, i = .csrw 0x0002 v) ∧
      (t.hs ≠ s.hs ∨ t.hwId ≠ s.hwId → i = .rst) ∧
      (t.ring ≠ s.ring ∨ t.cur ≠ s.cur → i = .mread ∨ ∃ v, v ≠ 0 ∧ i = .mpush v) ∧ SameOutside s t

/-- 70_reset R266, 10_state R26: no command is refused, delayed or altered because of `HS`: but for CSRR, which may
read it, every command does the same from any `HS`, and leaves it as it was, but for RST, which writes it. -/
def Obligations.HandshakeStateGatesNothing : Prop :=
  ∀ (i : Instr) (s t : State) (h : Handshake), (∀ c, i ≠ .csrr c) → exec i s = .next t →
    exec i { s with hs := h } = .next (if i = .rst then t else { t with hs := h })

/-- 60_exceptions R245, R246: whatever times the events of a command carry, as long as no delay is shorter than its
ticks, each transaction starts at least the delay of R246 after the answer to the one before it: the data phase of
every read, the first poll of RST after its reset write, its further polls, the further attempts of MREAD. That a
command is one step whose events get their times afterwards is the model's form (log 4, log 20). -/
def Obligations.SchedulesKeepTheDelays : Prop :=
  ∀ (i : Instr) (s t : State), exec i s = .next t →
    ∃ es, t.trace = s.trace ++ es ∧
      ∀ (now : Nat) (timed : List (Event × Nat × Nat)), timed.map Prod.fst = es → Scheduled s.cfg.tick now timed →
        ∀ before between after x a p answered y b start stop,
          timed = before ++ (.transaction x a, p, answered) :: between ++ (.transaction y b, start, stop) :: after →
          transactionsOf (between.map Prod.fst) = [] →
          answered + (delayBefore s i (transactionsOf (before.map Prod.fst)) y).toNat * s.cfg.tick ≤ start

/-- 30_encoding R124: the six commands that are fixed uses of RD and WR make the same bus events, the same `BUF`,
`BLEN` and status record as the RD or WR beside them, when the transport gives both the same answers. -/
def Obligations.PseudoCommandsAreReadsAndWrites : Prop :=
  let sameTraffic : State → Instr → Instr → Prop := fun s i j =>
    ∃ t u es, exec i s = .next t ∧ exec j s = .next u ∧ busEvents t.trace = busEvents s.trace ++ es ∧
      busEvents u.trace = busEvents s.trace ++ es ∧ t.buf = u.buf ∧ t.blen = u.blen ∧ t.st = u.st ∧ t.sub = u.sub ∧
      t.info = u.info
  ∀ s : State,
    (∀ m f, sameTraffic s (.rdreg m f) (.rd m f 1 s.stdDelay)) ∧
    (∀ m f b, sameTraffic s (.wrreg m f b) (.wr m f [b])) ∧
    sameTraffic s .keycnt (.rd s.cfg.keyModule s.cfg.keyFnCount 1 s.stdDelay) ∧
    (∀ n, sameTraffic s (.keyrd n) (.rd s.cfg.keyModule s.cfg.keyFnFifo n s.cfg.tKeyFifo)) ∧
    sameTraffic s (.keyint true) (.wr s.cfg.keyModule s.cfg.keyFnIntenset s.cfg.keyIntPayload) ∧
    sameTraffic s (.keyint false) (.wr s.cfg.keyModule s.cfg.keyFnIntenclr s.cfg.keyIntPayload) ∧
    (∀ k m en, sameTraffic s (.keycfg k m en)
      (.wr s.cfg.keyModule s.cfg.keyFnEvent [k, BitVec.ofNat 8 (2 * m.toNat + en.toNat)]))

/-! ### Reads and writes -/

/-- 40_core R142: RDREG returns the one byte it reads, in `R` and in `BUF[0]`, with the standard delay; it reads no
events (10_state R30, log 15). The clauses on `DCNT`, `ATT`, `LAST` and the script are the model's (log 7, log 8, log 2). -/
def Obligations.RdregReadsOneByte : Prop :=
  ∀ (m f : Byte) (s : State) (w : List Byte) (b : Byte), TakesPair s m f w → Returns s m f s.stdDelay 1 [b] →
    ∃ t, exec (.rdreg m f) s = .next t ∧ t.r.toNat = b.toNat ∧ ReadEffect s t m f s.stdDelay w [b] ∧
      ∀ k, t.evt k = none

/-- 40_core R144: RD puts the bytes it reads in `BUF`, with the delay it names, and leaves `R`; it reads no events
(10_state R30, log 15). The clauses on `DCNT`, `ATT`, `LAST` and the script are the model's (log 7, log 8, log 2). -/
def Obligations.RdReadsTheBytes : Prop :=
  ∀ (m f n : Byte) (d : Word) (s : State) (w bs : List Byte), TakesPair s m f w → Returns s m f d n.toNat bs →
    bs.length = n.toNat → ∃ t, exec (.rd m f n d) s = .next t ∧ t.r = s.r ∧ ReadEffect s t m f d w bs ∧
      ∀ k, t.evt k = none

/-- 41_key R174, 10_state R30: KEYRD puts the raw bytes in `BUF`, and the view `EVT` decodes each of them, below
`BLEN` only. The clauses on `DCNT`, `ATT`, `LAST`
and the script are the model's (log 7, log 8, log 2). -/
def Obligations.KeyrdReadsTheEvents : Prop :=
  ∀ (n : Byte) (s : State) (w bs : List Byte), TakesPair s s.cfg.keyModule s.cfg.keyFnFifo w →
    Returns s s.cfg.keyModule s.cfg.keyFnFifo s.cfg.tKeyFifo n.toNat bs → bs.length = n.toNat →
    ∃ t, exec (.keyrd n) s = .next t ∧ t.r = s.r ∧
      ReadEffect s t s.cfg.keyModule s.cfg.keyFnFifo s.cfg.tKeyFifo w bs ∧
      (∀ k (h : k < bs.length), ∃ ev, t.evt k = some ev ∧ ev.edge.number.toNat = bs[k].toNat % 4 ∧
        ev.key.toNat = bs[k].toNat / 4) ∧
      ∀ k, bs.length ≤ k → t.evt k = none

/-- 41_key R175: KEYCNT returns the FIFO depth it reads, with the standard delay; it reads no events (10_state R30,
log 15). The clauses on `DCNT`, `ATT`, `LAST` and the script are the model's (log 7, log 8, log 2). -/
def Obligations.KeycntReadsTheDepth : Prop :=
  ∀ (s : State) (w : List Byte) (b : Byte), TakesPair s s.cfg.keyModule s.cfg.keyFnCount w →
    Returns s s.cfg.keyModule s.cfg.keyFnCount s.stdDelay 1 [b] →
    ∃ t, exec .keycnt s = .next t ∧ t.r.toNat = b.toNat ∧
      ReadEffect s t s.cfg.keyModule s.cfg.keyFnCount s.stdDelay w [b] ∧ ∀ k, t.evt k = none

/-- 40_core R140, 60_exceptions R222: when the address pair of RDREG, RD, KEYRD or KEYCNT fails, there is no delay and
no data phase, and the command ends `E_TRANSPORT` with the transport's code. -/
def Obligations.ReadFailsAtItsAddressPair : Prop :=
  ∀ (i : Instr) (s : State) (m f n : Byte) (d : Word) (e : TransportError), readForm s i = some (m, f, n, d) →
    s.nextAnswer (.write s.devAddr [m, f]) = .reply (.fail e) →
    ∃ t, exec i s = .next t ∧
      EndedFailed s t .eTransport .ok (errorCode e) [.transaction (.write s.devAddr [m, f]) (.reply (.fail e))] ∧
      SameSettings s t ∧ SameHandshake s t ∧ SameRing s t ∧ SameLoop s t ∧ t.dcnt = s.dcnt ∧ SameOutside s t ∧
      t.answers = s.answers.drop 1

/-- 40_core R140, 60_exceptions R222, R223: when the data phase of RDREG, RD, KEYRD or KEYCNT fails, the command ends
`E_TRANSPORT` with the transport's code; when it brings another number of bytes than asked for, `E_LENGTH` with that
number, saturated at 255. That `DCNT` is then 0 is the model's (log 7). -/
def Obligations.ReadFailsInItsDataPhase : Prop :=
  ∀ (i : Instr) (s : State) (m f n : Byte) (d : Word) (w : List Byte) (x : Reply),
    readForm s i = some (m, f, n, d) → TakesPair s m f w →
    (s.afterAddressPhase m f d).nextAnswer (.read s.devAddr n.toNat) = .reply x →
    ∀ (st : Status) (info : Byte),
      ((∃ e, x = .fail e ∧ st = .eTransport ∧ info = errorCode e) ∨
        (∃ bs, x = .ok bs ∧ bs.length ≠ n.toNat ∧ st = .eLength ∧ info.toNat = min bs.length 255)) →
      ∃ t, exec i s = .next t ∧
        EndedFailed s t st .ok info [.transaction (.write s.devAddr [m, f]) (.reply (.ok w)), .delay d,
          .transaction (.read s.devAddr n.toNat) (.reply x)] ∧
        SameSettings s t ∧ SameHandshake s t ∧ SameRing s t ∧ SameLoop s t ∧ t.dcnt = 0 ∧ SameOutside s t ∧
        t.answers = s.answers.drop 2

/-- 40_core R143: WRREG sends the pair and the byte in one transaction, and writes the status record only. That the
events of `EVT` stay as they were is the model's inference from 10_state R30 (log 15). -/
def Obligations.WrregWritesOneByte : Prop :=
  ∀ (m f b : Byte) (s : State) (w : List Byte), s.nextAnswer (.write s.devAddr [m, f, b]) = .reply (.ok w) →
    ∃ t, exec (.wrreg m f b) s = .next t ∧ WriteEffect s t w [m, f, b]

/-- 40_core R145: WR sends the pair and the whole payload in one transaction, also when the payload is empty. That the
events of `EVT` stay as they were is the model's inference from 10_state R30 (log 15). -/
def Obligations.WrWritesThePayload : Prop :=
  ∀ (m f : Byte) (ws : List Byte) (s : State) (w : List Byte),
    s.nextAnswer (.write s.devAddr (m :: f :: ws)) = .reply (.ok w) →
    ∃ t, exec (.wr m f ws) s = .next t ∧ WriteEffect s t w (m :: f :: ws)

/-- 41_key R176: KEYINT writes the one payload to the enable register when `en` is 1, to the clear register when 0.
That the events of `EVT` stay as they were is the model's inference from 10_state R30 (log 15). -/
def Obligations.KeyintWritesOneOfTwoRegisters : Prop :=
  ∀ (en : Bool) (s : State) (w ws : List Byte),
    (en = true → ws = s.cfg.keyModule :: s.cfg.keyFnIntenset :: s.cfg.keyIntPayload) →
    (en = false → ws = s.cfg.keyModule :: s.cfg.keyFnIntenclr :: s.cfg.keyIntPayload) →
    s.nextAnswer (.write s.devAddr ws) = .reply (.ok w) →
    ∃ t, exec (.keyint en) s = .next t ∧ WriteEffect s t w ws

/-- 41_key R177, 30_encoding R107, R108: KEYCFG sends `[key, state]`, the state byte being the mask above the enable
flag. This order of the payload and the meaning of the mask bits are choices that the spec takes from general
knowledge (log 18). That the events of `EVT` stay as they were is the model's inference from 10_state R30 (log 15). -/
def Obligations.KeycfgWritesKeyAndState : Prop :=
  ∀ (key : Byte) (emask : BitVec 4) (en : Bool) (s : State) (w : List Byte) (state : Byte),
    state.toNat = 2 * emask.toNat + en.toNat →
    s.nextAnswer (.write s.devAddr [s.cfg.keyModule, s.cfg.keyFnEvent, key, state]) = .reply (.ok w) →
    ∃ t, exec (.keycfg key emask en) s = .next t ∧
      WriteEffect s t w [s.cfg.keyModule, s.cfg.keyFnEvent, key, state]

/-- 40_core R141, 60_exceptions R222: when the transaction of WRREG, WR, KEYINT or KEYCFG fails, the command ends
`E_TRANSPORT` with the transport's code. -/
def Obligations.WriteFailsWithTheTransportCode : Prop :=
  ∀ (i : Instr) (s : State) (ws : List Byte) (e : TransportError), writeForm s i = some ws →
    s.nextAnswer (.write s.devAddr ws) = .reply (.fail e) →
    ∃ t, exec i s = .next t ∧
      EndedFailed s t .eTransport .ok (errorCode e) [.transaction (.write s.devAddr ws) (.reply (.fail e))] ∧
      SameSettings s t ∧ SameHandshake s t ∧ SameRing s t ∧ SameLoop s t ∧ t.dcnt = s.dcnt ∧ SameOutside s t ∧
      t.answers = s.answers.drop 1

/-! ### RST -/

/-- 40_core R146, R147: RST whose polls fail in any way `fs`, fewer than `N_ID_TRY` times, and then read a known
identity `b`: every event in order (a pause between two polls, none after the last), and the state it leaves, which
shows no events (10_state R30, log 15). The script of answers is the model's (log 2); free answers are reached through
CommandIsDeterminedByItsAnswers. -/
def Obligations.RstEndsAtTheFirstKnownIdentity : Prop :=
  ∀ (s : State) (w0 w : List Byte) (fs : List FailedPoll) (b : Byte) (rest : List Answer),
    fs.length < s.cfg.nIdTry → (∀ x ∈ fs, x.possible s.cfg) → b = s.cfg.knownIdA ∨ b = s.cfg.knownIdB →
    s.answers = .reply (.ok w0) :: fs.flatMap FailedPoll.answers ++ .reply (.ok w) :: .reply (.ok [b]) :: rest →
    ∃ t, exec .rst s = .next t ∧ t.hs = .ready ∧ t.hwId = b ∧ t.r.toNat = b.toNat ∧ t.blen = 1 ∧ t.bufByte 0 = b ∧
      EndedOk s t (resetEvents s w0 ++ [.delay s.cfg.tIdRetry].intercalate (fs.map (FailedPoll.events s) ++
        [readEvents s.devAddr s.cfg.idModule s.cfg.idFunction 1 s.stdDelay w [b]])) ∧
      SameSettings s t ∧ SameRing s t ∧ SameOutside s t ∧ t.answers = rest ∧ ∀ k, t.evt k = none

/-- 40_core R148 (b), 60_exceptions R224: RST whose `N_ID_TRY` polls all fail: `HS` is `Failed`, `HW_ID` stays, and
`E_HANDSHAKE` carries the outcome of the last poll. The script of answers is the model's (log 2); free answers are
reached through CommandIsDeterminedByItsAnswers. -/
def Obligations.RstFailsWhenItsPollsAreSpent : Prop :=
  ∀ (s : State) (w0 : List Byte) (fs : List FailedPoll) (x : FailedPoll) (rest : List Answer),
    fs.length + 1 = s.cfg.nIdTry → (∀ y ∈ fs ++ [x], y.possible s.cfg) →
    s.answers = .reply (.ok w0) :: (fs ++ [x]).flatMap FailedPoll.answers ++ rest →
    ∃ t, exec .rst s = .next t ∧ t.hs = .failed ∧ t.hwId = s.hwId ∧
      EndedFailed s t .eHandshake x.outcome.1 x.outcome.2
        (resetEvents s w0 ++ [.delay s.cfg.tIdRetry].intercalate ((fs ++ [x]).map (FailedPoll.events s))) ∧
      SameSettings s t ∧ SameRing s t ∧ SameOutside s t ∧ t.answers = rest

/-- 40_core R148 (a): when the reset write fails, RST ends at once with `E_TRANSPORT`, without a delay or a poll, and
`HS` is `Failed`. That `ATT` is then 1 is the model's choice: the value it gives `ATT` at the start of RST (log 31),
kept after the command (log 8). -/
def Obligations.RstFailsAtItsResetWrite : Prop :=
  ∀ (s : State) (e : TransportError) (ws : List Byte),
    ws = s.cfg.rstModule :: s.cfg.rstFunction :: s.cfg.rstPayload →
    s.nextAnswer (.write s.devAddr ws) = .reply (.fail e) →
    ∃ t, exec .rst s = .next t ∧ t.hs = .failed ∧ t.hwId = s.hwId ∧
      EndedFailed s t .eTransport .ok (errorCode e) [.transaction (.write s.devAddr ws) (.reply (.fail e))] ∧
      SameSettings s t ∧ SameRing s t ∧ t.att = 1 ∧ SameOutside s t ∧ t.answers = s.answers.drop 1

/-- 40_core R147, R148, R149: from every state, `Ready` included, an RST the transport answers ends either verified,
with a known identity in `HW_ID`, `R` and `BUF[0]`, or failed, with `HW_ID` as it was; there is no third end. -/
def Obligations.RstEndsVerifiedOrFailed : Prop :=
  ∀ s : State, (∀ a ∈ s.answers, a ≠ .silent) →
    ∃ t, exec .rst s = .next t ∧ t.seq = .idle ∧
      ((t.hs = .ready ∧ t.st = .ok ∧ (t.hwId = s.cfg.knownIdA ∨ t.hwId = s.cfg.knownIdB) ∧
          t.r.toNat = t.hwId.toNat ∧ t.blen = 1 ∧ t.bufByte 0 = t.hwId) ∨
        (t.hs = .failed ∧ t.hwId = s.hwId ∧ t.blen = 0 ∧ (t.st = .eTransport ∨ t.st = .eHandshake)))

/-- 70_reset R263: the RST command is no reset of the block: however it goes, `DEV_ADDR`, `STD_DELAY`, `RING` and `CUR`
stay as they are, and `HW_ID` changes on success only. -/
def Obligations.RstIsNoResetOfTheBlock : Prop :=
  ∀ s t : State, exec .rst s = .next t → SameSettings s t ∧ SameRing s t ∧
    (t.hwId ≠ s.hwId → t.hs = .ready ∧ t.st = .ok)

/-! ### Key events -/

/-- 41_key R171: the formula of `KeyEnc`, and the round trip in both directions. -/
def Obligations.KeyEncAndKeyDecAreInverse : Prop :=
  (∀ e : KeyEvent, (keyEnc e).toNat = 4 * e.key.toNat + e.edge.number.toNat ∧ keyDec (keyEnc e) = e) ∧
    ∀ b : Byte, keyEnc (keyDec b) = b

/-- 41_key R170, 30_encoding R105, R106: `KeyDec` takes the edge from bits 1:0 and the key from bits 7:2, and every pair
is the image of exactly one byte. The numbers of the four edges are choices that the spec takes from general knowledge
(log 18). -/
def Obligations.KeyDecSplitsEveryByte : Prop :=
  (∀ b : Byte, (keyDec b).edge.number = b.extractLsb' 0 2 ∧ (keyDec b).key = b.extractLsb' 2 6) ∧
    (∀ e : KeyEvent, ∃ b, keyDec b = e ∧ ∀ b', keyDec b' = e → b' = b) ∧
    Edge.high.number = 0 ∧ Edge.low.number = 1 ∧ Edge.falling.number = 2 ∧ Edge.rising.number = 3

/-- 41_key R172: KEYDEC leaves the key in bits 15:8 of `R` and the edge in bits 7:0, and touches nothing else. That
the bytes in `BUF` stay events if they were is the model's inference from 10_state R30 (log 15). -/
def Obligations.KeydecDecodesIntoR : Prop :=
  ∀ (b : Byte) (s : State), ∃ t, exec (.keydec b) s = .next t ∧ t.r.toNat = 256 * (b.toNat / 4) + b.toNat % 4 ∧
    EndedOk s t [] ∧ SameButResult s t ∧ t.draws = s.draws

/-- 41_key R173: KEYENC leaves the wire byte in `R`, and touches nothing else. That the bytes in `BUF` stay events if
they were is the model's inference from 10_state R30 (log 15). -/
def Obligations.KeyencEncodesIntoR : Prop :=
  ∀ (key : BitVec 6) (edge : Edge) (s : State), ∃ t, exec (.keyenc key edge) s = .next t ∧
    t.r.toNat = 4 * key.toNat + edge.number.toNat ∧ EndedOk s t [] ∧ SameButResult s t ∧ t.draws = s.draws

/-! ### Moisture -/

/-- 42_moisture R192, R193: MPUSH stores a non-zero sample at the cursor and moves the cursor on, modulo `RING_CAP`; a
zero sample changes neither; nothing else is touched. That the events of `EVT` stay as they were is the model's
inference from 10_state R30 (log 15). -/
def Obligations.MpushStoresAtTheCursor : Prop :=
  ∀ (v : Half) (s : State), ∃ t, exec (.mpush v) s = .next t ∧ EndedOk s t [] ∧ t.r = s.r ∧ SameBuf s t ∧
    SameSettings s t ∧ SameHandshake s t ∧ SameLoop s t ∧ t.dcnt = s.dcnt ∧ SameOutside s t ∧
    t.answers = s.answers ∧ t.draws = s.draws ∧
    (v = 0 → SameRing s t) ∧
    (v ≠ 0 → t.ring.read s.cur = v ∧ (∀ k, k ≠ s.cur → t.ring.read k = s.ring.read k) ∧
      t.cur = (s.cur + 1) % s.cfg.ringCap)

/-- 42_moisture R191, R195: `Avg` is 0 when there is no non-zero slot; else the exact sum of the non-zero slots divided
by their count, fraction discarded, which fits 16 bits; it depends on the multiset of the slots only. -/
def Obligations.AverageIsTheExactMean : Prop :=
  (∀ (cap : Nat) (g : Ring), ((List.range cap).filter fun k => g.read k ≠ 0) = [] → Ring.average cap g = 0) ∧
    (∀ (cap : Nat) (g : Ring) (ks : List Nat), ks = ((List.range cap).filter fun k => g.read k ≠ 0) → ks ≠ [] →
      (Ring.average cap g).toNat = (ks.map fun k => (g.read k).toNat).sum / ks.length) ∧
    ∀ (cap : Nat) (g g' : Ring), ((List.range cap).map g.read).Perm ((List.range cap).map g'.read) →
      Ring.average cap g = Ring.average cap g'

/-- 42_moisture R194: MAVG returns the filtered value in `R`, without bus traffic, and touches nothing else. That the
bytes in `BUF` stay events if they were is the model's inference from 10_state R30 (log 15). -/
def Obligations.MavgReturnsTheMean : Prop :=
  ∀ s : State, ∃ t, exec .mavg s = .next t ∧ t.r.toNat = (Ring.average s.cfg.ringCap s.ring).toNat ∧
    EndedOk s t [] ∧ SameButResult s t ∧ t.draws = s.draws

/-- 42_moisture R190: pushed into an empty ring, samples are kept in a window: the ring holds the last `RING_CAP`
non-zero ones, or all of them while there are fewer. -/
def Obligations.RingHoldsTheLastSamples : Prop :=
  ∀ (s : State) (vs : List Half), s.ring = [] → s.cur = 0 →
    (Ring.samples s.cfg.ringCap (vs.foldl (fun t v => t.push v) s).ring).Perm
      ((vs.filter fun v => v ≠ 0).reverse.take s.cfg.ringCap)

/-- 42_moisture R196, R197: MREAD whose attempts fail in any way `fs`, fewer than five times, and then read two bytes:
every event in order, the sample returned also when it is 0, and pushed only when it is not; the end state shows no
events (10_state R30, log 15). The script of answers is the model's (log 2); free answers are reached through
CommandIsDeterminedByItsAnswers. -/
def Obligations.MreadReturnsAndPushesTheSample : Prop :=
  ∀ (s : State) (w : List Byte) (fs : List FailedRead) (hi lo : Byte) (rest : List Answer),
    fs.length < 5 → (∀ x ∈ fs, x.possible 2) →
    s.answers = fs.flatMap FailedRead.answers ++ .reply (.ok w) :: .reply (.ok [hi, lo]) :: rest →
    ∃ t, exec .mread s = .next t ∧ t.r.toNat = 256 * hi.toNat + lo.toNat ∧ t.blen = 2 ∧ t.bufByte 0 = hi ∧
      t.bufByte 1 = lo ∧
      EndedOk s t ([.delay s.cfg.tMoistBackoff].intercalate
        (fs.map (FailedRead.events s.devAddr s.cfg.moistModule s.cfg.moistFunction 2 s.cfg.tMoist) ++
          [readEvents s.devAddr s.cfg.moistModule s.cfg.moistFunction 2 s.cfg.tMoist w [hi, lo]])) ∧
      SameSettings s t ∧ SameHandshake s t ∧ SameOutside s t ∧ t.answers = rest ∧ (∀ k, t.evt k = none) ∧
      (hi = 0 ∧ lo = 0 → SameRing s t) ∧
      (¬(hi = 0 ∧ lo = 0) → (t.ring.read s.cur).toNat = 256 * hi.toNat + lo.toNat ∧
        (∀ k, k ≠ s.cur → t.ring.read k = s.ring.read k) ∧ t.cur = (s.cur + 1) % s.cfg.ringCap)

/-- 42_moisture R196, R197, 60_exceptions R225: MREAD whose five attempts all fail ends `E_RETRY` with the outcome of
the last one, four pauses in all, and the ring untouched. The script of answers is the model's (log 2); free answers
are reached through CommandIsDeterminedByItsAnswers. -/
def Obligations.MreadFailsAfterFiveAttempts : Prop :=
  ∀ (s : State) (fs : List FailedRead) (x : FailedRead) (rest : List Answer),
    fs.length = 4 → (∀ y ∈ fs ++ [x], y.possible 2) →
    s.answers = (fs ++ [x]).flatMap FailedRead.answers ++ rest →
    ∃ t, exec .mread s = .next t ∧
      EndedFailed s t .eRetry x.outcome.1 x.outcome.2 ([.delay s.cfg.tMoistBackoff].intercalate
        ((fs ++ [x]).map (FailedRead.events s.devAddr s.cfg.moistModule s.cfg.moistFunction 2 s.cfg.tMoist))) ∧
      SameSettings s t ∧ SameHandshake s t ∧ SameRing s t ∧ SameOutside s t ∧ t.answers = rest

/-! ### Control and status registers -/

/-- 43_csr R210, R212, 10_state R26, 60_exceptions R221: CSRR returns the value each register had before the command,
zero-extended, and touches nothing else. `CUR` is below 2^16 in every state with the invariant. That the bytes in
`BUF` stay events if they were is the model's inference from 10_state R30 (log 15). -/
def Obligations.CsrrReturnsTheRegister : Prop :=
  let reads : State → Half → Nat → Prop := fun s c v =>
    ∃ t, exec (.csrr c) s = .next t ∧ t.r.toNat = v ∧ EndedOk s t [] ∧ SameButResult s t ∧ t.draws = s.draws
  ∀ s : State,
    reads s 0x0000 s.devAddr.toNat ∧ reads s 0x0001 s.hwId.toNat ∧ reads s 0x0002 s.stdDelay.toNat ∧
    reads s 0x0003 (handshakeNumber s.hs) ∧
    reads s 0x0004 (65536 * statusNumber s.st + 256 * statusNumber s.sub + s.info.toNat) ∧
    reads s 0x0005 s.r.toNat ∧ reads s 0x0006 s.blen.toNat ∧ (s.cur < 65536 → reads s 0x0007 s.cur) ∧
    reads s 0x0008 s.cfg.ringCap ∧
    ∀ k, k < s.cfg.ringCap → reads s (BitVec.ofNat 16 (0x1000 + k)) (s.ring.read k).toNat

/-- 43_csr R210, R212: CSRR returns the byte of `BUF` its number names. Of a byte at or beyond `BLEN` nothing is said
but that the command completes. That the bytes in `BUF` stay events if they were is the model's inference from
10_state R30 (log 15). -/
def Obligations.CsrrReturnsTheBufferByte : Prop :=
  ∀ (s : State) (k : Nat), k < 255 →
    ∃ t, exec (.csrr (BitVec.ofNat 16 (0x0100 + k))) s = .next t ∧ t.r.toNat < 256 ∧
      (k < s.blen.toNat → t.r.toNat = (s.bufByte k).toNat) ∧ EndedOk s t [] ∧ SameButResult s t

/-- 43_csr R211: CSRW writes the low 16 bits to `DEV_ADDR` when the value fits, and the whole value to `STD_DELAY`; it
writes nothing else. That the events of `EVT` stay as they were is the model's inference from 10_state R30
(log 15). -/
def Obligations.CsrwWritesTheTwoSettings : Prop :=
  let wrote : State → State → Prop := fun s t =>
    EndedOk s t [] ∧ t.r = s.r ∧ SameBuf s t ∧ SameHandshake s t ∧ SameRing s t ∧ SameLoop s t ∧ t.dcnt = s.dcnt ∧
      SameOutside s t ∧ t.answers = s.answers ∧ t.draws = s.draws
  ∀ (s : State) (v : Word),
    (v.toNat < 65536 → ∃ t, exec (.csrw 0x0000 v) s = .next t ∧ t.devAddr.toNat = v.toNat ∧
      t.stdDelay = s.stdDelay ∧ wrote s t) ∧
    ∃ t, exec (.csrw 0x0002 v) s = .next t ∧ t.stdDelay = v ∧ t.devAddr = s.devAddr ∧ wrote s t

/-- 43_csr R210, R211, 60_exceptions R232: CSRR and CSRW of a number that is not listed end `E_BADCSR` with `INFO` 0,
also for a value too wide; CSRW of a listed register other than `DEV_ADDR` and `STD_DELAY` ends with `INFO` 1, and of
`DEV_ADDR` with a value above 16 bits with `INFO` 2; nothing is written. -/
def Obligations.BadCsrAccessIsRefused : Prop :=
  let refused : State → State → Nat → Prop := fun s t k =>
    EndedFailed s t .eBadCsr .ok (BitVec.ofNat 8 k) [] ∧ SameSettings s t ∧ SameHandshake s t ∧ SameRing s t ∧
      SameLoop s t ∧ t.dcnt = s.dcnt ∧ SameOutside s t ∧ t.answers = s.answers
  ∀ (s : State) (c : Half) (v : Word),
    (¬listedCsr s.cfg.ringCap c.toNat → (∃ t, exec (.csrr c) s = .next t ∧ refused s t 0) ∧
      ∃ t, exec (.csrw c v) s = .next t ∧ refused s t 0) ∧
    (listedCsr s.cfg.ringCap c.toNat → c ≠ 0x0000 → c ≠ 0x0002 →
      ∃ t, exec (.csrw c v) s = .next t ∧ refused s t 1) ∧
    (65536 ≤ v.toNat → ∃ t, exec (.csrw 0x0000 v) s = .next t ∧ refused s t 2)

/-! ### Key events of other commands, transport codes, and stalls of the two retry loops -/

/-- 10_state R30, 41_key R174: an event that `EVT` shows after a command is the decoded byte of `BUF` below `BLEN`; the
command is a KEYRD that ended `OK`, or the event was there before it. That events stay as long as `BUF` keeps their
bytes is DEDUCED (log 15). The invariant is a premise because `BUF` then holds every byte below `BLEN`. -/
def Obligations.EventsComeFromKeyrdOnly : Prop :=
  ∀ (i : Instr) (s t : State) (k : Nat), Inv s → exec i s = .next t → t.evt k ≠ none →
    k < t.blen.toNat ∧ t.evt k = some (keyDec (t.bufByte k)) ∧
      ((∃ n, i = .keyrd n ∧ t.st = .ok ∧ t.seq = .idle) ∨ t.evt k = s.evt k)

/-- 20_memory R69: the transport's error codes: `TE_NACK` is 0x01, `TE_FAULT` 0x02, the transport's own codes are 0x03 to
0xFF; every byte but 0x00 is one. -/
def Obligations.TransportCodesAreTheSpecs : Prop :=
  errorCode .nack = 0x01 ∧ errorCode .busFault = 0x02 ∧
    (∀ k : Fin 253, (errorCode (.other k)).toNat = 3 + k.val) ∧
    ∀ c : Byte, (∃ e, errorCode e = c) ↔ c ≠ 0x00

/-- 00_scope R15, 20_memory R67, 40_core R146: a transport that never answers the reset write of RST, or, after `fs`
failed polls, the address pair or the data phase of the next one, leaves RST where it waits: `HS` is `Resetting` and no
status is written. The script of answers and the form of the hang are the model's (log 2, log 3). -/
def Obligations.SilentTransportStallsRst : Prop :=
  ∀ s : State,
    (∀ ws, ws = s.cfg.rstModule :: s.cfg.rstFunction :: s.cfg.rstPayload →
      s.nextAnswer (.write s.devAddr ws) = .silent →
      ∃ t, exec .rst s = .next t ∧ t.hs = .resetting ∧ t.hwId = s.hwId ∧ SameSettings s t ∧ SameRing s t ∧
        Stalled s t .write [.transaction (.write s.devAddr ws) .silent]) ∧
    ∀ (w0 : List Byte) (fs : List FailedPoll) (polled : List Event),
      fs.length < s.cfg.nIdTry → (∀ x ∈ fs, x.possible s.cfg) →
      polled = resetEvents s w0 ++ fs.flatMap (fun x => x.events s ++ [.delay s.cfg.tIdRetry]) →
      (∀ rest, s.answers = .reply (.ok w0) :: fs.flatMap FailedPoll.answers ++ .silent :: rest →
        ∃ t, exec .rst s = .next t ∧ t.hs = .resetting ∧ t.hwId = s.hwId ∧ SameSettings s t ∧ SameRing s t ∧
          Stalled s t .addr
            (polled ++ [.transaction (.write s.devAddr [s.cfg.idModule, s.cfg.idFunction]) .silent])) ∧
      ∀ w rest, s.answers = .reply (.ok w0) :: fs.flatMap FailedPoll.answers ++ .reply (.ok w) :: .silent :: rest →
        ∃ t, exec .rst s = .next t ∧ t.hs = .resetting ∧ t.hwId = s.hwId ∧ SameSettings s t ∧ SameRing s t ∧
          Stalled s t .data
            (polled ++ [.transaction (.write s.devAddr [s.cfg.idModule, s.cfg.idFunction]) (.reply (.ok w)),
              .delay s.stdDelay, .transaction (.read s.devAddr 1) .silent])

/-- 00_scope R15, 20_memory R67, 42_moisture R196: a transport that never answers, after `fs` failed attempts of MREAD,
the address pair or the data phase of the next one, leaves MREAD where it waits: no status is written and no sample
pushed. The script of answers and the form of the hang are the model's (log 2, log 3). -/
def Obligations.SilentTransportStallsMread : Prop :=
  ∀ (s : State) (fs : List FailedRead) (tried : List Event), fs.length < 5 → (∀ x ∈ fs, x.possible 2) →
    tried = fs.flatMap (fun x => x.events s.devAddr s.cfg.moistModule s.cfg.moistFunction 2 s.cfg.tMoist ++
      [.delay s.cfg.tMoistBackoff]) →
    (∀ rest, s.answers = fs.flatMap FailedRead.answers ++ .silent :: rest →
      ∃ t, exec .mread s = .next t ∧ SameSettings s t ∧ SameHandshake s t ∧ SameRing s t ∧
        Stalled s t .addr
          (tried ++ [.transaction (.write s.devAddr [s.cfg.moistModule, s.cfg.moistFunction]) .silent])) ∧
    ∀ w rest, s.answers = fs.flatMap FailedRead.answers ++ .reply (.ok w) :: .silent :: rest →
      ∃ t, exec .mread s = .next t ∧ SameSettings s t ∧ SameHandshake s t ∧ SameRing s t ∧
        Stalled s t .data
          (tried ++ [.transaction (.write s.devAddr [s.cfg.moistModule, s.cfg.moistFunction]) (.reply (.ok w)),
            .delay s.cfg.tMoist, .transaction (.read s.devAddr 2) .silent])

/-! ### The registers of the two retry loops -/

/-- 10_state R34, 40_core R146, 42_moisture R196: RST and MREAD set `ATT` and `LAST` at their start, so what the two held
before makes no difference; `ATT` stays between 1 and the budget; the status of a loop whose attempts are spent is
`LAST` as (`SUB`, `INFO`); no other command writes the two. That they keep their values between commands (log 8), and
that `ATT` is 1 already when RST makes its reset write (log 31), are the model's choices. -/
def Obligations.RstAndMreadStartTheirLoopsAfresh : Prop :=
  (∀ (s : State) (n : Nat) (l : Status × Byte), exec .rst { s with att := n, last := l } = exec .rst s ∧
    exec .mread { s with att := n, last := l } = exec .mread s) ∧
  ∀ (i : Instr) (s t : State), exec i s = .next t →
    (i ≠ .rst → i ≠ .mread → SameLoop s t) ∧
    (i = .rst → 1 ≤ t.att ∧ t.att ≤ s.cfg.nIdTry) ∧
    (i = .mread → 1 ≤ t.att ∧ t.att ≤ 5) ∧
    (t.seq = .idle → t.st = .eHandshake ∨ t.st = .eRetry → t.last = (t.sub, t.info))
end

