-- ==== Sys2Proof/Laws/State.lean ====
section
/-!
SUPPORT. One lemma per field for each shared update of the state, so that no later proof unfolds a record update.
-/
namespace Sys2Proof.Machine

/-! ### `State.setR` -/

@[simp] theorem State.setR_cfg (v : Word) (s : State) : (s.setR v).cfg = s.cfg := rfl
@[simp] theorem State.setR_devAddr (v : Word) (s : State) : (s.setR v).devAddr = s.devAddr := rfl
@[simp] theorem State.setR_hwId (v : Word) (s : State) : (s.setR v).hwId = s.hwId := rfl
@[simp] theorem State.setR_stdDelay (v : Word) (s : State) : (s.setR v).stdDelay = s.stdDelay := rfl
@[simp] theorem State.setR_hs (v : Word) (s : State) : (s.setR v).hs = s.hs := rfl
@[simp] theorem State.setR_st (v : Word) (s : State) : (s.setR v).st = s.st := rfl
@[simp] theorem State.setR_sub (v : Word) (s : State) : (s.setR v).sub = s.sub := rfl
@[simp] theorem State.setR_info (v : Word) (s : State) : (s.setR v).info = s.info := rfl
@[simp] theorem State.setR_r (v : Word) (s : State) : (s.setR v).r = v := rfl
@[simp] theorem State.setR_buf (v : Word) (s : State) : (s.setR v).buf = s.buf := rfl
@[simp] theorem State.setR_blen (v : Word) (s : State) : (s.setR v).blen = s.blen := rfl
@[simp] theorem State.setR_ring (v : Word) (s : State) : (s.setR v).ring = s.ring := rfl
@[simp] theorem State.setR_cur (v : Word) (s : State) : (s.setR v).cur = s.cur := rfl
@[simp] theorem State.setR_seq (v : Word) (s : State) : (s.setR v).seq = s.seq := rfl
@[simp] theorem State.setR_att (v : Word) (s : State) : (s.setR v).att = s.att := rfl
@[simp] theorem State.setR_last (v : Word) (s : State) : (s.setR v).last = s.last := rfl
@[simp] theorem State.setR_dcnt (v : Word) (s : State) : (s.setR v).dcnt = s.dcnt := rfl
@[simp] theorem State.setR_response (v : Word) (s : State) : (s.setR v).response = s.response := rfl
@[simp] theorem State.setR_inputs (v : Word) (s : State) : (s.setR v).inputs = s.inputs := rfl
@[simp] theorem State.setR_answers (v : Word) (s : State) : (s.setR v).answers = s.answers := rfl
@[simp] theorem State.setR_trace (v : Word) (s : State) : (s.setR v).trace = s.trace := rfl
@[simp] theorem State.setR_evtValid (v : Word) (s : State) : (s.setR v).evtValid = s.evtValid := rfl
@[simp] theorem State.setR_draws (v : Word) (s : State) : (s.setR v).draws = s.draws := rfl

/-! ### `State.markEvents` -/

@[simp] theorem State.markEvents_cfg (s : State) : (s.markEvents).cfg = s.cfg := rfl
@[simp] theorem State.markEvents_devAddr (s : State) : (s.markEvents).devAddr = s.devAddr := rfl
@[simp] theorem State.markEvents_hwId (s : State) : (s.markEvents).hwId = s.hwId := rfl
@[simp] theorem State.markEvents_stdDelay (s : State) : (s.markEvents).stdDelay = s.stdDelay := rfl
@[simp] theorem State.markEvents_hs (s : State) : (s.markEvents).hs = s.hs := rfl
@[simp] theorem State.markEvents_st (s : State) : (s.markEvents).st = s.st := rfl
@[simp] theorem State.markEvents_sub (s : State) : (s.markEvents).sub = s.sub := rfl
@[simp] theorem State.markEvents_info (s : State) : (s.markEvents).info = s.info := rfl
@[simp] theorem State.markEvents_r (s : State) : (s.markEvents).r = s.r := rfl
@[simp] theorem State.markEvents_buf (s : State) : (s.markEvents).buf = s.buf := rfl
@[simp] theorem State.markEvents_blen (s : State) : (s.markEvents).blen = s.blen := rfl
@[simp] theorem State.markEvents_ring (s : State) : (s.markEvents).ring = s.ring := rfl
@[simp] theorem State.markEvents_cur (s : State) : (s.markEvents).cur = s.cur := rfl
@[simp] theorem State.markEvents_seq (s : State) : (s.markEvents).seq = s.seq := rfl
@[simp] theorem State.markEvents_att (s : State) : (s.markEvents).att = s.att := rfl
@[simp] theorem State.markEvents_last (s : State) : (s.markEvents).last = s.last := rfl
@[simp] theorem State.markEvents_dcnt (s : State) : (s.markEvents).dcnt = s.dcnt := rfl
@[simp] theorem State.markEvents_response (s : State) : (s.markEvents).response = s.response := rfl
@[simp] theorem State.markEvents_inputs (s : State) : (s.markEvents).inputs = s.inputs := rfl
@[simp] theorem State.markEvents_answers (s : State) : (s.markEvents).answers = s.answers := rfl
@[simp] theorem State.markEvents_trace (s : State) : (s.markEvents).trace = s.trace := rfl
@[simp] theorem State.markEvents_evtValid (s : State) : (s.markEvents).evtValid = true := rfl
@[simp] theorem State.markEvents_draws (s : State) : (s.markEvents).draws = s.draws := rfl

/-! ### `State.setHs` -/

@[simp] theorem State.setHs_cfg (h : Handshake) (s : State) : (s.setHs h).cfg = s.cfg := rfl
@[simp] theorem State.setHs_devAddr (h : Handshake) (s : State) : (s.setHs h).devAddr = s.devAddr := rfl
@[simp] theorem State.setHs_hwId (h : Handshake) (s : State) : (s.setHs h).hwId = s.hwId := rfl
@[simp] theorem State.setHs_stdDelay (h : Handshake) (s : State) : (s.setHs h).stdDelay = s.stdDelay := rfl
@[simp] theorem State.setHs_hs (h : Handshake) (s : State) : (s.setHs h).hs = h := rfl
@[simp] theorem State.setHs_st (h : Handshake) (s : State) : (s.setHs h).st = s.st := rfl
@[simp] theorem State.setHs_sub (h : Handshake) (s : State) : (s.setHs h).sub = s.sub := rfl
@[simp] theorem State.setHs_info (h : Handshake) (s : State) : (s.setHs h).info = s.info := rfl
@[simp] theorem State.setHs_r (h : Handshake) (s : State) : (s.setHs h).r = s.r := rfl
@[simp] theorem State.setHs_buf (h : Handshake) (s : State) : (s.setHs h).buf = s.buf := rfl
@[simp] theorem State.setHs_blen (h : Handshake) (s : State) : (s.setHs h).blen = s.blen := rfl
@[simp] theorem State.setHs_ring (h : Handshake) (s : State) : (s.setHs h).ring = s.ring := rfl
@[simp] theorem State.setHs_cur (h : Handshake) (s : State) : (s.setHs h).cur = s.cur := rfl
@[simp] theorem State.setHs_seq (h : Handshake) (s : State) : (s.setHs h).seq = s.seq := rfl
@[simp] theorem State.setHs_att (h : Handshake) (s : State) : (s.setHs h).att = s.att := rfl
@[simp] theorem State.setHs_last (h : Handshake) (s : State) : (s.setHs h).last = s.last := rfl
@[simp] theorem State.setHs_dcnt (h : Handshake) (s : State) : (s.setHs h).dcnt = s.dcnt := rfl
@[simp] theorem State.setHs_response (h : Handshake) (s : State) : (s.setHs h).response = s.response := rfl
@[simp] theorem State.setHs_inputs (h : Handshake) (s : State) : (s.setHs h).inputs = s.inputs := rfl
@[simp] theorem State.setHs_answers (h : Handshake) (s : State) : (s.setHs h).answers = s.answers := rfl
@[simp] theorem State.setHs_trace (h : Handshake) (s : State) : (s.setHs h).trace = s.trace := rfl
@[simp] theorem State.setHs_evtValid (h : Handshake) (s : State) : (s.setHs h).evtValid = s.evtValid := rfl
@[simp] theorem State.setHs_draws (h : Handshake) (s : State) : (s.setHs h).draws = s.draws := rfl

/-! ### `State.setHwId` -/

@[simp] theorem State.setHwId_cfg (b : Byte) (s : State) : (s.setHwId b).cfg = s.cfg := rfl
@[simp] theorem State.setHwId_devAddr (b : Byte) (s : State) : (s.setHwId b).devAddr = s.devAddr := rfl
@[simp] theorem State.setHwId_hwId (b : Byte) (s : State) : (s.setHwId b).hwId = b := rfl
@[simp] theorem State.setHwId_stdDelay (b : Byte) (s : State) : (s.setHwId b).stdDelay = s.stdDelay := rfl
@[simp] theorem State.setHwId_hs (b : Byte) (s : State) : (s.setHwId b).hs = s.hs := rfl
@[simp] theorem State.setHwId_st (b : Byte) (s : State) : (s.setHwId b).st = s.st := rfl
@[simp] theorem State.setHwId_sub (b : Byte) (s : State) : (s.setHwId b).sub = s.sub := rfl
@[simp] theorem State.setHwId_info (b : Byte) (s : State) : (s.setHwId b).info = s.info := rfl
@[simp] theorem State.setHwId_r (b : Byte) (s : State) : (s.setHwId b).r = s.r := rfl
@[simp] theorem State.setHwId_buf (b : Byte) (s : State) : (s.setHwId b).buf = s.buf := rfl
@[simp] theorem State.setHwId_blen (b : Byte) (s : State) : (s.setHwId b).blen = s.blen := rfl
@[simp] theorem State.setHwId_ring (b : Byte) (s : State) : (s.setHwId b).ring = s.ring := rfl
@[simp] theorem State.setHwId_cur (b : Byte) (s : State) : (s.setHwId b).cur = s.cur := rfl
@[simp] theorem State.setHwId_seq (b : Byte) (s : State) : (s.setHwId b).seq = s.seq := rfl
@[simp] theorem State.setHwId_att (b : Byte) (s : State) : (s.setHwId b).att = s.att := rfl
@[simp] theorem State.setHwId_last (b : Byte) (s : State) : (s.setHwId b).last = s.last := rfl
@[simp] theorem State.setHwId_dcnt (b : Byte) (s : State) : (s.setHwId b).dcnt = s.dcnt := rfl
@[simp] theorem State.setHwId_response (b : Byte) (s : State) : (s.setHwId b).response = s.response := rfl
@[simp] theorem State.setHwId_inputs (b : Byte) (s : State) : (s.setHwId b).inputs = s.inputs := rfl
@[simp] theorem State.setHwId_answers (b : Byte) (s : State) : (s.setHwId b).answers = s.answers := rfl
@[simp] theorem State.setHwId_trace (b : Byte) (s : State) : (s.setHwId b).trace = s.trace := rfl
@[simp] theorem State.setHwId_evtValid (b : Byte) (s : State) : (s.setHwId b).evtValid = s.evtValid := rfl
@[simp] theorem State.setHwId_draws (b : Byte) (s : State) : (s.setHwId b).draws = s.draws := rfl

/-! ### `State.setAtt` -/

@[simp] theorem State.setAtt_cfg (n : Nat) (s : State) : (s.setAtt n).cfg = s.cfg := rfl
@[simp] theorem State.setAtt_devAddr (n : Nat) (s : State) : (s.setAtt n).devAddr = s.devAddr := rfl
@[simp] theorem State.setAtt_hwId (n : Nat) (s : State) : (s.setAtt n).hwId = s.hwId := rfl
@[simp] theorem State.setAtt_stdDelay (n : Nat) (s : State) : (s.setAtt n).stdDelay = s.stdDelay := rfl
@[simp] theorem State.setAtt_hs (n : Nat) (s : State) : (s.setAtt n).hs = s.hs := rfl
@[simp] theorem State.setAtt_st (n : Nat) (s : State) : (s.setAtt n).st = s.st := rfl
@[simp] theorem State.setAtt_sub (n : Nat) (s : State) : (s.setAtt n).sub = s.sub := rfl
@[simp] theorem State.setAtt_info (n : Nat) (s : State) : (s.setAtt n).info = s.info := rfl
@[simp] theorem State.setAtt_r (n : Nat) (s : State) : (s.setAtt n).r = s.r := rfl
@[simp] theorem State.setAtt_buf (n : Nat) (s : State) : (s.setAtt n).buf = s.buf := rfl
@[simp] theorem State.setAtt_blen (n : Nat) (s : State) : (s.setAtt n).blen = s.blen := rfl
@[simp] theorem State.setAtt_ring (n : Nat) (s : State) : (s.setAtt n).ring = s.ring := rfl
@[simp] theorem State.setAtt_cur (n : Nat) (s : State) : (s.setAtt n).cur = s.cur := rfl
@[simp] theorem State.setAtt_seq (n : Nat) (s : State) : (s.setAtt n).seq = s.seq := rfl
@[simp] theorem State.setAtt_att (n : Nat) (s : State) : (s.setAtt n).att = n := rfl
@[simp] theorem State.setAtt_last (n : Nat) (s : State) : (s.setAtt n).last = s.last := rfl
@[simp] theorem State.setAtt_dcnt (n : Nat) (s : State) : (s.setAtt n).dcnt = s.dcnt := rfl
@[simp] theorem State.setAtt_response (n : Nat) (s : State) : (s.setAtt n).response = s.response := rfl
@[simp] theorem State.setAtt_inputs (n : Nat) (s : State) : (s.setAtt n).inputs = s.inputs := rfl
@[simp] theorem State.setAtt_answers (n : Nat) (s : State) : (s.setAtt n).answers = s.answers := rfl
@[simp] theorem State.setAtt_trace (n : Nat) (s : State) : (s.setAtt n).trace = s.trace := rfl
@[simp] theorem State.setAtt_evtValid (n : Nat) (s : State) : (s.setAtt n).evtValid = s.evtValid := rfl
@[simp] theorem State.setAtt_draws (n : Nat) (s : State) : (s.setAtt n).draws = s.draws := rfl

/-! ### `State.setLast` -/

@[simp] theorem State.setLast_cfg (l : Status × Byte) (s : State) : (s.setLast l).cfg = s.cfg := rfl
@[simp] theorem State.setLast_devAddr (l : Status × Byte) (s : State) : (s.setLast l).devAddr = s.devAddr := rfl
@[simp] theorem State.setLast_hwId (l : Status × Byte) (s : State) : (s.setLast l).hwId = s.hwId := rfl
@[simp] theorem State.setLast_stdDelay (l : Status × Byte) (s : State) : (s.setLast l).stdDelay = s.stdDelay := rfl
@[simp] theorem State.setLast_hs (l : Status × Byte) (s : State) : (s.setLast l).hs = s.hs := rfl
@[simp] theorem State.setLast_st (l : Status × Byte) (s : State) : (s.setLast l).st = s.st := rfl
@[simp] theorem State.setLast_sub (l : Status × Byte) (s : State) : (s.setLast l).sub = s.sub := rfl
@[simp] theorem State.setLast_info (l : Status × Byte) (s : State) : (s.setLast l).info = s.info := rfl
@[simp] theorem State.setLast_r (l : Status × Byte) (s : State) : (s.setLast l).r = s.r := rfl
@[simp] theorem State.setLast_buf (l : Status × Byte) (s : State) : (s.setLast l).buf = s.buf := rfl
@[simp] theorem State.setLast_blen (l : Status × Byte) (s : State) : (s.setLast l).blen = s.blen := rfl
@[simp] theorem State.setLast_ring (l : Status × Byte) (s : State) : (s.setLast l).ring = s.ring := rfl
@[simp] theorem State.setLast_cur (l : Status × Byte) (s : State) : (s.setLast l).cur = s.cur := rfl
@[simp] theorem State.setLast_seq (l : Status × Byte) (s : State) : (s.setLast l).seq = s.seq := rfl
@[simp] theorem State.setLast_att (l : Status × Byte) (s : State) : (s.setLast l).att = s.att := rfl
@[simp] theorem State.setLast_last (l : Status × Byte) (s : State) : (s.setLast l).last = l := rfl
@[simp] theorem State.setLast_dcnt (l : Status × Byte) (s : State) : (s.setLast l).dcnt = s.dcnt := rfl
@[simp] theorem State.setLast_response (l : Status × Byte) (s : State) : (s.setLast l).response = s.response := rfl
@[simp] theorem State.setLast_inputs (l : Status × Byte) (s : State) : (s.setLast l).inputs = s.inputs := rfl
@[simp] theorem State.setLast_answers (l : Status × Byte) (s : State) : (s.setLast l).answers = s.answers := rfl
@[simp] theorem State.setLast_trace (l : Status × Byte) (s : State) : (s.setLast l).trace = s.trace := rfl
@[simp] theorem State.setLast_evtValid (l : Status × Byte) (s : State) : (s.setLast l).evtValid = s.evtValid := rfl
@[simp] theorem State.setLast_draws (l : Status × Byte) (s : State) : (s.setLast l).draws = s.draws := rfl

/-! ### `State.countDraw` -/

@[simp] theorem State.countDraw_cfg (s : State) : (s.countDraw).cfg = s.cfg := rfl
@[simp] theorem State.countDraw_devAddr (s : State) : (s.countDraw).devAddr = s.devAddr := rfl
@[simp] theorem State.countDraw_hwId (s : State) : (s.countDraw).hwId = s.hwId := rfl
@[simp] theorem State.countDraw_stdDelay (s : State) : (s.countDraw).stdDelay = s.stdDelay := rfl
@[simp] theorem State.countDraw_hs (s : State) : (s.countDraw).hs = s.hs := rfl
@[simp] theorem State.countDraw_st (s : State) : (s.countDraw).st = s.st := rfl
@[simp] theorem State.countDraw_sub (s : State) : (s.countDraw).sub = s.sub := rfl
@[simp] theorem State.countDraw_info (s : State) : (s.countDraw).info = s.info := rfl
@[simp] theorem State.countDraw_r (s : State) : (s.countDraw).r = s.r := rfl
@[simp] theorem State.countDraw_buf (s : State) : (s.countDraw).buf = s.buf := rfl
@[simp] theorem State.countDraw_blen (s : State) : (s.countDraw).blen = s.blen := rfl
@[simp] theorem State.countDraw_ring (s : State) : (s.countDraw).ring = s.ring := rfl
@[simp] theorem State.countDraw_cur (s : State) : (s.countDraw).cur = s.cur := rfl
@[simp] theorem State.countDraw_seq (s : State) : (s.countDraw).seq = s.seq := rfl
@[simp] theorem State.countDraw_att (s : State) : (s.countDraw).att = s.att := rfl
@[simp] theorem State.countDraw_last (s : State) : (s.countDraw).last = s.last := rfl
@[simp] theorem State.countDraw_dcnt (s : State) : (s.countDraw).dcnt = s.dcnt := rfl
@[simp] theorem State.countDraw_response (s : State) : (s.countDraw).response = s.response := rfl
@[simp] theorem State.countDraw_inputs (s : State) : (s.countDraw).inputs = s.inputs := rfl
@[simp] theorem State.countDraw_answers (s : State) : (s.countDraw).answers = s.answers := rfl
@[simp] theorem State.countDraw_trace (s : State) : (s.countDraw).trace = s.trace := rfl
@[simp] theorem State.countDraw_evtValid (s : State) : (s.countDraw).evtValid = s.evtValid := rfl
@[simp] theorem State.countDraw_draws (s : State) : (s.countDraw).draws = s.draws + 1 := rfl

/-! ### `State.startLoop` -/

@[simp] theorem State.startLoop_cfg (s : State) : s.startLoop.cfg = s.cfg := rfl
@[simp] theorem State.startLoop_devAddr (s : State) : s.startLoop.devAddr = s.devAddr := rfl
@[simp] theorem State.startLoop_hwId (s : State) : s.startLoop.hwId = s.hwId := rfl
@[simp] theorem State.startLoop_stdDelay (s : State) : s.startLoop.stdDelay = s.stdDelay := rfl
@[simp] theorem State.startLoop_hs (s : State) : s.startLoop.hs = s.hs := rfl
@[simp] theorem State.startLoop_st (s : State) : s.startLoop.st = s.st := rfl
@[simp] theorem State.startLoop_sub (s : State) : s.startLoop.sub = s.sub := rfl
@[simp] theorem State.startLoop_info (s : State) : s.startLoop.info = s.info := rfl
@[simp] theorem State.startLoop_r (s : State) : s.startLoop.r = s.r := rfl
@[simp] theorem State.startLoop_buf (s : State) : s.startLoop.buf = s.buf := rfl
@[simp] theorem State.startLoop_blen (s : State) : s.startLoop.blen = s.blen := rfl
@[simp] theorem State.startLoop_ring (s : State) : s.startLoop.ring = s.ring := rfl
@[simp] theorem State.startLoop_cur (s : State) : s.startLoop.cur = s.cur := rfl
@[simp] theorem State.startLoop_seq (s : State) : s.startLoop.seq = s.seq := rfl
@[simp] theorem State.startLoop_att (s : State) : s.startLoop.att = 1 := rfl
@[simp] theorem State.startLoop_last (s : State) : s.startLoop.last = Config.freeLast s.draws := rfl
@[simp] theorem State.startLoop_dcnt (s : State) : s.startLoop.dcnt = s.dcnt := rfl
@[simp] theorem State.startLoop_response (s : State) : s.startLoop.response = s.response := rfl
@[simp] theorem State.startLoop_inputs (s : State) : s.startLoop.inputs = s.inputs := rfl
@[simp] theorem State.startLoop_answers (s : State) : s.startLoop.answers = s.answers := rfl
@[simp] theorem State.startLoop_trace (s : State) : s.startLoop.trace = s.trace := rfl
@[simp] theorem State.startLoop_evtValid (s : State) : s.startLoop.evtValid = s.evtValid := rfl
@[simp] theorem State.startLoop_draws (s : State) : s.startLoop.draws = s.draws + 1 := rfl

/-! ### `State.enter` -/

@[simp] theorem State.enter_cfg (p : Phase) (s : State) : (s.enter p).cfg = s.cfg := rfl
@[simp] theorem State.enter_devAddr (p : Phase) (s : State) : (s.enter p).devAddr = s.devAddr := rfl
@[simp] theorem State.enter_hwId (p : Phase) (s : State) : (s.enter p).hwId = s.hwId := rfl
@[simp] theorem State.enter_stdDelay (p : Phase) (s : State) : (s.enter p).stdDelay = s.stdDelay := rfl
@[simp] theorem State.enter_hs (p : Phase) (s : State) : (s.enter p).hs = s.hs := rfl
@[simp] theorem State.enter_st (p : Phase) (s : State) : (s.enter p).st = s.st := rfl
@[simp] theorem State.enter_sub (p : Phase) (s : State) : (s.enter p).sub = s.sub := rfl
@[simp] theorem State.enter_info (p : Phase) (s : State) : (s.enter p).info = s.info := rfl
@[simp] theorem State.enter_r (p : Phase) (s : State) : (s.enter p).r = s.r := rfl
@[simp] theorem State.enter_buf (p : Phase) (s : State) : (s.enter p).buf = s.buf := rfl
@[simp] theorem State.enter_blen (p : Phase) (s : State) : (s.enter p).blen = s.blen := rfl
@[simp] theorem State.enter_ring (p : Phase) (s : State) : (s.enter p).ring = s.ring := rfl
@[simp] theorem State.enter_cur (p : Phase) (s : State) : (s.enter p).cur = s.cur := rfl
@[simp] theorem State.enter_seq (p : Phase) (s : State) : (s.enter p).seq = p := rfl
@[simp] theorem State.enter_att (p : Phase) (s : State) : (s.enter p).att = s.att := rfl
@[simp] theorem State.enter_last (p : Phase) (s : State) : (s.enter p).last = s.last := rfl
@[simp] theorem State.enter_dcnt (p : Phase) (s : State) : (s.enter p).dcnt = s.dcnt := rfl
@[simp] theorem State.enter_response (p : Phase) (s : State) : (s.enter p).response = s.response := rfl
@[simp] theorem State.enter_inputs (p : Phase) (s : State) : (s.enter p).inputs = s.inputs := rfl
@[simp] theorem State.enter_answers (p : Phase) (s : State) : (s.enter p).answers = s.answers := rfl
@[simp] theorem State.enter_trace (p : Phase) (s : State) : (s.enter p).trace = s.trace := rfl
@[simp] theorem State.enter_evtValid (p : Phase) (s : State) : (s.enter p).evtValid = s.evtValid := rfl
@[simp] theorem State.enter_draws (p : Phase) (s : State) : (s.enter p).draws = s.draws := rfl

/-! ### `State.record` -/

@[simp] theorem State.record_cfg (e : Event) (s : State) : (s.record e).cfg = s.cfg := rfl
@[simp] theorem State.record_devAddr (e : Event) (s : State) : (s.record e).devAddr = s.devAddr := rfl
@[simp] theorem State.record_hwId (e : Event) (s : State) : (s.record e).hwId = s.hwId := rfl
@[simp] theorem State.record_stdDelay (e : Event) (s : State) : (s.record e).stdDelay = s.stdDelay := rfl
@[simp] theorem State.record_hs (e : Event) (s : State) : (s.record e).hs = s.hs := rfl
@[simp] theorem State.record_st (e : Event) (s : State) : (s.record e).st = s.st := rfl
@[simp] theorem State.record_sub (e : Event) (s : State) : (s.record e).sub = s.sub := rfl
@[simp] theorem State.record_info (e : Event) (s : State) : (s.record e).info = s.info := rfl
@[simp] theorem State.record_r (e : Event) (s : State) : (s.record e).r = s.r := rfl
@[simp] theorem State.record_buf (e : Event) (s : State) : (s.record e).buf = s.buf := rfl
@[simp] theorem State.record_blen (e : Event) (s : State) : (s.record e).blen = s.blen := rfl
@[simp] theorem State.record_ring (e : Event) (s : State) : (s.record e).ring = s.ring := rfl
@[simp] theorem State.record_cur (e : Event) (s : State) : (s.record e).cur = s.cur := rfl
@[simp] theorem State.record_seq (e : Event) (s : State) : (s.record e).seq = s.seq := rfl
@[simp] theorem State.record_att (e : Event) (s : State) : (s.record e).att = s.att := rfl
@[simp] theorem State.record_last (e : Event) (s : State) : (s.record e).last = s.last := rfl
@[simp] theorem State.record_dcnt (e : Event) (s : State) : (s.record e).dcnt = s.dcnt := rfl
@[simp] theorem State.record_response (e : Event) (s : State) : (s.record e).response = s.response := rfl
@[simp] theorem State.record_inputs (e : Event) (s : State) : (s.record e).inputs = s.inputs := rfl
@[simp] theorem State.record_answers (e : Event) (s : State) : (s.record e).answers = s.answers := rfl
@[simp] theorem State.record_trace (e : Event) (s : State) : (s.record e).trace = s.trace ++ [e] := rfl
@[simp] theorem State.record_evtValid (e : Event) (s : State) : (s.record e).evtValid = s.evtValid := rfl
@[simp] theorem State.record_draws (e : Event) (s : State) : (s.record e).draws = s.draws := rfl

/-! ### `State.issue` -/

@[simp] theorem State.issue_cfg (t : Transaction) (s : State) : (s.issue t).cfg = s.cfg := rfl
@[simp] theorem State.issue_devAddr (t : Transaction) (s : State) : (s.issue t).devAddr = s.devAddr := rfl
@[simp] theorem State.issue_hwId (t : Transaction) (s : State) : (s.issue t).hwId = s.hwId := rfl
@[simp] theorem State.issue_stdDelay (t : Transaction) (s : State) : (s.issue t).stdDelay = s.stdDelay := rfl
@[simp] theorem State.issue_hs (t : Transaction) (s : State) : (s.issue t).hs = s.hs := rfl
@[simp] theorem State.issue_st (t : Transaction) (s : State) : (s.issue t).st = s.st := rfl
@[simp] theorem State.issue_sub (t : Transaction) (s : State) : (s.issue t).sub = s.sub := rfl
@[simp] theorem State.issue_info (t : Transaction) (s : State) : (s.issue t).info = s.info := rfl
@[simp] theorem State.issue_r (t : Transaction) (s : State) : (s.issue t).r = s.r := rfl
@[simp] theorem State.issue_buf (t : Transaction) (s : State) : (s.issue t).buf = s.buf := rfl
@[simp] theorem State.issue_blen (t : Transaction) (s : State) : (s.issue t).blen = s.blen := rfl
@[simp] theorem State.issue_ring (t : Transaction) (s : State) : (s.issue t).ring = s.ring := rfl
@[simp] theorem State.issue_cur (t : Transaction) (s : State) : (s.issue t).cur = s.cur := rfl
@[simp] theorem State.issue_seq (t : Transaction) (s : State) : (s.issue t).seq = s.seq := rfl
@[simp] theorem State.issue_att (t : Transaction) (s : State) : (s.issue t).att = s.att := rfl
@[simp] theorem State.issue_last (t : Transaction) (s : State) : (s.issue t).last = s.last := rfl
@[simp] theorem State.issue_dcnt (t : Transaction) (s : State) : (s.issue t).dcnt = s.dcnt := rfl
@[simp] theorem State.issue_response (t : Transaction) (s : State) : (s.issue t).response = s.response := rfl
@[simp] theorem State.issue_inputs (t : Transaction) (s : State) : (s.issue t).inputs = s.inputs := rfl
@[simp] theorem State.issue_answers (t : Transaction) (s : State) : (s.issue t).answers = s.answers.tail := rfl
@[simp] theorem State.issue_trace (t : Transaction) (s : State) :
    (s.issue t).trace = s.trace ++ [.transaction t (s.nextAnswer t)] := rfl
@[simp] theorem State.issue_evtValid (t : Transaction) (s : State) : (s.issue t).evtValid = s.evtValid := rfl
@[simp] theorem State.issue_draws (t : Transaction) (s : State) : (s.issue t).draws = s.draws := rfl

/-! ### `State.startDelay` -/

@[simp] theorem State.startDelay_cfg (d : Word) (s : State) : (s.startDelay d).cfg = s.cfg := rfl
@[simp] theorem State.startDelay_devAddr (d : Word) (s : State) : (s.startDelay d).devAddr = s.devAddr := rfl
@[simp] theorem State.startDelay_hwId (d : Word) (s : State) : (s.startDelay d).hwId = s.hwId := rfl
@[simp] theorem State.startDelay_stdDelay (d : Word) (s : State) : (s.startDelay d).stdDelay = s.stdDelay := rfl
@[simp] theorem State.startDelay_hs (d : Word) (s : State) : (s.startDelay d).hs = s.hs := rfl
@[simp] theorem State.startDelay_st (d : Word) (s : State) : (s.startDelay d).st = s.st := rfl
@[simp] theorem State.startDelay_sub (d : Word) (s : State) : (s.startDelay d).sub = s.sub := rfl
@[simp] theorem State.startDelay_info (d : Word) (s : State) : (s.startDelay d).info = s.info := rfl
@[simp] theorem State.startDelay_r (d : Word) (s : State) : (s.startDelay d).r = s.r := rfl
@[simp] theorem State.startDelay_buf (d : Word) (s : State) : (s.startDelay d).buf = s.buf := rfl
@[simp] theorem State.startDelay_blen (d : Word) (s : State) : (s.startDelay d).blen = s.blen := rfl
@[simp] theorem State.startDelay_ring (d : Word) (s : State) : (s.startDelay d).ring = s.ring := rfl
@[simp] theorem State.startDelay_cur (d : Word) (s : State) : (s.startDelay d).cur = s.cur := rfl
@[simp] theorem State.startDelay_seq (d : Word) (s : State) : (s.startDelay d).seq = .wait := rfl
@[simp] theorem State.startDelay_att (d : Word) (s : State) : (s.startDelay d).att = s.att := rfl
@[simp] theorem State.startDelay_last (d : Word) (s : State) : (s.startDelay d).last = s.last := rfl
@[simp] theorem State.startDelay_dcnt (d : Word) (s : State) : (s.startDelay d).dcnt = d := rfl
@[simp] theorem State.startDelay_response (d : Word) (s : State) : (s.startDelay d).response = s.response := rfl
@[simp] theorem State.startDelay_inputs (d : Word) (s : State) : (s.startDelay d).inputs = s.inputs := rfl
@[simp] theorem State.startDelay_answers (d : Word) (s : State) : (s.startDelay d).answers = s.answers := rfl
@[simp] theorem State.startDelay_trace (d : Word) (s : State) : (s.startDelay d).trace = s.trace ++ [.delay d] := rfl
@[simp] theorem State.startDelay_evtValid (d : Word) (s : State) : (s.startDelay d).evtValid = s.evtValid := rfl
@[simp] theorem State.startDelay_draws (d : Word) (s : State) : (s.startDelay d).draws = s.draws := rfl

/-! ### `State.endDelay` -/

@[simp] theorem State.endDelay_cfg (s : State) : (s.endDelay).cfg = s.cfg := rfl
@[simp] theorem State.endDelay_devAddr (s : State) : (s.endDelay).devAddr = s.devAddr := rfl
@[simp] theorem State.endDelay_hwId (s : State) : (s.endDelay).hwId = s.hwId := rfl
@[simp] theorem State.endDelay_stdDelay (s : State) : (s.endDelay).stdDelay = s.stdDelay := rfl
@[simp] theorem State.endDelay_hs (s : State) : (s.endDelay).hs = s.hs := rfl
@[simp] theorem State.endDelay_st (s : State) : (s.endDelay).st = s.st := rfl
@[simp] theorem State.endDelay_sub (s : State) : (s.endDelay).sub = s.sub := rfl
@[simp] theorem State.endDelay_info (s : State) : (s.endDelay).info = s.info := rfl
@[simp] theorem State.endDelay_r (s : State) : (s.endDelay).r = s.r := rfl
@[simp] theorem State.endDelay_buf (s : State) : (s.endDelay).buf = s.buf := rfl
@[simp] theorem State.endDelay_blen (s : State) : (s.endDelay).blen = s.blen := rfl
@[simp] theorem State.endDelay_ring (s : State) : (s.endDelay).ring = s.ring := rfl
@[simp] theorem State.endDelay_cur (s : State) : (s.endDelay).cur = s.cur := rfl
@[simp] theorem State.endDelay_seq (s : State) : (s.endDelay).seq = s.seq := rfl
@[simp] theorem State.endDelay_att (s : State) : (s.endDelay).att = s.att := rfl
@[simp] theorem State.endDelay_last (s : State) : (s.endDelay).last = s.last := rfl
@[simp] theorem State.endDelay_dcnt (s : State) : (s.endDelay).dcnt = 0 := rfl
@[simp] theorem State.endDelay_response (s : State) : (s.endDelay).response = s.response := rfl
@[simp] theorem State.endDelay_inputs (s : State) : (s.endDelay).inputs = s.inputs := rfl
@[simp] theorem State.endDelay_answers (s : State) : (s.endDelay).answers = s.answers := rfl
@[simp] theorem State.endDelay_trace (s : State) : (s.endDelay).trace = s.trace := rfl
@[simp] theorem State.endDelay_evtValid (s : State) : (s.endDelay).evtValid = s.evtValid := rfl
@[simp] theorem State.endDelay_draws (s : State) : (s.endDelay).draws = s.draws := rfl

/-! ### `State.delay` -/

@[simp] theorem State.delay_cfg (d : Word) (s : State) : (s.delay d).cfg = s.cfg := rfl
@[simp] theorem State.delay_devAddr (d : Word) (s : State) : (s.delay d).devAddr = s.devAddr := rfl
@[simp] theorem State.delay_hwId (d : Word) (s : State) : (s.delay d).hwId = s.hwId := rfl
@[simp] theorem State.delay_stdDelay (d : Word) (s : State) : (s.delay d).stdDelay = s.stdDelay := rfl
@[simp] theorem State.delay_hs (d : Word) (s : State) : (s.delay d).hs = s.hs := rfl
@[simp] theorem State.delay_st (d : Word) (s : State) : (s.delay d).st = s.st := rfl
@[simp] theorem State.delay_sub (d : Word) (s : State) : (s.delay d).sub = s.sub := rfl
@[simp] theorem State.delay_info (d : Word) (s : State) : (s.delay d).info = s.info := rfl
@[simp] theorem State.delay_r (d : Word) (s : State) : (s.delay d).r = s.r := rfl
@[simp] theorem State.delay_buf (d : Word) (s : State) : (s.delay d).buf = s.buf := rfl
@[simp] theorem State.delay_blen (d : Word) (s : State) : (s.delay d).blen = s.blen := rfl
@[simp] theorem State.delay_ring (d : Word) (s : State) : (s.delay d).ring = s.ring := rfl
@[simp] theorem State.delay_cur (d : Word) (s : State) : (s.delay d).cur = s.cur := rfl
@[simp] theorem State.delay_seq (d : Word) (s : State) : (s.delay d).seq = .wait := rfl
@[simp] theorem State.delay_att (d : Word) (s : State) : (s.delay d).att = s.att := rfl
@[simp] theorem State.delay_last (d : Word) (s : State) : (s.delay d).last = s.last := rfl
@[simp] theorem State.delay_dcnt (d : Word) (s : State) : (s.delay d).dcnt = 0 := rfl
@[simp] theorem State.delay_response (d : Word) (s : State) : (s.delay d).response = s.response := rfl
@[simp] theorem State.delay_inputs (d : Word) (s : State) : (s.delay d).inputs = s.inputs := rfl
@[simp] theorem State.delay_answers (d : Word) (s : State) : (s.delay d).answers = s.answers := rfl
@[simp] theorem State.delay_trace (d : Word) (s : State) : (s.delay d).trace = s.trace ++ [.delay d] := rfl
@[simp] theorem State.delay_evtValid (d : Word) (s : State) : (s.delay d).evtValid = s.evtValid := rfl
@[simp] theorem State.delay_draws (d : Word) (s : State) : (s.delay d).draws = s.draws := rfl

/-! ### `State.loadBuf` -/

@[simp] theorem State.loadBuf_cfg (bs : List Byte) (s : State) : (s.loadBuf bs).cfg = s.cfg := rfl
@[simp] theorem State.loadBuf_devAddr (bs : List Byte) (s : State) : (s.loadBuf bs).devAddr = s.devAddr := rfl
@[simp] theorem State.loadBuf_hwId (bs : List Byte) (s : State) : (s.loadBuf bs).hwId = s.hwId := rfl
@[simp] theorem State.loadBuf_stdDelay (bs : List Byte) (s : State) : (s.loadBuf bs).stdDelay = s.stdDelay := rfl
@[simp] theorem State.loadBuf_hs (bs : List Byte) (s : State) : (s.loadBuf bs).hs = s.hs := rfl
@[simp] theorem State.loadBuf_st (bs : List Byte) (s : State) : (s.loadBuf bs).st = s.st := rfl
@[simp] theorem State.loadBuf_sub (bs : List Byte) (s : State) : (s.loadBuf bs).sub = s.sub := rfl
@[simp] theorem State.loadBuf_info (bs : List Byte) (s : State) : (s.loadBuf bs).info = s.info := rfl
@[simp] theorem State.loadBuf_r (bs : List Byte) (s : State) : (s.loadBuf bs).r = s.r := rfl
@[simp] theorem State.loadBuf_buf (bs : List Byte) (s : State) : (s.loadBuf bs).buf = Memory.ofBytes 0 bs := rfl
@[simp] theorem State.loadBuf_blen (bs : List Byte) (s : State) :
    (s.loadBuf bs).blen = BitVec.ofNat 8 bs.length := rfl
@[simp] theorem State.loadBuf_ring (bs : List Byte) (s : State) : (s.loadBuf bs).ring = s.ring := rfl
@[simp] theorem State.loadBuf_cur (bs : List Byte) (s : State) : (s.loadBuf bs).cur = s.cur := rfl
@[simp] theorem State.loadBuf_seq (bs : List Byte) (s : State) : (s.loadBuf bs).seq = s.seq := rfl
@[simp] theorem State.loadBuf_att (bs : List Byte) (s : State) : (s.loadBuf bs).att = s.att := rfl
@[simp] theorem State.loadBuf_last (bs : List Byte) (s : State) : (s.loadBuf bs).last = s.last := rfl
@[simp] theorem State.loadBuf_dcnt (bs : List Byte) (s : State) : (s.loadBuf bs).dcnt = s.dcnt := rfl
@[simp] theorem State.loadBuf_response (bs : List Byte) (s : State) : (s.loadBuf bs).response = s.response := rfl
@[simp] theorem State.loadBuf_inputs (bs : List Byte) (s : State) : (s.loadBuf bs).inputs = s.inputs := rfl
@[simp] theorem State.loadBuf_answers (bs : List Byte) (s : State) : (s.loadBuf bs).answers = s.answers := rfl
@[simp] theorem State.loadBuf_trace (bs : List Byte) (s : State) : (s.loadBuf bs).trace = s.trace := rfl
@[simp] theorem State.loadBuf_evtValid (bs : List Byte) (s : State) : (s.loadBuf bs).evtValid = false := rfl
@[simp] theorem State.loadBuf_draws (bs : List Byte) (s : State) : (s.loadBuf bs).draws = s.draws := rfl

/-! ### `State.setStatus` -/

@[simp] theorem State.setStatus_cfg (st sub : Status) (info : Byte) (s : State) :
    (s.setStatus st sub info).cfg = s.cfg := rfl
@[simp] theorem State.setStatus_devAddr (st sub : Status) (info : Byte) (s : State) :
    (s.setStatus st sub info).devAddr = s.devAddr := rfl
@[simp] theorem State.setStatus_hwId (st sub : Status) (info : Byte) (s : State) :
    (s.setStatus st sub info).hwId = s.hwId := rfl
@[simp] theorem State.setStatus_stdDelay (st sub : Status) (info : Byte) (s : State) :
    (s.setStatus st sub info).stdDelay = s.stdDelay := rfl
@[simp] theorem State.setStatus_hs (st sub : Status) (info : Byte) (s : State) :
    (s.setStatus st sub info).hs = s.hs := rfl
@[simp] theorem State.setStatus_st (st sub : Status) (info : Byte) (s : State) :
    (s.setStatus st sub info).st = st := rfl
@[simp] theorem State.setStatus_sub (st sub : Status) (info : Byte) (s : State) :
    (s.setStatus st sub info).sub = sub := rfl
@[simp] theorem State.setStatus_info (st sub : Status) (info : Byte) (s : State) :
    (s.setStatus st sub info).info = info := rfl
@[simp] theorem State.setStatus_r (st sub : Status) (info : Byte) (s : State) :
    (s.setStatus st sub info).r = s.r := rfl
@[simp] theorem State.setStatus_buf (st sub : Status) (info : Byte) (s : State) :
    (s.setStatus st sub info).buf = s.buf := rfl
@[simp] theorem State.setStatus_blen (st sub : Status) (info : Byte) (s : State) :
    (s.setStatus st sub info).blen = s.blen := rfl
@[simp] theorem State.setStatus_ring (st sub : Status) (info : Byte) (s : State) :
    (s.setStatus st sub info).ring = s.ring := rfl
@[simp] theorem State.setStatus_cur (st sub : Status) (info : Byte) (s : State) :
    (s.setStatus st sub info).cur = s.cur := rfl
@[simp] theorem State.setStatus_seq (st sub : Status) (info : Byte) (s : State) :
    (s.setStatus st sub info).seq = s.seq := rfl
@[simp] theorem State.setStatus_att (st sub : Status) (info : Byte) (s : State) :
    (s.setStatus st sub info).att = s.att := rfl
@[simp] theorem State.setStatus_last (st sub : Status) (info : Byte) (s : State) :
    (s.setStatus st sub info).last = s.last := rfl
@[simp] theorem State.setStatus_dcnt (st sub : Status) (info : Byte) (s : State) :
    (s.setStatus st sub info).dcnt = s.dcnt := rfl
@[simp] theorem State.setStatus_response (st sub : Status) (info : Byte) (s : State) :
    (s.setStatus st sub info).response = s.response := rfl
@[simp] theorem State.setStatus_inputs (st sub : Status) (info : Byte) (s : State) :
    (s.setStatus st sub info).inputs = s.inputs := rfl
@[simp] theorem State.setStatus_answers (st sub : Status) (info : Byte) (s : State) :
    (s.setStatus st sub info).answers = s.answers := rfl
@[simp] theorem State.setStatus_trace (st sub : Status) (info : Byte) (s : State) :
    (s.setStatus st sub info).trace = s.trace := rfl
@[simp] theorem State.setStatus_evtValid (st sub : Status) (info : Byte) (s : State) :
    (s.setStatus st sub info).evtValid = s.evtValid := rfl
@[simp] theorem State.setStatus_draws (st sub : Status) (info : Byte) (s : State) :
    (s.setStatus st sub info).draws = s.draws := rfl

/-! ### `State.spoil` -/

@[simp] theorem State.spoil_cfg (s : State) : (s.spoil).cfg = s.cfg := rfl
@[simp] theorem State.spoil_devAddr (s : State) : (s.spoil).devAddr = s.devAddr := rfl
@[simp] theorem State.spoil_hwId (s : State) : (s.spoil).hwId = s.hwId := rfl
@[simp] theorem State.spoil_stdDelay (s : State) : (s.spoil).stdDelay = s.stdDelay := rfl
@[simp] theorem State.spoil_hs (s : State) : (s.spoil).hs = s.hs := rfl
@[simp] theorem State.spoil_st (s : State) : (s.spoil).st = s.st := rfl
@[simp] theorem State.spoil_sub (s : State) : (s.spoil).sub = s.sub := rfl
@[simp] theorem State.spoil_info (s : State) : (s.spoil).info = s.info := rfl
@[simp] theorem State.spoil_r (s : State) : (s.spoil).r = Config.freeR s.draws := rfl
@[simp] theorem State.spoil_buf (s : State) : (s.spoil).buf = [] := rfl
@[simp] theorem State.spoil_blen (s : State) : (s.spoil).blen = 0 := rfl
@[simp] theorem State.spoil_ring (s : State) : (s.spoil).ring = s.ring := rfl
@[simp] theorem State.spoil_cur (s : State) : (s.spoil).cur = s.cur := rfl
@[simp] theorem State.spoil_seq (s : State) : (s.spoil).seq = s.seq := rfl
@[simp] theorem State.spoil_att (s : State) : (s.spoil).att = s.att := rfl
@[simp] theorem State.spoil_last (s : State) : (s.spoil).last = s.last := rfl
@[simp] theorem State.spoil_dcnt (s : State) : (s.spoil).dcnt = s.dcnt := rfl
@[simp] theorem State.spoil_response (s : State) : (s.spoil).response = s.response := rfl
@[simp] theorem State.spoil_inputs (s : State) : (s.spoil).inputs = s.inputs := rfl
@[simp] theorem State.spoil_answers (s : State) : (s.spoil).answers = s.answers := rfl
@[simp] theorem State.spoil_trace (s : State) : (s.spoil).trace = s.trace := rfl
@[simp] theorem State.spoil_evtValid (s : State) : (s.spoil).evtValid = false := rfl
@[simp] theorem State.spoil_draws (s : State) : (s.spoil).draws = s.draws + 1 := rfl

/-! ### `State.respond` -/

@[simp] theorem State.respond_cfg (s : State) : (s.respond).cfg = s.cfg := rfl
@[simp] theorem State.respond_devAddr (s : State) : (s.respond).devAddr = s.devAddr := rfl
@[simp] theorem State.respond_hwId (s : State) : (s.respond).hwId = s.hwId := rfl
@[simp] theorem State.respond_stdDelay (s : State) : (s.respond).stdDelay = s.stdDelay := rfl
@[simp] theorem State.respond_hs (s : State) : (s.respond).hs = s.hs := rfl
@[simp] theorem State.respond_st (s : State) : (s.respond).st = s.st := rfl
@[simp] theorem State.respond_sub (s : State) : (s.respond).sub = s.sub := rfl
@[simp] theorem State.respond_info (s : State) : (s.respond).info = s.info := rfl
@[simp] theorem State.respond_r (s : State) : (s.respond).r = s.r := rfl
@[simp] theorem State.respond_buf (s : State) : (s.respond).buf = s.buf := rfl
@[simp] theorem State.respond_blen (s : State) : (s.respond).blen = s.blen := rfl
@[simp] theorem State.respond_ring (s : State) : (s.respond).ring = s.ring := rfl
@[simp] theorem State.respond_cur (s : State) : (s.respond).cur = s.cur := rfl
@[simp] theorem State.respond_seq (s : State) : (s.respond).seq = .idle := rfl
@[simp] theorem State.respond_att (s : State) : (s.respond).att = s.att := rfl
@[simp] theorem State.respond_last (s : State) : (s.respond).last = s.last := rfl
@[simp] theorem State.respond_dcnt (s : State) : (s.respond).dcnt = s.dcnt := rfl
@[simp] theorem State.respond_response (s : State) : (s.respond).response = some s.responseBytes := rfl
@[simp] theorem State.respond_inputs (s : State) : (s.respond).inputs = s.inputs := rfl
@[simp] theorem State.respond_answers (s : State) : (s.respond).answers = s.answers := rfl
@[simp] theorem State.respond_trace (s : State) : (s.respond).trace = s.trace ++ [.responded s.responseBytes] := rfl
@[simp] theorem State.respond_evtValid (s : State) : (s.respond).evtValid = s.evtValid := rfl
@[simp] theorem State.respond_draws (s : State) : (s.respond).draws = s.draws := rfl

/-! ### `State.returnOk` -/

@[simp] theorem State.returnOk_cfg (s : State) : (s.returnOk).cfg = s.cfg := rfl
@[simp] theorem State.returnOk_devAddr (s : State) : (s.returnOk).devAddr = s.devAddr := rfl
@[simp] theorem State.returnOk_hwId (s : State) : (s.returnOk).hwId = s.hwId := rfl
@[simp] theorem State.returnOk_stdDelay (s : State) : (s.returnOk).stdDelay = s.stdDelay := rfl
@[simp] theorem State.returnOk_hs (s : State) : (s.returnOk).hs = s.hs := rfl
@[simp] theorem State.returnOk_st (s : State) : (s.returnOk).st = .ok := rfl
@[simp] theorem State.returnOk_sub (s : State) : (s.returnOk).sub = .ok := rfl
@[simp] theorem State.returnOk_info (s : State) : (s.returnOk).info = 0 := rfl
@[simp] theorem State.returnOk_r (s : State) : (s.returnOk).r = s.r := rfl
@[simp] theorem State.returnOk_buf (s : State) : (s.returnOk).buf = s.buf := rfl
@[simp] theorem State.returnOk_blen (s : State) : (s.returnOk).blen = s.blen := rfl
@[simp] theorem State.returnOk_ring (s : State) : (s.returnOk).ring = s.ring := rfl
@[simp] theorem State.returnOk_cur (s : State) : (s.returnOk).cur = s.cur := rfl
@[simp] theorem State.returnOk_seq (s : State) : (s.returnOk).seq = .idle := rfl
@[simp] theorem State.returnOk_att (s : State) : (s.returnOk).att = s.att := rfl
@[simp] theorem State.returnOk_last (s : State) : (s.returnOk).last = s.last := rfl
@[simp] theorem State.returnOk_dcnt (s : State) : (s.returnOk).dcnt = s.dcnt := rfl
@[simp] theorem State.returnOk_response (s : State) :
    (s.returnOk).response = some (s.setStatus .ok .ok 0).responseBytes := rfl
@[simp] theorem State.returnOk_inputs (s : State) : (s.returnOk).inputs = s.inputs := rfl
@[simp] theorem State.returnOk_answers (s : State) : (s.returnOk).answers = s.answers := rfl
@[simp] theorem State.returnOk_trace (s : State) :
    (s.returnOk).trace = s.trace ++ [.responded (s.setStatus .ok .ok 0).responseBytes] := rfl
@[simp] theorem State.returnOk_evtValid (s : State) : (s.returnOk).evtValid = s.evtValid := rfl
@[simp] theorem State.returnOk_draws (s : State) : (s.returnOk).draws = s.draws := rfl

/-! ### `State.fail` -/

@[simp] theorem State.fail_cfg (st sub : Status) (info : Byte) (s : State) : (s.fail st sub info).cfg = s.cfg := rfl
@[simp] theorem State.fail_devAddr (st sub : Status) (info : Byte) (s : State) :
    (s.fail st sub info).devAddr = s.devAddr := rfl
@[simp] theorem State.fail_hwId (st sub : Status) (info : Byte) (s : State) :
    (s.fail st sub info).hwId = s.hwId := rfl
@[simp] theorem State.fail_stdDelay (st sub : Status) (info : Byte) (s : State) :
    (s.fail st sub info).stdDelay = s.stdDelay := rfl
@[simp] theorem State.fail_hs (st sub : Status) (info : Byte) (s : State) : (s.fail st sub info).hs = s.hs := rfl
@[simp] theorem State.fail_st (st sub : Status) (info : Byte) (s : State) : (s.fail st sub info).st = st := rfl
@[simp] theorem State.fail_sub (st sub : Status) (info : Byte) (s : State) : (s.fail st sub info).sub = sub := rfl
@[simp] theorem State.fail_info (st sub : Status) (info : Byte) (s : State) : (s.fail st sub info).info = info := rfl
@[simp] theorem State.fail_r (st sub : Status) (info : Byte) (s : State) :
    (s.fail st sub info).r = Config.freeR s.draws := rfl
@[simp] theorem State.fail_buf (st sub : Status) (info : Byte) (s : State) : (s.fail st sub info).buf = [] := rfl
@[simp] theorem State.fail_blen (st sub : Status) (info : Byte) (s : State) : (s.fail st sub info).blen = 0 := rfl
@[simp] theorem State.fail_ring (st sub : Status) (info : Byte) (s : State) :
    (s.fail st sub info).ring = s.ring := rfl
@[simp] theorem State.fail_cur (st sub : Status) (info : Byte) (s : State) : (s.fail st sub info).cur = s.cur := rfl
@[simp] theorem State.fail_seq (st sub : Status) (info : Byte) (s : State) : (s.fail st sub info).seq = .idle := rfl
@[simp] theorem State.fail_att (st sub : Status) (info : Byte) (s : State) : (s.fail st sub info).att = s.att := rfl
@[simp] theorem State.fail_last (st sub : Status) (info : Byte) (s : State) :
    (s.fail st sub info).last = s.last := rfl
@[simp] theorem State.fail_dcnt (st sub : Status) (info : Byte) (s : State) :
    (s.fail st sub info).dcnt = s.dcnt := rfl
@[simp] theorem State.fail_response (st sub : Status) (info : Byte) (s : State) :
    (s.fail st sub info).response = some (s.setStatus st sub info).spoil.responseBytes := rfl
@[simp] theorem State.fail_inputs (st sub : Status) (info : Byte) (s : State) :
    (s.fail st sub info).inputs = s.inputs := rfl
@[simp] theorem State.fail_answers (st sub : Status) (info : Byte) (s : State) :
    (s.fail st sub info).answers = s.answers := rfl
@[simp] theorem State.fail_trace (st sub : Status) (info : Byte) (s : State) :
    (s.fail st sub info).trace = s.trace ++ [.responded (s.setStatus st sub info).spoil.responseBytes] := rfl
@[simp] theorem State.fail_evtValid (st sub : Status) (info : Byte) (s : State) :
    (s.fail st sub info).evtValid = false := rfl
@[simp] theorem State.fail_draws (st sub : Status) (info : Byte) (s : State) :
    (s.fail st sub info).draws = s.draws + 1 := rfl

/-! ### `State.accept` -/

@[simp] theorem State.accept_cfg (d : List Byte) (rest : List HostInput) (s : State) :
    (s.accept d rest).cfg = s.cfg := rfl
@[simp] theorem State.accept_devAddr (d : List Byte) (rest : List HostInput) (s : State) :
    (s.accept d rest).devAddr = s.devAddr := rfl
@[simp] theorem State.accept_hwId (d : List Byte) (rest : List HostInput) (s : State) :
    (s.accept d rest).hwId = s.hwId := rfl
@[simp] theorem State.accept_stdDelay (d : List Byte) (rest : List HostInput) (s : State) :
    (s.accept d rest).stdDelay = s.stdDelay := rfl
@[simp] theorem State.accept_hs (d : List Byte) (rest : List HostInput) (s : State) :
    (s.accept d rest).hs = s.hs := rfl
@[simp] theorem State.accept_st (d : List Byte) (rest : List HostInput) (s : State) :
    (s.accept d rest).st = s.st := rfl
@[simp] theorem State.accept_sub (d : List Byte) (rest : List HostInput) (s : State) :
    (s.accept d rest).sub = s.sub := rfl
@[simp] theorem State.accept_info (d : List Byte) (rest : List HostInput) (s : State) :
    (s.accept d rest).info = s.info := rfl
@[simp] theorem State.accept_r (d : List Byte) (rest : List HostInput) (s : State) : (s.accept d rest).r = s.r := rfl
@[simp] theorem State.accept_buf (d : List Byte) (rest : List HostInput) (s : State) :
    (s.accept d rest).buf = s.buf := rfl
@[simp] theorem State.accept_blen (d : List Byte) (rest : List HostInput) (s : State) :
    (s.accept d rest).blen = s.blen := rfl
@[simp] theorem State.accept_ring (d : List Byte) (rest : List HostInput) (s : State) :
    (s.accept d rest).ring = s.ring := rfl
@[simp] theorem State.accept_cur (d : List Byte) (rest : List HostInput) (s : State) :
    (s.accept d rest).cur = s.cur := rfl
@[simp] theorem State.accept_seq (d : List Byte) (rest : List HostInput) (s : State) :
    (s.accept d rest).seq = s.seq := rfl
@[simp] theorem State.accept_att (d : List Byte) (rest : List HostInput) (s : State) :
    (s.accept d rest).att = s.att := rfl
@[simp] theorem State.accept_last (d : List Byte) (rest : List HostInput) (s : State) :
    (s.accept d rest).last = s.last := rfl
@[simp] theorem State.accept_dcnt (d : List Byte) (rest : List HostInput) (s : State) :
    (s.accept d rest).dcnt = s.dcnt := rfl
@[simp] theorem State.accept_response (d : List Byte) (rest : List HostInput) (s : State) :
    (s.accept d rest).response = none := rfl
@[simp] theorem State.accept_inputs (d : List Byte) (rest : List HostInput) (s : State) :
    (s.accept d rest).inputs = rest := rfl
@[simp] theorem State.accept_answers (d : List Byte) (rest : List HostInput) (s : State) :
    (s.accept d rest).answers = s.answers := rfl
@[simp] theorem State.accept_trace (d : List Byte) (rest : List HostInput) (s : State) :
    (s.accept d rest).trace = s.trace ++ [.accepted d] := rfl
@[simp] theorem State.accept_evtValid (d : List Byte) (rest : List HostInput) (s : State) :
    (s.accept d rest).evtValid = s.evtValid := rfl
@[simp] theorem State.accept_draws (d : List Byte) (rest : List HostInput) (s : State) :
    (s.accept d rest).draws = s.draws := rfl

/-! ### `State.afterAddressPhase` -/

@[simp] theorem State.afterAddressPhase_cfg (m f : Byte) (d : Word) (s : State) :
    (s.afterAddressPhase m f d).cfg = s.cfg := rfl
@[simp] theorem State.afterAddressPhase_devAddr (m f : Byte) (d : Word) (s : State) :
    (s.afterAddressPhase m f d).devAddr = s.devAddr := rfl
@[simp] theorem State.afterAddressPhase_hwId (m f : Byte) (d : Word) (s : State) :
    (s.afterAddressPhase m f d).hwId = s.hwId := rfl
@[simp] theorem State.afterAddressPhase_stdDelay (m f : Byte) (d : Word) (s : State) :
    (s.afterAddressPhase m f d).stdDelay = s.stdDelay := rfl
@[simp] theorem State.afterAddressPhase_hs (m f : Byte) (d : Word) (s : State) :
    (s.afterAddressPhase m f d).hs = s.hs := rfl
@[simp] theorem State.afterAddressPhase_st (m f : Byte) (d : Word) (s : State) :
    (s.afterAddressPhase m f d).st = s.st := rfl
@[simp] theorem State.afterAddressPhase_sub (m f : Byte) (d : Word) (s : State) :
    (s.afterAddressPhase m f d).sub = s.sub := rfl
@[simp] theorem State.afterAddressPhase_info (m f : Byte) (d : Word) (s : State) :
    (s.afterAddressPhase m f d).info = s.info := rfl
@[simp] theorem State.afterAddressPhase_r (m f : Byte) (d : Word) (s : State) :
    (s.afterAddressPhase m f d).r = s.r := rfl
@[simp] theorem State.afterAddressPhase_buf (m f : Byte) (d : Word) (s : State) :
    (s.afterAddressPhase m f d).buf = s.buf := rfl
@[simp] theorem State.afterAddressPhase_blen (m f : Byte) (d : Word) (s : State) :
    (s.afterAddressPhase m f d).blen = s.blen := rfl
@[simp] theorem State.afterAddressPhase_ring (m f : Byte) (d : Word) (s : State) :
    (s.afterAddressPhase m f d).ring = s.ring := rfl
@[simp] theorem State.afterAddressPhase_cur (m f : Byte) (d : Word) (s : State) :
    (s.afterAddressPhase m f d).cur = s.cur := rfl
@[simp] theorem State.afterAddressPhase_seq (m f : Byte) (d : Word) (s : State) :
    (s.afterAddressPhase m f d).seq = .wait := rfl
@[simp] theorem State.afterAddressPhase_att (m f : Byte) (d : Word) (s : State) :
    (s.afterAddressPhase m f d).att = s.att := rfl
@[simp] theorem State.afterAddressPhase_last (m f : Byte) (d : Word) (s : State) :
    (s.afterAddressPhase m f d).last = s.last := rfl
@[simp] theorem State.afterAddressPhase_dcnt (m f : Byte) (d : Word) (s : State) :
    (s.afterAddressPhase m f d).dcnt = 0 := rfl
@[simp] theorem State.afterAddressPhase_response (m f : Byte) (d : Word) (s : State) :
    (s.afterAddressPhase m f d).response = s.response := rfl
@[simp] theorem State.afterAddressPhase_inputs (m f : Byte) (d : Word) (s : State) :
    (s.afterAddressPhase m f d).inputs = s.inputs := rfl
@[simp] theorem State.afterAddressPhase_answers (m f : Byte) (d : Word) (s : State) :
    (s.afterAddressPhase m f d).answers = s.answers.tail := rfl
@[simp] theorem State.afterAddressPhase_trace (m f : Byte) (d : Word) (s : State) :
    (s.afterAddressPhase m f d).trace = s.trace ++ [.transaction (.write s.devAddr [m, f]) (s.nextAnswer (.write s.devAddr [m, f]))] ++ [.delay d] := rfl
@[simp] theorem State.afterAddressPhase_evtValid (m f : Byte) (d : Word) (s : State) :
    (s.afterAddressPhase m f d).evtValid = s.evtValid := rfl
@[simp] theorem State.afterAddressPhase_draws (m f : Byte) (d : Word) (s : State) :
    (s.afterAddressPhase m f d).draws = s.draws := rfl

/-! ### `State.push` -/

@[simp] theorem State.push_cfg (v : Half) (s : State) : (s.push v).cfg = s.cfg := by
  unfold State.push; split <;> rfl
@[simp] theorem State.push_devAddr (v : Half) (s : State) : (s.push v).devAddr = s.devAddr := by
  unfold State.push; split <;> rfl
@[simp] theorem State.push_hwId (v : Half) (s : State) : (s.push v).hwId = s.hwId := by
  unfold State.push; split <;> rfl
@[simp] theorem State.push_stdDelay (v : Half) (s : State) : (s.push v).stdDelay = s.stdDelay := by
  unfold State.push; split <;> rfl
@[simp] theorem State.push_hs (v : Half) (s : State) : (s.push v).hs = s.hs := by
  unfold State.push; split <;> rfl
@[simp] theorem State.push_st (v : Half) (s : State) : (s.push v).st = s.st := by
  unfold State.push; split <;> rfl
@[simp] theorem State.push_sub (v : Half) (s : State) : (s.push v).sub = s.sub := by
  unfold State.push; split <;> rfl
@[simp] theorem State.push_info (v : Half) (s : State) : (s.push v).info = s.info := by
  unfold State.push; split <;> rfl
@[simp] theorem State.push_r (v : Half) (s : State) : (s.push v).r = s.r := by
  unfold State.push; split <;> rfl
@[simp] theorem State.push_buf (v : Half) (s : State) : (s.push v).buf = s.buf := by
  unfold State.push; split <;> rfl
@[simp] theorem State.push_blen (v : Half) (s : State) : (s.push v).blen = s.blen := by
  unfold State.push; split <;> rfl
@[simp] theorem State.push_seq (v : Half) (s : State) : (s.push v).seq = s.seq := by
  unfold State.push; split <;> rfl
@[simp] theorem State.push_att (v : Half) (s : State) : (s.push v).att = s.att := by
  unfold State.push; split <;> rfl
@[simp] theorem State.push_last (v : Half) (s : State) : (s.push v).last = s.last := by
  unfold State.push; split <;> rfl
@[simp] theorem State.push_dcnt (v : Half) (s : State) : (s.push v).dcnt = s.dcnt := by
  unfold State.push; split <;> rfl
@[simp] theorem State.push_response (v : Half) (s : State) : (s.push v).response = s.response := by
  unfold State.push; split <;> rfl
@[simp] theorem State.push_inputs (v : Half) (s : State) : (s.push v).inputs = s.inputs := by
  unfold State.push; split <;> rfl
@[simp] theorem State.push_answers (v : Half) (s : State) : (s.push v).answers = s.answers := by
  unfold State.push; split <;> rfl
@[simp] theorem State.push_trace (v : Half) (s : State) : (s.push v).trace = s.trace := by
  unfold State.push; split <;> rfl
@[simp] theorem State.push_evtValid (v : Half) (s : State) : (s.push v).evtValid = s.evtValid := by
  unfold State.push; split <;> rfl
@[simp] theorem State.push_draws (v : Half) (s : State) : (s.push v).draws = s.draws := by
  unfold State.push; split <;> rfl

@[simp] theorem State.push_zero (s : State) : s.push 0#16 = s := by simp [State.push]

theorem State.push_nonzero {v : Half} (h : v ≠ 0) (s : State) :
    s.push v = { s with ring := Ring.write s.cur v s.ring, cur := (s.cur + 1) % s.cfg.ringCap } :=
  if_neg h

/-! ### Views that do not look at an updated field -/

@[simp] theorem State.setR_bufByte (v : Word) (s : State) (i : Nat) :
    (s.setR v).bufByte i = s.bufByte i := rfl
@[simp] theorem State.setR_nextAnswer (v : Word) (s : State) (t : Transaction) :
    (s.setR v).nextAnswer t = s.nextAnswer t := rfl
@[simp] theorem State.markEvents_bufByte (s : State) (i : Nat) : (s.markEvents).bufByte i = s.bufByte i := rfl
@[simp] theorem State.setHs_bufByte (h : Handshake) (s : State) (i : Nat) :
    (s.setHs h).bufByte i = s.bufByte i := rfl
@[simp] theorem State.setHs_nextAnswer (h : Handshake) (s : State) (t : Transaction) :
    (s.setHs h).nextAnswer t = s.nextAnswer t := rfl
@[simp] theorem State.setHs_responseBytes (h : Handshake) (s : State) :
    (s.setHs h).responseBytes = s.responseBytes := rfl
@[simp] theorem State.setHwId_bufByte (b : Byte) (s : State) (i : Nat) :
    (s.setHwId b).bufByte i = s.bufByte i := rfl
@[simp] theorem State.setHwId_nextAnswer (b : Byte) (s : State) (t : Transaction) :
    (s.setHwId b).nextAnswer t = s.nextAnswer t := rfl
@[simp] theorem State.setHwId_responseBytes (b : Byte) (s : State) :
    (s.setHwId b).responseBytes = s.responseBytes := rfl
@[simp] theorem State.setAtt_bufByte (n : Nat) (s : State) (i : Nat) :
    (s.setAtt n).bufByte i = s.bufByte i := rfl
@[simp] theorem State.setAtt_nextAnswer (n : Nat) (s : State) (t : Transaction) :
    (s.setAtt n).nextAnswer t = s.nextAnswer t := rfl
@[simp] theorem State.setAtt_responseBytes (n : Nat) (s : State) :
    (s.setAtt n).responseBytes = s.responseBytes := rfl
@[simp] theorem State.setLast_bufByte (l : Status × Byte) (s : State) (i : Nat) :
    (s.setLast l).bufByte i = s.bufByte i := rfl
@[simp] theorem State.setLast_nextAnswer (l : Status × Byte) (s : State) (t : Transaction) :
    (s.setLast l).nextAnswer t = s.nextAnswer t := rfl
@[simp] theorem State.setLast_responseBytes (l : Status × Byte) (s : State) :
    (s.setLast l).responseBytes = s.responseBytes := rfl
@[simp] theorem State.countDraw_nextAnswer (s : State) (t : Transaction) :
    (s.countDraw).nextAnswer t = s.nextAnswer t := rfl
@[simp] theorem State.startLoop_nextAnswer (s : State) (t : Transaction) :
    s.startLoop.nextAnswer t = s.nextAnswer t := rfl
@[simp] theorem State.enter_bufByte (p : Phase) (s : State) (i : Nat) :
    (s.enter p).bufByte i = s.bufByte i := rfl
@[simp] theorem State.enter_nextAnswer (p : Phase) (s : State) (t : Transaction) :
    (s.enter p).nextAnswer t = s.nextAnswer t := rfl
@[simp] theorem State.enter_responseBytes (p : Phase) (s : State) :
    (s.enter p).responseBytes = s.responseBytes := rfl
@[simp] theorem State.record_bufByte (e : Event) (s : State) (i : Nat) :
    (s.record e).bufByte i = s.bufByte i := rfl
@[simp] theorem State.record_responseBytes (e : Event) (s : State) :
    (s.record e).responseBytes = s.responseBytes := rfl
@[simp] theorem State.issue_bufByte (t : Transaction) (s : State) (i : Nat) :
    (s.issue t).bufByte i = s.bufByte i := rfl
@[simp] theorem State.issue_responseBytes (t : Transaction) (s : State) :
    (s.issue t).responseBytes = s.responseBytes := rfl
@[simp] theorem State.startDelay_bufByte (d : Word) (s : State) (i : Nat) :
    (s.startDelay d).bufByte i = s.bufByte i := rfl
@[simp] theorem State.startDelay_responseBytes (d : Word) (s : State) :
    (s.startDelay d).responseBytes = s.responseBytes := rfl
@[simp] theorem State.endDelay_bufByte (s : State) (i : Nat) :
    (s.endDelay).bufByte i = s.bufByte i := rfl
@[simp] theorem State.endDelay_nextAnswer (s : State) (t : Transaction) :
    (s.endDelay).nextAnswer t = s.nextAnswer t := rfl
@[simp] theorem State.endDelay_responseBytes (s : State) :
    (s.endDelay).responseBytes = s.responseBytes := rfl
@[simp] theorem State.delay_bufByte (d : Word) (s : State) (i : Nat) :
    (s.delay d).bufByte i = s.bufByte i := rfl
@[simp] theorem State.delay_responseBytes (d : Word) (s : State) :
    (s.delay d).responseBytes = s.responseBytes := rfl
@[simp] theorem State.loadBuf_nextAnswer (bs : List Byte) (s : State) (t : Transaction) :
    (s.loadBuf bs).nextAnswer t = s.nextAnswer t := rfl
@[simp] theorem State.setStatus_bufByte (st sub : Status) (info : Byte) (s : State) (i : Nat) :
    (s.setStatus st sub info).bufByte i = s.bufByte i := rfl
@[simp] theorem State.setStatus_nextAnswer (st sub : Status) (info : Byte) (s : State) (t : Transaction) :
    (s.setStatus st sub info).nextAnswer t = s.nextAnswer t := rfl
@[simp] theorem State.spoil_nextAnswer (s : State) (t : Transaction) :
    (s.spoil).nextAnswer t = s.nextAnswer t := rfl
@[simp] theorem State.respond_bufByte (s : State) (i : Nat) :
    (s.respond).bufByte i = s.bufByte i := rfl
@[simp] theorem State.respond_responseBytes (s : State) :
    (s.respond).responseBytes = s.responseBytes := rfl
@[simp] theorem State.returnOk_bufByte (s : State) (i : Nat) :
    (s.returnOk).bufByte i = s.bufByte i := rfl
@[simp] theorem State.accept_bufByte (d : List Byte) (rest : List HostInput) (s : State) (i : Nat) :
    (s.accept d rest).bufByte i = s.bufByte i := rfl
@[simp] theorem State.accept_responseBytes (d : List Byte) (rest : List HostInput) (s : State) :
    (s.accept d rest).responseBytes = s.responseBytes := rfl
@[simp] theorem State.afterAddressPhase_bufByte (m f : Byte) (d : Word) (s : State) (i : Nat) :
    (s.afterAddressPhase m f d).bufByte i = s.bufByte i := rfl
@[simp] theorem State.afterAddressPhase_responseBytes (m f : Byte) (d : Word) (s : State) :
    (s.afterAddressPhase m f d).responseBytes = s.responseBytes := rfl

@[simp] theorem State.push_bufByte (v : Half) (s : State) (i : Nat) : (s.push v).bufByte i = s.bufByte i := by
  simp [State.bufByte]
theorem State.returnOk_responseBytes (s : State) :
    s.returnOk.responseBytes = (s.setStatus .ok .ok 0).responseBytes := rfl
theorem State.fail_responseBytes (st sub : Status) (info : Byte) (s : State) :
    (s.fail st sub info).responseBytes = (s.setStatus st sub info).spoil.responseBytes := rfl

end Sys2Proof.Machine
end

