-- ==== Sys2Proof/Laws/Ops.lean ====
section
/-!
SUPPORT. One lemma for each shared operation, saying what it can do, for later proofs to cite: the canonical forms of
`BUF` and `RING`, the transactions, the core procedures, the retry loop.
-/
namespace Sys2Proof.Machine

/-! ### BUF: the canonical form -/

@[simp] theorem Memory.ofBytes_fst (a : Nat) (bs : List Byte) :
    (Memory.ofBytes a bs).map Prod.fst = List.range' a bs.length := by
  induction bs generalizing a with
  | nil => rfl
  | cons b bs ih => simp [Memory.ofBytes, ih, List.range'_succ]

theorem Memory.ofBytes_lookup (a : Nat) (bs : List Byte) (i : Nat) :
    (Memory.ofBytes a bs).lookup i = if a ≤ i then bs[i - a]? else none := by
  induction bs generalizing a with
  | nil => simp [Memory.ofBytes]
  | cons b bs ih =>
    by_cases hai : i = a
    · subst hai; simp [Memory.ofBytes]
    · have hne : (i == a) = false := by simpa using hai
      rw [Memory.ofBytes, List.lookup, hne, ih]
      by_cases h : a ≤ i
      · have h1 : a + 1 ≤ i := by omega
        have h2 : i - a = (i - (a + 1)) + 1 := by omega
        simp [h, h1, h2]
      · have h1 : ¬ a + 1 ≤ i := by omega
        simp [h, h1]

theorem Memory.ofBytes_rising (a c : Nat) (h : c ≤ a) (bs : List Byte) :
    risingFrom c (Memory.ofBytes a bs) = true := by
  induction bs generalizing a c with
  | nil => rfl
  | cons b bs ih => simp [Memory.ofBytes, risingFrom, h, ih (a + 1) (a + 1) (Nat.le_refl _)]

theorem Memory.ofBytes_below (a : Nat) (bs : List Byte) :
    ∀ c ∈ Memory.ofBytes a bs, c.1 < a + bs.length := by
  induction bs generalizing a with
  | nil => simp [Memory.ofBytes]
  | cons b bs ih =>
    intro c hc
    rcases List.mem_cons.1 hc with rfl | hc
    · simp
    · have := ih (a + 1) c hc; simp; omega

/-- What a successful read leaves in `BUF` is in canonical form. -/
theorem Memory.ofBytes_wf (bs : List Byte) (h : bs.length ≤ 255) : (Memory.ofBytes 0 bs).wf = true := by
  simp only [Memory.wf, Bool.and_eq_true, List.all_eq_true, decide_eq_true_eq]
  refine ⟨Memory.ofBytes_rising 0 0 (Nat.le_refl _) bs, fun c hc => ?_⟩
  have := Memory.ofBytes_below 0 bs c hc
  simp only [Config.bufMax]; omega

/-- Every write of `BUF` keeps the canonical form: a read loads it, a failure and the reset empty it. -/
theorem State.loadBuf_wf (bs : List Byte) (h : bs.length ≤ 255) (s : State) : (s.loadBuf bs).buf.wf = true :=
  Memory.ofBytes_wf bs h

theorem State.fail_wf (st sub : Status) (info : Byte) (s : State) : (s.fail st sub info).buf.wf = true := rfl

theorem State.resetOf_wf (c : Config) :
    (State.resetOf c).buf.wf = true ∧ (State.resetOf c).ring.wf = true := ⟨rfl, rfl⟩

theorem State.loadBuf_bufByte (bs : List Byte) (s : State) (i : Nat) (h : i < bs.length) :
    (s.loadBuf bs).bufByte i = bs[i] := by
  simp [State.bufByte, Memory.ofBytes_lookup, h]

theorem State.loadBuf_blen_toNat (bs : List Byte) (s : State) (h : bs.length ≤ 255) :
    (s.loadBuf bs).blen.toNat = bs.length := by
  simp; omega

/-! ### EVT: the view of a KEYRD's bytes -/

/-- All that `EVT` depends on. -/
theorem State.evt_congr {s t : State} (hv : t.evtValid = s.evtValid) (hl : t.blen = s.blen)
    (hb : ∀ i, t.bufByte i = s.bufByte i) (i : Nat) : t.evt i = s.evt i := by
  simp only [State.evt, hv, hl, hb]

theorem State.evt_of_not_valid {s : State} (h : s.evtValid = false) (i : Nat) : s.evt i = none := by
  simp [State.evt, h]

theorem State.evt_of_valid {s : State} (h : s.evtValid = true) {i : Nat} (hi : i < s.blen.toNat) :
    s.evt i = some (keyDec (s.bufByte i)) := by
  simp [State.evt, h, hi]

@[simp] theorem State.loadBuf_evt (bs : List Byte) (s : State) (i : Nat) : (s.loadBuf bs).evt i = none :=
  State.evt_of_not_valid rfl i
@[simp] theorem State.fail_evt (st sub : Status) (info : Byte) (s : State) (i : Nat) :
    (s.fail st sub info).evt i = none :=
  State.evt_of_not_valid rfl i
@[simp] theorem State.setR_evt (v : Word) (s : State) (i : Nat) : (s.setR v).evt i = s.evt i := rfl
@[simp] theorem State.setHs_evt (h : Handshake) (s : State) (i : Nat) : (s.setHs h).evt i = s.evt i := rfl
@[simp] theorem State.setHwId_evt (b : Byte) (s : State) (i : Nat) : (s.setHwId b).evt i = s.evt i := rfl
@[simp] theorem State.setAtt_evt (n : Nat) (s : State) (i : Nat) : (s.setAtt n).evt i = s.evt i := rfl
@[simp] theorem State.setLast_evt (l : Status × Byte) (s : State) (i : Nat) : (s.setLast l).evt i = s.evt i := rfl
@[simp] theorem State.enter_evt (p : Phase) (s : State) (i : Nat) : (s.enter p).evt i = s.evt i := rfl
@[simp] theorem State.issue_evt (t : Transaction) (s : State) (i : Nat) : (s.issue t).evt i = s.evt i := rfl
@[simp] theorem State.delay_evt (d : Word) (s : State) (i : Nat) : (s.delay d).evt i = s.evt i := rfl
@[simp] theorem State.afterAddressPhase_evt (m f : Byte) (d : Word) (s : State) (i : Nat) :
    (s.afterAddressPhase m f d).evt i = s.evt i := rfl
@[simp] theorem State.returnOk_evt (s : State) (i : Nat) : s.returnOk.evt i = s.evt i := rfl
@[simp] theorem State.push_evt (v : Half) (s : State) (i : Nat) : (s.push v).evt i = s.evt i :=
  State.evt_congr (State.push_evtValid v s) (State.push_blen v s) (State.push_bufByte v s) i

/-- Below `BLEN` a byte is listed, so that reading it draws no free value. -/
theorem State.bufByte_of_buf {s t : State} (h : Inv s) (hb : t.buf = s.buf) {k : Nat} (hk : k < s.blen.toNat) :
    t.bufByte k = s.bufByte k := by
  have hm : k ∈ s.buf.map Prod.fst := by rw [h.bufValid]; exact List.mem_range.2 hk
  have hsome : s.buf.lookup k ≠ none := by
    obtain ⟨⟨j, b⟩, hj, rfl⟩ := List.mem_map.1 hm
    intro hnone
    simpa using List.lookup_eq_none_iff.1 hnone _ hj
  obtain ⟨b, hlook⟩ := Option.ne_none_iff_exists'.1 hsome
  simp only [State.bufByte, hb, hlook]

/-- Under the invariant `EVT` depends on the listed bytes alone, on no free value. -/
theorem State.evt_of_buf {s t : State} (h : Inv s) (hv : t.evtValid = s.evtValid) (hl : t.blen = s.blen)
    (hb : t.buf = s.buf) (i : Nat) : t.evt i = s.evt i := by
  unfold State.evt
  rw [hv, hl]
  split
  · rename_i hi
    rw [State.bufByte_of_buf h hb hi.2]
  · rfl

/-- The start of a retry loop keeps the events. -/
theorem State.startLoop_evt {s : State} (h : Inv s) (i : Nat) : s.startLoop.evt i = s.evt i :=
  State.evt_of_buf h (State.startLoop_evtValid s) (State.startLoop_blen s) (State.startLoop_buf s) i

/-! ### RING: the canonical form, and reading after writing -/

theorem risingFrom_mono {α : Type} {a c : Nat} (h : c ≤ a) {m : List (Nat × α)} (hm : risingFrom a m = true) :
    risingFrom c m = true := by
  cases m with
  | nil => rfl
  | cons x m =>
    obtain ⟨i, v⟩ := x
    simp only [risingFrom, Bool.and_eq_true, decide_eq_true_eq] at hm ⊢
    exact ⟨by omega, hm.2⟩

theorem Ring.write_rising (i : Nat) (v : Half) (g : Ring) (a : Nat) (hi : a ≤ i) (hg : risingFrom a g = true) :
    risingFrom a (Ring.write i v g) = true := by
  induction g generalizing a with
  | nil => rw [Ring.write]; split <;> simp [risingFrom, hi]
  | cons x g ih =>
    obtain ⟨j, w⟩ := x
    simp only [risingFrom, Bool.and_eq_true, decide_eq_true_eq] at hg
    simp only [Ring.write]
    split_ifs with h1 h2 h3 h4
    · simpa [risingFrom] using hg
    · simp only [risingFrom, Bool.and_eq_true, decide_eq_true_eq]; exact ⟨hi, by omega, hg.2⟩
    · exact risingFrom_mono (by omega) hg.2
    · simp only [risingFrom, Bool.and_eq_true, decide_eq_true_eq]; exact ⟨hi, h3 ▸ hg.2⟩
    · simp only [risingFrom, Bool.and_eq_true, decide_eq_true_eq]
      exact ⟨hg.1, ih (j + 1) (by omega) hg.2⟩

theorem Ring.write_mem {i : Nat} {v : Half} {g : Ring} {c : Nat × Half} (h : c ∈ Ring.write i v g) :
    (c = (i, v) ∧ v ≠ 0) ∨ c ∈ g := by
  induction g with
  | nil =>
    rw [Ring.write] at h
    split at h
    · exact .inr h
    · rename_i hv; exact .inl ⟨List.mem_singleton.1 h, hv⟩
  | cons x g ih =>
    obtain ⟨j, w⟩ := x
    simp only [Ring.write] at h
    split_ifs at h with h1 h2 h3 h4
    · exact .inr h
    · rcases List.mem_cons.1 h with rfl | h
      · exact .inl ⟨rfl, h2⟩
      · exact .inr h
    · exact .inr (List.mem_cons_of_mem _ h)
    · rcases List.mem_cons.1 h with rfl | h
      · exact .inl ⟨rfl, h4⟩
      · exact .inr (List.mem_cons_of_mem _ h)
    · rcases List.mem_cons.1 h with rfl | h
      · exact .inr (List.mem_cons_self ..)
      · rcases ih h with h | h
        · exact .inl h
        · exact .inr (List.mem_cons_of_mem _ h)

/-- Every write of a slot keeps the ring's canonical form. -/
theorem Ring.write_wf (i : Nat) (v : Half) (g : Ring) (h : g.wf = true) : (Ring.write i v g).wf = true := by
  simp only [Ring.wf, Bool.and_eq_true, List.all_eq_true, decide_eq_true_eq] at h ⊢
  refine ⟨Ring.write_rising i v g 0 (Nat.zero_le _) h.1, fun c hc => ?_⟩
  rcases Ring.write_mem hc with ⟨rfl, hv⟩ | hc
  · exact hv
  · exact h.2 c hc

theorem State.push_wf (v : Half) (s : State) (h : s.ring.wf = true) : (s.push v).ring.wf = true := by
  unfold State.push
  split
  · exact h
  · exact Ring.write_wf _ _ _ h

/-- A slot reads what was stored in it. -/
theorem Ring.read_write_same (i : Nat) (v : Half) (hv : v ≠ 0) (g : Ring) : (Ring.write i v g).read i = v := by
  induction g with
  | nil => rw [Ring.write, if_neg hv]; simp [Ring.read]
  | cons x g ih =>
    obtain ⟨j, w⟩ := x
    simp only [Ring.write, if_neg hv]
    split_ifs with h1 h2
    · simp [Ring.read, List.lookup]
    · simp [Ring.read, List.lookup]
    · have : (i == j) = false := by simpa using h2
      simpa [Ring.read, List.lookup, this] using ih

/-- Every other slot keeps its sample. -/
theorem Ring.read_write_other (i k : Nat) (v : Half) (hv : v ≠ 0) (h : k ≠ i) (g : Ring) :
    (Ring.write i v g).read k = g.read k := by
  have hki : (k == i) = false := by simpa using h
  induction g with
  | nil => rw [Ring.write, if_neg hv]; simp [Ring.read, List.lookup, hki]
  | cons x g ih =>
    obtain ⟨j, w⟩ := x
    simp only [Ring.write, if_neg hv]
    split_ifs with h1 h2
    · simp [Ring.read, List.lookup, hki]
    · subst h2; simp [Ring.read, List.lookup, hki]
    · simp only [Ring.read, List.lookup] at ih ⊢
      cases k == j
      · exact ih
      · rfl

/-! ### Transactions -/

theorem State.nextAnswer_scripted {s : State} {a : Answer} {as : List Answer} (h : s.answers = a :: as)
    (t : Transaction) : s.nextAnswer t = a := by simp [State.nextAnswer, h]

/-- A free answer is never silence (20_memory R67). -/
theorem State.nextAnswer_not_silent {s : State} (h : ∀ a ∈ s.answers, a ≠ .silent) (t : Transaction) :
    s.nextAnswer t ≠ .silent := by
  unfold State.nextAnswer
  split
  · rename_i a as heq; exact h a (heq ▸ List.mem_cons_self ..)
  · simp

/-! ### How a command ends -/

/-- `return OK` after the bus events `es` (60_exceptions R229). -/
theorem State.returnOk_ended {s u : State} {es : List Event} (h : u.trace = s.trace ++ es) :
    EndedOk s u.returnOk es := by
  refine ⟨rfl, rfl, rfl, rfl, ?_, ?_⟩
  · rw [State.returnOk_response, State.returnOk_responseBytes]
  · rw [State.returnOk_trace, State.returnOk_responseBytes, h]

/-- `fail` after the bus events `es` (60_exceptions R230). -/
theorem State.fail_ended {s u : State} {es : List Event} (st sub : Status) (info : Byte)
    (h : u.trace = s.trace ++ es) : EndedFailed s (u.fail st sub info) st sub info es := by
  refine ⟨rfl, rfl, rfl, rfl, rfl, ?_, ?_⟩
  · rw [State.fail_response, State.fail_responseBytes]
  · rw [State.fail_trace, State.fail_responseBytes, h]

/-! ### The core procedures -/

/-- Everything `DoWrite` can do (40_core R141). -/
theorem doWrite_cases (m f : Byte) (ws : List Byte) (s : State) :
    let t := Transaction.write s.devAddr (m :: f :: ws)
    let u := (s.enter .write).issue t
    (s.nextAnswer t = .silent ∧ doWrite m f ws s = .stalled u) ∨
      (∃ e, s.nextAnswer t = .reply (.fail e) ∧ doWrite m f ws s = .failed .eTransport (errorCode e) u) ∨
      ∃ w, s.nextAnswer t = .reply (.ok w) ∧ doWrite m f ws s = .ok u := by
  simp only [doWrite, State.enter_nextAnswer]
  rcases s.nextAnswer (.write s.devAddr (m :: f :: ws)) with (w | e) | _
  · exact .inr (.inr ⟨w, rfl, rfl⟩)
  · exact .inr (.inl ⟨e, rfl, rfl⟩)
  · exact .inl ⟨rfl, rfl⟩

/-- Everything the data phase of a read can do (40_core R140). -/
theorem dataPhase_cases (n : Byte) (s : State) :
    let t := Transaction.read s.devAddr n.toNat
    let u := (s.enter .data).issue t
    (s.nextAnswer t = .silent ∧ dataPhase n s = .stalled u) ∨
      (∃ e, s.nextAnswer t = .reply (.fail e) ∧ dataPhase n s = .failed .eTransport (errorCode e) u) ∨
      (∃ bs, s.nextAnswer t = .reply (.ok bs) ∧ bs.length ≠ n.toNat ∧
        dataPhase n s = .failed .eLength (countByte bs.length) u) ∨
      ∃ bs, s.nextAnswer t = .reply (.ok bs) ∧ bs.length = n.toNat ∧ dataPhase n s = .ok (u.loadBuf bs) := by
  simp only [dataPhase, State.enter_nextAnswer]
  rcases s.nextAnswer (.read s.devAddr n.toNat) with (bs | e) | _
  · by_cases h : bs.length = n.toNat
    · exact .inr (.inr (.inr ⟨bs, rfl, h, if_pos h⟩))
    · exact .inr (.inr (.inl ⟨bs, rfl, h, if_neg h⟩))
  · exact .inr (.inl ⟨e, rfl, rfl⟩)
  · exact .inl ⟨rfl, rfl⟩

/-- Everything `DoRead` can do (40_core R140): its address pair ends it, or its data phase does. -/
theorem doRead_cases (m f n : Byte) (d : Word) (s : State) :
    let t := Transaction.write s.devAddr [m, f]
    let u := (s.enter .addr).issue t
    (s.nextAnswer t = .silent ∧ doRead m f n d s = .stalled u) ∨
      (∃ e, s.nextAnswer t = .reply (.fail e) ∧ doRead m f n d s = .failed .eTransport (errorCode e) u) ∨
      ∃ w, s.nextAnswer t = .reply (.ok w) ∧ doRead m f n d s = dataPhase n (s.afterAddressPhase m f d) := by
  simp only [doRead, State.enter_nextAnswer]
  rcases s.nextAnswer (.write s.devAddr [m, f]) with (w | e) | _
  · exact .inr (.inr ⟨w, rfl, rfl⟩)
  · exact .inr (.inl ⟨e, rfl, rfl⟩)
  · exact .inl ⟨rfl, rfl⟩

/-- The state a procedure leaves. -/
def Result.state : Result → State
  | .ok s => s
  | .failed _ _ s => s
  | .stalled s => s

/-- What a transaction to `DEV_ADDR` keeps, a write keeps. -/
theorem doWrite_keeps {P : State → Prop} (hs : ∀ s p, P s → P (s.enter p))
    (ht : ∀ s t, addressOf t = s.devAddr → P s → P (s.issue t)) (m f : Byte) (ws : List Byte) (s : State)
    (h : P s) : P (doWrite m f ws s).state := by
  rcases doWrite_cases m f ws s with ⟨-, h1⟩ | ⟨e, -, h1⟩ | ⟨w, -, h1⟩ <;>
    (rw [h1]; exact ht _ _ rfl (hs _ _ h))

/-- What a transaction to `DEV_ADDR`, a delay and a buffer load keep, a read keeps. -/
theorem doRead_keeps {P : State → Prop} (hs : ∀ s p, P s → P (s.enter p))
    (ht : ∀ s t, addressOf t = s.devAddr → P s → P (s.issue t)) (hd : ∀ s d, P s → P (s.delay d))
    (hb : ∀ s bs, bs.length ≤ 255 → P s → P (s.loadBuf bs)) (m f n : Byte) (d : Word) (s : State) (h : P s) :
    P (doRead m f n d s).state := by
  rcases doRead_cases m f n d s with ⟨-, h1⟩ | ⟨e, -, h1⟩ | ⟨w, -, h1⟩
  · rw [h1]; exact ht _ _ rfl (hs _ _ h)
  · rw [h1]; exact ht _ _ rfl (hs _ _ h)
  · rw [h1]
    have h2 : P (s.afterAddressPhase m f d) := hd _ _ (ht _ _ rfl (hs _ _ h))
    rcases dataPhase_cases n (s.afterAddressPhase m f d) with ⟨-, h3⟩ | ⟨e, -, h3⟩ | ⟨bs, -, -, h3⟩ | ⟨bs, -, hl, h3⟩
    · rw [h3]; exact ht _ _ rfl (hs _ _ h2)
    · rw [h3]; exact ht _ _ rfl (hs _ _ h2)
    · rw [h3]; exact ht _ _ rfl (hs _ _ h2)
    · rw [h3]
      have := n.isLt
      exact hb _ _ (by omega) (ht _ _ rfl (hs _ _ h2))

theorem errorCode_ne_zero (e : TransportError) : errorCode e ≠ 0 := by
  cases e with
  | nack => decide
  | busFault => decide
  | other k =>
    intro h
    have h1 := congrArg BitVec.toNat h
    have := k.isLt
    simp [errorCode] at h1; omega

/-- A write fails with `E_TRANSPORT` and a code that is not 0 (60_exceptions R221). -/
theorem doWrite_failed {m f : Byte} {ws : List Byte} {s t : State} {st : Status} {info : Byte}
    (h : doWrite m f ws s = .failed st info t) : st = .eTransport ∧ info ≠ 0 := by
  rcases doWrite_cases m f ws s with ⟨-, h1⟩ | ⟨e, -, h1⟩ | ⟨w, -, h1⟩ <;> rw [h1] at h <;> cases h
  exact ⟨rfl, errorCode_ne_zero e⟩

/-- A read fails with `E_TRANSPORT` and a code that is not 0, or with `E_LENGTH` (60_exceptions R221). -/
theorem doRead_failed {m f n : Byte} {d : Word} {s t : State} {st : Status} {info : Byte}
    (h : doRead m f n d s = .failed st info t) : (st = .eTransport ∧ info ≠ 0) ∨ st = .eLength := by
  rcases doRead_cases m f n d s with ⟨-, h1⟩ | ⟨e, -, h1⟩ | ⟨w, -, h1⟩ <;> rw [h1] at h
  · cases h
  · cases h; exact .inl ⟨rfl, errorCode_ne_zero e⟩
  · rcases dataPhase_cases n (s.afterAddressPhase m f d) with ⟨-, h3⟩ | ⟨e, -, h3⟩ | ⟨bs, -, -, h3⟩ | ⟨bs, -, -, h3⟩ <;>
      rw [h3] at h <;> cases h
    · exact .inl ⟨rfl, errorCode_ne_zero e⟩
    · exact .inr rfl

/-- A read that succeeds has loaded `n` bytes. -/
theorem doRead_ok {m f n : Byte} {d : Word} {s t : State} (h : doRead m f n d s = .ok t) :
    ∃ w bs, TakesPair s m f w ∧ Returns s m f d n.toNat bs ∧ bs.length = n.toNat ∧
      t = ((((s.afterAddressPhase m f d).enter .data).issue (.read s.devAddr n.toNat)).loadBuf bs) := by
  rcases doRead_cases m f n d s with ⟨-, h1⟩ | ⟨e, -, h1⟩ | ⟨w, hw, h1⟩ <;> rw [h1] at h
  · cases h
  · cases h
  · rcases dataPhase_cases n (s.afterAddressPhase m f d) with ⟨-, h3⟩ | ⟨e, -, h3⟩ | ⟨bs, -, -, h3⟩ | ⟨bs, hb, hl, h3⟩ <;>
      rw [h3] at h <;> cases h
    exact ⟨w, bs, hw, hb, hl, rfl⟩

/-- A read that the transport answers so, succeeds. -/
theorem doRead_eq_ok {m f n : Byte} {d : Word} {s : State} {w bs : List Byte} (hw : TakesPair s m f w)
    (hb : Returns s m f d n.toNat bs) (hl : bs.length = n.toNat) :
    doRead m f n d s =
      .ok ((((s.afterAddressPhase m f d).enter .data).issue (.read s.devAddr n.toNat)).loadBuf bs) := by
  unfold TakesPair at hw
  unfold Returns at hb
  simp [doRead, dataPhase, hw, hb, hl, onAnswer]

/-- What an attempt, a pause and the loop's own registers keep, the retry loop keeps. -/
theorem retry_keeps {P : State → Prop} {attempt : State → Result} (limit : Nat) (pause : Word)
    (ha : ∀ s, P s → P (attempt s).state) (hl : ∀ s l, P s → P (s.setLast l))
    (hn : ∀ s n, P s → P (s.setAtt n)) (hd : ∀ s d, P s → P (s.delay d)) (fuel : Nat) (s : State) (h : P s) :
    P (retry attempt limit pause fuel s).state := by
  induction fuel generalizing s with
  | zero => exact h
  | succ fuel ih =>
    have h1 := ha s h
    unfold retry
    rcases hr : attempt s with t | ⟨st, info, t⟩ | t
    · rw [hr] at h1; exact h1
    · rw [hr] at h1
      simp only
      split
      · exact hl _ _ h1
      · exact ih _ (hn _ _ (hd _ _ (hl _ _ h1)))
    · rw [hr] at h1; exact h1

/-- A loop that gives up reports what `LAST` holds (10_state R34). -/
theorem retry_failed_last {attempt : State → Result} {limit : Nat} {pause : Word} {fuel : Nat} {s t : State}
    {st : Status} {info : Byte} (h : retry attempt limit pause fuel s = .failed st info t) : t.last = (st, info) := by
  induction fuel generalizing s with
  | zero => simp only [retry, Result.failed.injEq] at h; obtain ⟨rfl, rfl, rfl⟩ := h; rfl
  | succ fuel ih =>
    unfold retry at h
    rcases hr : attempt s with u | ⟨st', info', u⟩ | u <;> rw [hr] at h
    · simp at h
    · simp only at h
      split at h
      · simp only [Result.failed.injEq] at h; obtain ⟨rfl, rfl, rfl⟩ := h; rfl
      · exact ih h
    · simp at h

/-! ### CSR numbers -/

/-- A CSR number names a register exactly when the map of 43_csr R212 lists it. -/
theorem csrOf_isSome (cap : Nat) (c : Half) : (csrOf cap c).isSome = true ↔ listedCsr cap c.toNat := by
  have hb : Config.bufMax = 255 := rfl
  unfold csrOf listedCsr
  generalize c.toNat = n
  simp only
  by_cases h0 : n = 0
  · rw [if_pos h0]; exact ⟨fun _ => by omega, fun _ => rfl⟩
  by_cases h1 : n = 1
  · rw [if_neg h0, if_pos h1]; exact ⟨fun _ => by omega, fun _ => rfl⟩
  by_cases h2 : n = 2
  · rw [if_neg h0, if_neg h1, if_pos h2]; exact ⟨fun _ => by omega, fun _ => rfl⟩
  rw [if_neg h0, if_neg h1, if_neg h2]
  split_ifs
  all_goals first
    | exact ⟨fun _ => by omega, fun _ => rfl⟩
    | exact ⟨fun h => Bool.noConfusion h, fun h => by omega⟩

/-- A number above the nine fixed registers is looked up in the two windows of the map. -/
theorem csrOf_window (cap : Nat) (c : Half) (h : 8 < c.toNat) :
    csrOf cap c =
      if 0x0100 ≤ c.toNat ∧ c.toNat < 0x0100 + Config.bufMax then some (.buf (c.toNat - 0x0100))
      else if 0x1000 ≤ c.toNat ∧ c.toNat < 0x1000 + cap then some (.ring (c.toNat - 0x1000))
      else none := by
  unfold csrOf
  simp only
  generalize c.toNat = n at *
  iterate 9 rw [if_neg (by omega)]

/-- The numbers of the bytes of `BUF`. -/
theorem csrOf_buf (cap k : Nat) (c : Half) (h : k < 255) (hc : c.toNat = 0x0100 + k) :
    csrOf cap c = some (.buf k) := by
  have hb : Config.bufMax = 255 := rfl
  have hk : c.toNat - 0x0100 = k := by omega
  rw [csrOf_window cap c (by omega), hk, if_pos (by omega)]

/-- The numbers of the slots of `RING`. -/
theorem csrOf_ring (cap k : Nat) (c : Half) (h : k < cap) (hc : c.toNat = 0x1000 + k) :
    csrOf cap c = some (.ring k) := by
  have hb : Config.bufMax = 255 := rfl
  have hk : c.toNat - 0x1000 = k := by omega
  rw [csrOf_window cap c (by omega), if_neg (by omega), hk, if_pos (by omega)]

/-- `DEV_ADDR` and `STD_DELAY` are the only writable registers, at the numbers 0 and 2 (43_csr R211). -/
theorem csrOf_writable {cap : Nat} {c : Half} {x : Csr} (h : csrOf cap c = some x)
    (hx : x.writableWidth ≠ none) : (c = 0 ∧ x = .devAddr) ∨ (c = 2 ∧ x = .stdDelay) := by
  by_cases h0 : c = 0
  · subst h0; cases h; exact .inl ⟨rfl, rfl⟩
  by_cases h2 : c = 2
  · subst h2; cases h; exact .inr ⟨rfl, rfl⟩
  have h0' : c.toNat ≠ 0 := fun h => h0 (BitVec.eq_of_toNat_eq h)
  have h2' : c.toNat ≠ 2 := fun h => h2 (BitVec.eq_of_toNat_eq h)
  unfold csrOf at h
  simp only at h
  generalize c.toNat = n at *
  rw [if_neg h0'] at h
  split_ifs at h <;> first | (exfalso; apply hx; cases h; rfl)

end Sys2Proof.Machine
end

