-- ==== Sys2Proof/Laws/PerInstr.lean ====
section
/-!
SUPPORT. What every command's descriptor has in common, command by command: its first byte is the opcode of
30_encoding R120, and its length is the one R116 requires.
-/
namespace Sys2Proof.Laws

/-- The descriptor of a well-formed command starts with its opcode number and is as long as R116 requires. -/
def EncodedShape.Statement (i : Instr) : Prop :=
  i.wellFormed = true →
    (encode i).head? = some i.opcode.number ∧ (encode i).length = i.opcode.length ((encode i).getD 3 0)

theorem EncodedShape.rdreg (m f : Byte) : EncodedShape.Statement (.rdreg m f) := fun _ => ⟨rfl, rfl⟩

theorem EncodedShape.wrreg (m f b : Byte) : EncodedShape.Statement (.wrreg m f b) := fun _ => ⟨rfl, rfl⟩

theorem EncodedShape.rd (m f n : Byte) (d : Word) : EncodedShape.Statement (.rd m f n d) := fun _ => ⟨rfl, rfl⟩

theorem EncodedShape.wr (m f : Byte) (ws : List Byte) : EncodedShape.Statement (.wr m f ws) := by
  intro h
  have hl : ws.length ≤ 255 := by simpa [Instr.wellFormed] using h
  refine ⟨rfl, ?_⟩
  simp [encode, encodeOperands, Instr.opcode, Opcode.length]
  omega

theorem EncodedShape.rst : EncodedShape.Statement .rst := fun _ => ⟨rfl, rfl⟩

theorem EncodedShape.keydec (b : Byte) : EncodedShape.Statement (.keydec b) := fun _ => ⟨rfl, rfl⟩

theorem EncodedShape.keyenc (k : BitVec 6) (e : Edge) : EncodedShape.Statement (.keyenc k e) := fun _ => ⟨rfl, rfl⟩

theorem EncodedShape.keyrd (n : Byte) : EncodedShape.Statement (.keyrd n) := fun _ => ⟨rfl, rfl⟩

theorem EncodedShape.keycnt : EncodedShape.Statement .keycnt := fun _ => ⟨rfl, rfl⟩

theorem EncodedShape.keyint (en : Bool) : EncodedShape.Statement (.keyint en) := fun _ => ⟨rfl, rfl⟩

theorem EncodedShape.keycfg (k : Byte) (m : BitVec 4) (en : Bool) : EncodedShape.Statement (.keycfg k m en) := fun _ => ⟨rfl, rfl⟩

theorem EncodedShape.mpush (v : Half) : EncodedShape.Statement (.mpush v) := fun _ => ⟨rfl, rfl⟩

theorem EncodedShape.mavg : EncodedShape.Statement .mavg := fun _ => ⟨rfl, rfl⟩

theorem EncodedShape.mread : EncodedShape.Statement .mread := fun _ => ⟨rfl, rfl⟩

theorem EncodedShape.csrr (c : Half) : EncodedShape.Statement (.csrr c) := fun _ => ⟨rfl, rfl⟩

theorem EncodedShape.csrw (c : Half) (v : Word) : EncodedShape.Statement (.csrw c v) := fun _ => ⟨rfl, rfl⟩

end Sys2Proof.Laws
end

