-- ==== Sys2Proof/Tests/Slice0.lean ====
section
/-!
SUPPORT. The model's own tests: the WellFormed smoke test; descriptors of 30_encoding written out byte by byte; single
commands from 95_test_vectors (each theorem names its row), under the configuration EX of its Part 3; and one concrete
witness for the hypotheses of every obligation that has some.
-/
namespace Sys2Proof.Tests

open Sys2Proof.Machine

/-! ### Helpers -/

/-- The block after reset, under EX. -/
def fresh : State := State.resetOf Config.ex

/-- The same, with a script of transport answers. -/
def given (as : List Answer) : State := { fresh with answers := as }

/-- `Ok` without bytes. -/
def took : Answer := .reply (.ok [])

/-- `Ok(bs)` -/
def gave (bs : List Byte) : Answer := .reply (.ok bs)

/-- `Fail(e)` -/
def failed (e : TransportError) : Answer := .reply (.fail e)

/-- The state a command leaves. -/
def run (i : Instr) (s : State) : State :=
  match exec i s with
  | .next t => t
  | .fault _ => s
  | .refused _ => s

/-- The status record and `BLEN` of the response (the rest of a failed command's response is unspecified). -/
def failHead (s : State) : Option (List Byte × List Byte) := s.response.map fun r => (r.take 3, r.drop 7)

/-- The whole payload of the longest WR. -/
def longest : List Byte := List.replicate 255 0xA5

theorem longest_length : longest.length = 255 := List.length_replicate

/-! ### WellFormed -/

theorem test_wellFormed_refuses_a_payload_of_256 : (Instr.wr 0 0 (List.replicate 256 0)).wellFormed = false := by
  rw [Instr.wellFormed, List.length_replicate]; rfl
theorem test_wellFormed_admits_a_payload_of_255 : (Instr.wr 0 0 longest).wellFormed = true := by
  rw [Instr.wellFormed, longest_length]; rfl

/-! ### Decoding: every constructor, from the formats of 30_encoding R114, R115, R120 -/

theorem test_decode_rdreg : decode [0x01, 0x0F, 0x10] = .ok (.rdreg 0x0F 0x10) := by decide
theorem test_decode_wrreg : decode [0x02, 0x00, 0x7F, 0xFF] = .ok (.wrreg 0x00 0x7F 0xFF) := by decide
theorem test_decode_rd :
    decode [0x03, 0x0F, 0x10, 0x02, 0x80, 0x00, 0x0B, 0xB8] = .ok (.rd 0x0F 0x10 2 0x80000BB8) := by decide
theorem test_decode_wr :
    decode [0x04, 0x0E, 0x04, 0x05, 0x00, 0x00, 0x10, 0x20, 0x30] =
      .ok (.wr 0x0E 0x04 [0x00, 0x00, 0x10, 0x20, 0x30]) := by decide
theorem test_decode_rst : decode [0x05] = .ok .rst := by decide
theorem test_decode_keydec : decode [0x10, 0x2B] = .ok (.keydec 0x2B) := by decide
theorem test_decode_keyenc : decode [0x11, 0x3F, 0x01] = .ok (.keyenc 63 .low) := by decide
theorem test_decode_keyrd : decode [0x12, 0x02] = .ok (.keyrd 2) := by decide
theorem test_decode_keycnt : decode [0x13] = .ok .keycnt := by decide
theorem test_decode_keyint : decode [0x14, 0x01] = .ok (.keyint true) := by decide
theorem test_decode_keycfg : decode [0x15, 0xFF, 0x08, 0x01] = .ok (.keycfg 0xFF 0b1000 true) := by decide
theorem test_decode_mpush : decode [0x20, 0x03, 0x84] = .ok (.mpush 900) := by decide
theorem test_decode_mavg : decode [0x21] = .ok .mavg := by decide
theorem test_decode_mread : decode [0x22] = .ok .mread := by decide
theorem test_decode_csrr : decode [0x30, 0x10, 0x05] = .ok (.csrr 0x1005) := by decide
theorem test_decode_csrw :
    decode [0x31, 0x00, 0x02, 0x00, 0x00, 0x03, 0xE8] = .ok (.csrw 0x0002 1000) := by decide
/-- 95_test_vectors 2.7: reserved opcodes at the edges of the gaps. -/
theorem test_decode_reserved :
    [0x00, 0x06, 0x0F, 0x16, 0x1F, 0x23, 0x2F, 0x32, 0xFF].all
      (fun b : Byte => decide (decode [b] = .error .reservedOpcode)) = true := by decide
/-- 95_test_vectors 2.7 and 2.6: wrong lengths. -/
theorem test_decode_lengths :
    [[0x05, 0x00], [0x01, 0x00], [0x03, 0x0F, 0x10, 0x02, 0x00, 0x00, 0x0B], [0x30, 0x00],
      [0x04, 0x0E, 0x04, 0x05, 0x00, 0x00]].all
      (fun d : List Byte => decide (decode d = .error .wrongLength)) = true := by decide
/-- 95_test_vectors 2.2, 2.3, 2.7: operand bits that must be 0. -/
theorem test_decode_operand_bits :
    [[0x11, 0x40, 0x00], [0x11, 0x00, 0x04], [0x14, 0x02], [0x15, 0x04, 0x1C, 0x01], [0x15, 0x04, 0x0C, 0x02]].all
      (fun d : List Byte => decide (decode d = .error .nonzeroOperandBit)) = true := by decide
theorem test_decode_empty : decode [] = .error .empty := by decide

/-! ### Single commands, from 95_test_vectors -/

/-- 2.6, first row. -/
theorem test_rdreg : (run (.rdreg 0x00 0x01) (given [took, gave [0x55]])).response =
    some [0, 0, 0, 0, 0, 0, 0x55, 1, 0x55] := by decide
/-- 2.6, fourth row: two bytes where one was asked for. -/
theorem test_rdreg_length : failHead (run (.rdreg 0x00 0x01) (given [took, gave [0x55, 0x66]])) =
    some ([2, 0, 2], [0]) := by decide
/-- 2.6. -/
theorem test_wrreg : (run (.wrreg 0x00 0x7F 0xFF) (given [took])).trace.head? =
    some (.transaction (.write 0x0049 [0x00, 0x7F, 0xFF]) took) := by decide
/-- 2.6. -/
theorem test_wrreg_fails : failHead (run (.wrreg 0x00 0x7F 0xFF) (given [failed .nack])) =
    some ([1, 0, 1], [0]) := by decide
/-- 2.6. -/
theorem test_rd : (run (.rd 0x0F 0x10 2 3000) (given [took, gave [0x01, 0x90]])).response =
    some [0, 0, 0, 0, 0, 0, 0, 2, 0x01, 0x90] := by decide
/-- 2.6: a read of no bytes has its data phase too. -/
theorem test_rd_no_bytes : busEvents (run (.rd 0x0F 0x10 0 0) (given [took, took])).trace =
    [.transaction (.write 0x0049 [0x0F, 0x10]) took, .delay 0, .transaction (.read 0x0049 0) took] := by decide
/-- 2.6: an empty payload. -/
theorem test_wr_empty : busEvents (run (.wr 0x0E 0x05 []) (given [took])).trace =
    [.transaction (.write 0x0049 [0x0E, 0x05]) took] := by decide
/-- Part 4, P1 command 2 (at the default address): success on the second poll. -/
theorem test_rst :
    let t := run .rst (given [took, failed .nack, took, gave [0x55]])
    t.response = some [0, 0, 0, 0, 0, 0, 0x55, 1, 0x55] ∧ t.hs = .ready ∧ t.hwId = 0x55 ∧
      delaysOf t.trace = [1000000, 10000, 250] := by decide
/-- Part 4, P4 command 1: three unknown bytes. -/
theorem test_rst_fails :
    let t := run .rst (given [took, took, gave [0], took, gave [0], took, gave [0]])
    failHead t = some ([3, 6, 0], [0]) ∧ t.hs = .failed ∧
      delaysOf t.trace = [1000000, 250, 10000, 250, 10000, 250] := by decide
/-- 10_state R34: `ATT` is set at the start of RST, also when its reset write fails. -/
theorem test_rst_sets_att_at_its_start :
    (run .rst { given [failed .nack] with att := 9 }).att = 1 := by decide
/-- 2.1: byte 0x2A is key 10, falling. -/
theorem test_keydec : (run (.keydec 0x2A) fresh).r = 0x00000A02 := by decide
/-- 2.2. -/
theorem test_keyenc : (run (.keyenc 63 .low) fresh).r = 0x000000FD := by decide
/-- Part 4, P2 command 5, and its view: rising 4, falling 4, nothing at index 2. -/
theorem test_keyrd :
    let t := run (.keyrd 2) (given [took, gave [0x13, 0x12]])
    t.evt 0 = some { edge := .rising, key := 4 } ∧ t.evt 1 = some { edge := .falling, key := 4 } ∧ t.evt 2 = none := by
  decide
/-- 10_state R30: the bytes of an RD are no events, those of a KEYRD stay events while `BUF` keeps them. -/
theorem test_evt_after_other_commands :
    (run (.rd 0x10 0x10 1 300) (given [took, gave [0x13]])).evt 0 = none ∧
      (run .mavg (run (.keyrd 1) (given [took, gave [0x13]]))).evt 0 = some { edge := .rising, key := 4 } := by
  decide
/-- Part 4, P2 command 4. -/
theorem test_keycnt : (run .keycnt (given [took, gave [0x02]])).response =
    some [0, 0, 0, 0, 0, 0, 2, 1, 2] := by decide
/-- Part 4, P2 commands 3 and 8. -/
theorem test_keyint :
    (run (.keyint true) (given [took])).trace.head? = some (.transaction (.write 0x0049 [0x10, 0x02, 0x01]) took) ∧
      (run (.keyint false) (given [took])).trace.head? =
        some (.transaction (.write 0x0049 [0x10, 0x03, 0x01]) took) := by decide
/-- 2.3. -/
theorem test_keycfg : (run (.keycfg 4 0b1100 true) (given [took])).trace.head? =
    some (.transaction (.write 0x0049 [0x10, 0x01, 0x04, 0x19]) took) := by decide
/-- 2.4, the push that comes round to slot 0. -/
theorem test_mpush_comes_round :
    let s := { fresh with ring := [(0, 300), (1, 500), (2, 700), (3, 100), (4, 200)], cur := 0 }
    (run (.mpush 900) s).ring = [(0, 900), (1, 500), (2, 700), (3, 100), (4, 200)] ∧ (run (.mpush 900) s).cur = 1 := by
  decide
/-- 2.4, a zero sample. -/
theorem test_mpush_zero : (run (.mpush 0) { fresh with cur := 1 }).cur = 1 := by decide
/-- 2.5, the source's example: zero slots do not count. -/
theorem test_mavg : (run .mavg { fresh with ring := [(0, 300), (2, 500), (4, 700)] }).r = 500 := by decide
/-- 2.5: the sum does not wrap at 16 bits. -/
theorem test_mavg_wide :
    (run .mavg { fresh with ring := [(0, 65535), (1, 65535), (2, 65535), (3, 65535), (4, 65535)] }).r = 0xFFFF := by
  decide
/-- Part 4, P3 command 1 (at the default address). -/
theorem test_mread :
    let t := run .mread (given [failed .nack, took, gave [0x01, 0x90]])
    t.response = some [0, 0, 0, 0, 0, 0x01, 0x90, 2, 0x01, 0x90] ∧ t.ring = [(0, 400)] ∧ t.cur = 1 ∧
      delaysOf t.trace = [1000, 3000] := by decide
/-- Part 4, P3 command 5: the last attempt's outcome is the one reported. -/
theorem test_mread_fails :
    let t := run .mread (given [took, failed .busFault, took, failed .busFault, took, failed .busFault, took,
      failed .busFault, took, gave [0x01]])
    failHead t = some ([4, 2, 1], [0]) ∧ (transactionsOf t.trace).length = 10 ∧ (delaysOf t.trace).length = 9 := by
  decide
/-- 2.8, the row before the last. -/
theorem test_csrr_status : (run (.csrr 0x0004) { fresh with st := .eBadCsr }).r = 0x00070000 := by decide
/-- 2.8: ring index 5 of a ring of 5. -/
theorem test_csrr_no_slot : failHead (run (.csrr 0x1005) fresh) = some ([7, 0, 0], [0]) := by decide
/-- 2.8. -/
theorem test_csrw : (run (.csrw 0x0002 1000) fresh).stdDelay = 1000 := by decide
/-- 2.8: too wide for `DEV_ADDR`. -/
theorem test_csrw_wide :
    let t := run (.csrw 0x0000 0x00010000) fresh
    failHead t = some ([7, 0, 2], [0]) ∧ t.devAddr = 0x0049 := by decide
/-- A row of the opcode table, filled in and handed over, runs as the first command: MPUSH 300. -/
theorem test_withFetchWord :
    (match step (fresh.withFetchWord 24 0x2C0120) with
      | .next t => t.ring
      | .fault _ => []
      | .refused _ => []) = [(0, 300)] := by decide

/-! ### Witnesses: the hypotheses of each obligation, met together -/

/-- Every command answers a next state. -/
theorem exec_run (i : Instr) (s : State) : exec i s = .next (run i s) := by cases i <;> rfl

/-- A read of one byte, scripted. -/
def oneByte : State := given [took, gave [0x55]]

/-- An idle block with something handed over. -/
def handed (x : HostInput) : State := { fresh with inputs := [x] }

theorem witness_DecodeOfEncodeIsTheCommand :
    (Instr.wr 0xFF 0xFF longest).wellFormed = true ∧ (Instr.wr 0 0 []).wellFormed = true ∧
      (Instr.keyenc 63 .rising).wellFormed = true :=
  ⟨test_wellFormed_admits_a_payload_of_255, rfl, rfl⟩

theorem witness_EncodeOfDecodeIsTheDescriptor : ∃ d i, decode d = .ok i :=
  ⟨[0x15, 0xFF, 0x0F, 0x01], .keycfg 0xFF 0b1111 true, by decide⟩

/-- The four clauses of `Malformed`: empty, reserved opcode, wrong length, operand bit. -/
theorem witness_MalformedDescriptorEndsBadCmd :
    (∃ (s : State), ∃ d rest, s.seq = .idle ∧ s.inputs = .command d :: rest ∧ d = [] ∧ Malformed d) ∧
      (∃ (s : State), ∃ d rest, s.seq = .idle ∧ s.inputs = .command d :: rest ∧ reservedOpcode (d.getD 0 0) = true ∧ Malformed d) ∧
      (∃ (s : State), ∃ d rest, s.seq = .idle ∧ s.inputs = .command d :: rest ∧ d.length ≠ formatLength d ∧ Malformed d) ∧
      ∃ (s : State), ∃ d rest, s.seq = .idle ∧ s.inputs = .command d :: rest ∧ badOperandBit d = true ∧ Malformed d :=
  ⟨⟨handed (.command []), [], [], rfl, rfl, rfl, .inl rfl⟩,
    ⟨handed (.command [0x32]), [0x32], [], rfl, rfl, by decide, .inr (.inl (by decide))⟩,
    ⟨handed (.command [0x05, 0]), [0x05, 0], [], rfl, rfl, by decide, .inr (.inr (.inl (by decide)))⟩,
    ⟨handed (.command [0x14, 0x02]), [0x14, 0x02], [], rfl, rfl, by decide, .inr (.inr (.inr (by decide)))⟩⟩

theorem witness_StepRunsTheDecodedCommand :
    ∃ (s : State), ∃ d rest i, s.seq = .idle ∧ s.inputs = .command d :: rest ∧ decode d = .ok i :=
  ⟨handed (.command [0x20, 0x01, 0x2C]), [0x20, 0x01, 0x2C], [], .mpush 300, rfl, rfl, by decide⟩

theorem witness_BusyBlockServesNoHost : ∃ s : State, s.seq ≠ .idle :=
  ⟨{ handed .reset with seq := .data }, by decide⟩

theorem witness_IdleBlockWaits : ∃ s : State, s.seq = .idle ∧ s.inputs = [] := ⟨fresh, rfl, rfl⟩

theorem witness_ResetLeavesTheSpecValues : ∃ (s : State), ∃ rest, s.seq = .idle ∧ s.inputs = HostInput.reset :: rest :=
  ⟨{ handed .reset with hs := .failed, ring := [(0, 7)], cur := 1 }, [], rfl, rfl⟩

theorem witness_TableRowRunsNext : ∃ nbits w i, decodeTableWord nbits w = some i :=
  ⟨24, 0x2C0120, .mpush 300, by decide⟩

theorem witness_StepKeepsTheInvariant : ∃ s t, Inv s ∧ step s = .next t :=
  ⟨{ handed (.command [0x20, 0x01, 0x2C]) with ring := [(0, 1), (4, 2)], cur := 4, buf := [(0, 9)], blen := 1 }, _,
    ⟨by decide, by decide, by decide, by decide, by decide, by decide, ⟨rfl, rfl⟩⟩, rfl⟩

/-- The trace of one read of one byte. -/
def readTrace : List Event := readEvents 0x0049 0x00 0x01 1 250 [] [0x55]

theorem readTrace_framed : Framed readTrace := by
  refine ⟨?_, ?_⟩
  · intro a ws x h
    simp [readTrace, readEvents] at h
    simp [h]
  · intro before after a n x h
    rcases before with _ | ⟨b0, _ | ⟨b1, _ | ⟨b2, bs⟩⟩⟩
    · simp [readTrace, readEvents] at h
    · simp [readTrace, readEvents] at h
    · simp [readTrace, readEvents] at h
      obtain ⟨rfl, rfl, ⟨⟨rfl, rfl⟩, rfl⟩, rfl⟩ := h
      exact ⟨[], 0x00, 0x01, [], 250, rfl⟩
    · simp [readTrace, readEvents] at h

theorem witness_StepKeepsTheTraceFramed : ∃ s t, Framed s.trace ∧ step s = .next t :=
  ⟨{ handed (.command [0x22]) with trace := readTrace }, _, readTrace_framed, rfl⟩

/-- A ring not yet full, which lists a slot that reads zero as well, and a full one whose cursor is at its last slot. -/
theorem witness_StepKeepsTheRingFilled :
    (∃ s t, RingFilled s ∧ (∀ k, k < s.cfg.ringCap → (s.ring.read k ≠ 0 ↔ k < s.cur)) ∧ step s = .next t) ∧
      ∃ s t, RingFilled s ∧ (∀ k, k < s.cfg.ringCap → s.ring.read k ≠ 0) ∧ step s = .next t :=
  ⟨⟨{ handed (.command [0x20, 0x00, 0x07]) with ring := [(0, 1), (1, 2), (2, 0)], cur := 2 }, _,
      ⟨by decide, .inr (by decide)⟩, by decide, rfl⟩,
    ⟨{ handed (.command [0x20, 0x00, 0x07]) with ring := [(0, 1), (1, 2), (2, 3), (3, 4), (4, 5)], cur := 4 }, _,
      ⟨by decide, .inl (by decide)⟩, by decide, rfl⟩⟩

theorem witness_EveryCommandEnds : ∃ s : State, ∀ a ∈ s.answers, a ≠ .silent := ⟨oneByte, by decide⟩

/-- At an address pair, in a data phase, at a write. -/
theorem witness_SilentTransportStallsTheCommand :
    (∃ i s m f n d, readForm s i = some (m, f, n, d) ∧ s.nextAnswer (.write s.devAddr [m, f]) = .silent) ∧
      (∃ i s m f n d w, readForm s i = some (m, f, n, d) ∧ TakesPair s m f w ∧
        (s.afterAddressPhase m f d).nextAnswer (.read s.devAddr n.toNat) = .silent) ∧
      ∃ i s ws, writeForm s i = some ws ∧ s.nextAnswer (.write s.devAddr ws) = .silent :=
  ⟨⟨.keycnt, given [.silent], _, _, _, _, rfl, rfl⟩,
    ⟨.rd 1 2 0 0, given [took, .silent], _, _, _, _, [], rfl, rfl, rfl⟩,
    ⟨.wr 1 2 [], given [.silent], _, rfl, rfl⟩⟩

/-- The hypothesis that TransactionsCarryDevAddr, CommandWorkIsBounded and CommandIsDeterminedByItsAnswers share. -/
theorem witness_exec_next : ∃ i s t, exec i s = .next t ∧ transactionsOf t.trace ≠ [] :=
  ⟨.rdreg 0 1, oneByte, _, rfl, by decide⟩

theorem witness_ResponseIsBuiltFromTheEndState :
    (∃ i s t, exec i s = .next t ∧ t.seq = .idle ∧ 0 < t.blen.toNat) ∧
      ∃ i s t, exec i s = .next t ∧ t.seq = .idle ∧ t.st ≠ .ok :=
  ⟨⟨.rdreg 0 1, oneByte, _, rfl, by decide, by decide⟩, ⟨.csrr 9, fresh, _, rfl, by decide, by decide⟩⟩

/-- A command other than RST, and RST. -/
theorem witness_FailureLeavesPersistentState :
    (∃ i s t, exec i s = .next t ∧ t.seq = .idle ∧ t.st ≠ .ok ∧ i ≠ .rst) ∧
      ∃ s t, exec .rst s = .next t ∧ t.seq = .idle ∧ t.st ≠ .ok :=
  ⟨⟨.csrr 9, fresh, _, rfl, by decide, by decide, by decide⟩, ⟨given [failed .nack], _, rfl, by decide, by decide⟩⟩

theorem witness_OnlyNamedCommandsWriteEachRegister :
    (∃ i s t, exec i s = .next t ∧ t.devAddr ≠ s.devAddr) ∧ (∃ i s t, exec i s = .next t ∧ t.stdDelay ≠ s.stdDelay) ∧
      (∃ i s t, exec i s = .next t ∧ t.hs ≠ s.hs ∧ t.hwId ≠ s.hwId) ∧
      ∃ i s t, exec i s = .next t ∧ t.ring ≠ s.ring ∧ t.cur ≠ s.cur :=
  ⟨⟨.csrw 0 0xFFFF, fresh, _, rfl, by decide⟩, ⟨.csrw 2 0xFFFFFFFF, fresh, _, rfl, by decide⟩,
    ⟨.rst, given [took, took, gave [0x87]], _, rfl, by decide, by decide⟩,
    ⟨.mread, given [took, gave [0, 1]], _, rfl, by decide, by decide⟩⟩

theorem witness_HandshakeStateGatesNothing : ∃ i s t, (∀ c, i ≠ Instr.csrr c) ∧ exec i s = .next t :=
  ⟨.rdreg 0 1, oneByte, _, by simp, rfl⟩

/-- The times of a command's events when each is as short as it may be and follows the one before at once. -/
def timesFrom (tick : Nat) : Nat → List Event → List (Event × Nat × Nat)
  | _, [] => []
  | now, e :: es => (e, now, now + minTicks e * tick) :: timesFrom tick (now + minTicks e * tick) es

theorem timesFrom_scheduled (tick now : Nat) (es : List Event) : Scheduled tick now (timesFrom tick now es) := by
  induction es generalizing now with
  | nil => trivial
  | cons e es ih => exact ⟨Nat.le_refl _, Nat.le_refl _, ih _⟩

theorem timesFrom_events (tick now : Nat) (es : List Event) : (timesFrom tick now es).map Prod.fst = es := by
  induction es generalizing now with
  | nil => rfl
  | cons e es ih => simp [timesFrom, ih]

/-- A data phase, a first poll after the reset write, a later poll, a later attempt of MREAD. -/
theorem witness_SchedulesKeepTheDelays :
    ∀ x ∈ [(Instr.rdreg 0 1, [took, gave [0x55]], 0, 1, (250 : Word)),
        (.rst, [took, took, gave [0x55]], 0, 1, 1000000),
        (.rst, [took, failed .nack, took, gave [0x55]], 2, 1, 10000),
        (.mread, [failed .nack, took, gave [1, 0x90]], 0, 1, 1000)],
      ∃ (s t : State) (timed : List (Event × Nat × Nat)), exec x.1 s = .next t ∧ s.answers = x.2.1 ∧
        timed.map Prod.fst = t.trace ∧ Scheduled s.cfg.tick 7 timed ∧
        ∃ before between after u a p answered v b start stop,
          timed = before ++ (.transaction u a, p, answered) :: between ++ (.transaction v b, start, stop) :: after ∧
          before.length = x.2.2.1 ∧ between.length = x.2.2.2.1 ∧ transactionsOf (between.map Prod.fst) = [] ∧
          delayBefore s x.1 (transactionsOf (before.map Prod.fst)) v = x.2.2.2.2 := by
  intro x hx
  refine ⟨given x.2.1, run x.1 (given x.2.1), timesFrom (given x.2.1).cfg.tick 7 (run x.1 (given x.2.1)).trace,
    exec_run _ _, rfl, timesFrom_events _ _ _, timesFrom_scheduled _ _ _, ?_⟩
  simp only [List.mem_cons, List.not_mem_nil, or_false] at hx
  rcases hx with rfl | rfl | rfl | rfl
  · exact ⟨[], [(_, _, _)], [_], _, _, _, _, _, _, _, _, rfl, rfl, rfl, rfl, rfl⟩
  · exact ⟨[], [(_, _, _)], [_, _, _], _, _, _, _, _, _, _, _, rfl, rfl, rfl, rfl, rfl⟩
  · exact ⟨[_, _], [(_, _, _)], [_, _, _], _, _, _, _, _, _, _, _, rfl, rfl, rfl, rfl, rfl⟩
  · exact ⟨[], [(_, _, _)], [_, _, _], _, _, _, _, _, _, _, _, rfl, rfl, rfl, rfl, rfl⟩

theorem witness_RdregReadsOneByte : ∃ m f s w b, TakesPair s m f w ∧ Returns s m f s.stdDelay 1 [b] :=
  ⟨0, 1, oneByte, [], 0x55, rfl, rfl⟩

/-- No bytes at all, and two. -/
theorem witness_RdReadsTheBytes :
    (∃ m f d s w bs, TakesPair s m f w ∧ Returns s m f d (0 : Byte).toNat bs ∧ bs.length = (0 : Byte).toNat) ∧
      ∃ m f d s w bs, TakesPair s m f w ∧ Returns s m f d (2 : Byte).toNat bs ∧ bs.length = (2 : Byte).toNat :=
  ⟨⟨1, 2, 0, given [took, took], [], [], rfl, rfl, rfl⟩,
    ⟨1, 2, 3000, given [took, gave [1, 0x90]], [], [1, 0x90], rfl, rfl, rfl⟩⟩

theorem witness_KeyrdReadsTheEvents :
    ∃ (n : Byte) (s : State) (w bs : List Byte), TakesPair s s.cfg.keyModule s.cfg.keyFnFifo w ∧
      Returns s s.cfg.keyModule s.cfg.keyFnFifo s.cfg.tKeyFifo n.toNat bs ∧ bs.length = n.toNat ∧ 0 < bs.length :=
  ⟨2, given [took, gave [0x13, 0x12]], [], [0x13, 0x12], rfl, rfl, rfl, by decide⟩

theorem witness_KeycntReadsTheDepth :
    ∃ (s : State) (w : List Byte) (b : Byte), TakesPair s s.cfg.keyModule s.cfg.keyFnCount w ∧
      Returns s s.cfg.keyModule s.cfg.keyFnCount s.stdDelay 1 [b] :=
  ⟨given [took, gave [2]], [], 2, rfl, rfl⟩

/-- For each of the four reads. -/
theorem witness_ReadFailsAtItsAddressPair :
    ∀ i ∈ [Instr.rdreg 0 1, .rd 1 2 0 7, .keyrd 255, .keycnt], ∃ s m f n d e, readForm s i = some (m, f, n, d) ∧
      s.nextAnswer (.write s.devAddr [m, f]) = .reply (.fail e) := by
  intro i hi
  refine ⟨given [failed (.other 252)], ?_⟩
  simp only [List.mem_cons, List.not_mem_nil, or_false] at hi
  rcases hi with rfl | rfl | rfl | rfl <;> exact ⟨_, _, _, _, _, rfl, rfl⟩

/-- An error; too few bytes; more bytes than `INFO` can report. -/
theorem witness_ReadFailsInItsDataPhase :
    ∀ x ∈ [Reply.fail .busFault, .ok [], .ok (1 :: longest)], ∃ i s m f n d w, readForm s i = some (m, f, n, d) ∧
      TakesPair s m f w ∧ (s.afterAddressPhase m f d).nextAnswer (.read s.devAddr n.toNat) = .reply x ∧
      ∃ (st : Status) (info : Byte), ((∃ e, x = .fail e ∧ st = .eTransport ∧ info = errorCode e) ∨
        (∃ bs, x = .ok bs ∧ bs.length ≠ n.toNat ∧ st = .eLength ∧ info.toNat = min bs.length 255)) := by
  intro x hx
  refine ⟨.rdreg 0 1, given [took, .reply x], 0, 1, 1, 250, [], rfl, rfl, rfl, ?_⟩
  simp only [List.mem_cons, List.not_mem_nil, or_false] at hx
  rcases hx with rfl | rfl | rfl
  · exact ⟨.eTransport, 2, .inl ⟨_, rfl, rfl, rfl⟩⟩
  · exact ⟨.eLength, 0, .inr ⟨_, rfl, by decide, rfl, rfl⟩⟩
  · exact ⟨.eLength, 255, .inr ⟨_, rfl, by rw [List.length_cons, longest_length]; decide, rfl, by
      rw [List.length_cons, longest_length]; rfl⟩⟩

theorem witness_WrregWritesOneByte :
    ∃ m f b, ∃ (s : State), ∃ w, s.nextAnswer (.write s.devAddr [m, f, b]) = .reply (.ok w) := ⟨0, 0x7F, 0xFF, given [took], [], rfl⟩

/-- With an empty payload and with the longest. -/
theorem witness_WrWritesThePayload :
    ∀ ws ∈ [[], longest], ∃ m f, ∃ (s : State), ∃ w, s.nextAnswer (.write s.devAddr (m :: f :: ws)) = .reply (.ok w) :=
  fun _ _ => ⟨0x0E, 0x05, given [took], [], rfl⟩

theorem witness_KeyintWritesOneOfTwoRegisters :
    ∀ en : Bool, ∃ (s : State) (w ws : List Byte),
      (en = true → ws = s.cfg.keyModule :: s.cfg.keyFnIntenset :: s.cfg.keyIntPayload) ∧
      (en = false → ws = s.cfg.keyModule :: s.cfg.keyFnIntenclr :: s.cfg.keyIntPayload) ∧
      s.nextAnswer (.write s.devAddr ws) = .reply (.ok w) := by
  intro en
  cases en
  · exact ⟨given [took], [], [0x10, 0x03, 0x01], by decide, by decide, rfl⟩
  · exact ⟨given [took], [], [0x10, 0x02, 0x01], by decide, by decide, rfl⟩

theorem witness_KeycfgWritesKeyAndState :
    ∃ (key : Byte) (emask : BitVec 4) (en : Bool) (s : State) (w : List Byte) (state : Byte),
      state.toNat = 2 * emask.toNat + en.toNat ∧
      s.nextAnswer (.write s.devAddr [s.cfg.keyModule, s.cfg.keyFnEvent, key, state]) = .reply (.ok w) :=
  ⟨0xFF, 0b1111, true, given [took], [], 0x1F, rfl, rfl⟩

/-- For each of the four writes. -/
theorem witness_WriteFailsWithTheTransportCode :
    ∀ i ∈ [Instr.wrreg 0 1 2, .wr 1 2 [], .keyint true, .keyint false, .keycfg 4 0b1100 true],
      ∃ s ws e, writeForm s i = some ws ∧ s.nextAnswer (.write s.devAddr ws) = .reply (.fail e) := by
  intro i hi
  refine ⟨given [failed (.other 0)], ?_⟩
  simp only [List.mem_cons, List.not_mem_nil, or_false] at hi
  rcases hi with rfl | rfl | rfl | rfl | rfl <;> exact ⟨_, _, rfl, rfl⟩

/-- Two failed polls, one short of the budget of three. -/
def twoFailedPolls : List FailedPoll := [.read (.data [] .nack), .unknownId [] 0x00]

/-- No failed poll and the first identity; the most failed polls and the second identity. -/
theorem witness_RstEndsAtTheFirstKnownIdentity :
    ∀ x ∈ [([], 0x55), (twoFailedPolls, 0x87)], ∃ (s : State) (w0 w : List Byte) (rest : List Answer),
      x.1.length < s.cfg.nIdTry ∧ (∀ y ∈ x.1, y.possible s.cfg) ∧ (x.2 = s.cfg.knownIdA ∨ x.2 = s.cfg.knownIdB) ∧
      s.answers = .reply (.ok w0) :: x.1.flatMap FailedPoll.answers ++ .reply (.ok w) :: .reply (.ok [x.2]) :: rest := by
  intro x hx
  simp only [List.mem_cons, List.not_mem_nil, or_false] at hx
  rcases hx with rfl | rfl
  · exact ⟨given [took, took, gave [0x55]], [], [], [], by decide, by simp, .inl rfl, rfl⟩
  · refine ⟨given [took, took, failed .nack, took, gave [0x00], took, gave [0x87]], [], [], [], by decide, ?_, .inr rfl,
      rfl⟩
    simp only [twoFailedPolls, List.mem_cons, List.not_mem_nil, or_false]
    rintro y (rfl | rfl)
    · trivial
    · exact ⟨by decide, by decide⟩

theorem witness_RstFailsWhenItsPollsAreSpent :
    ∃ (s : State) (w0 : List Byte) (fs : List FailedPoll) (x : FailedPoll) (rest : List Answer),
      fs.length + 1 = s.cfg.nIdTry ∧ (∀ y ∈ fs ++ [x], y.possible s.cfg) ∧
      s.answers = .reply (.ok w0) :: (fs ++ [x]).flatMap FailedPoll.answers ++ rest := by
  refine ⟨given [took, took, failed .nack, took, gave [0x00], took, gave [1, 2]], [], twoFailedPolls,
    .read (.length [] [1, 2]), [], by decide, ?_, rfl⟩
  simp only [twoFailedPolls, List.mem_append, List.mem_cons, List.not_mem_nil, or_false]
  rintro y ((rfl | rfl) | rfl)
  · trivial
  · exact ⟨by decide, by decide⟩
  · exact show (2 : Nat) ≠ 1 by decide

theorem witness_RstFailsAtItsResetWrite :
    ∃ (s : State) (e : TransportError) (ws : List Byte),
      ws = s.cfg.rstModule :: s.cfg.rstFunction :: s.cfg.rstPayload ∧
      s.nextAnswer (.write s.devAddr ws) = .reply (.fail e) :=
  ⟨given [failed .nack], .nack, _, rfl, rfl⟩

/-- From `Ready` as well. -/
theorem witness_RstEndsVerifiedOrFailed : ∃ s : State, s.hs = .ready ∧ ∀ a ∈ s.answers, a ≠ .silent :=
  ⟨{ given [took, took, gave [0x55]] with hs := .ready }, rfl, by decide⟩

theorem witness_RstIsNoResetOfTheBlock : ∃ s t : State, exec .rst s = .next t ∧ t.hwId ≠ s.hwId :=
  ⟨given [took, took, gave [0x55]], _, rfl, by decide⟩

/-- A zero sample and a non-zero one. -/
theorem witness_MpushStoresAtTheCursor : (∃ v : Half, v = 0) ∧ ∃ v : Half, v ≠ 0 := ⟨⟨0, rfl⟩, ⟨0xFFFF, by decide⟩⟩

/-- No sample; one in the last slot; the same samples in other slots. -/
theorem witness_AverageIsTheExactMean :
    (∃ (cap : Nat) (g : Ring), ((List.range cap).filter fun k => g.read k ≠ 0) = []) ∧
      (∃ (cap : Nat) (g : Ring) (ks : List Nat), ks = ((List.range cap).filter fun k => g.read k ≠ 0) ∧ ks ≠ []) ∧
      ∃ (cap : Nat) (g g' : Ring), g ≠ g' ∧ ((List.range cap).map g.read).Perm ((List.range cap).map g'.read) :=
  ⟨⟨5, [], by decide⟩, ⟨5, [(4, 1)], [4], by decide, by decide⟩,
    ⟨2, [(0, 1), (1, 2)], [(0, 2), (1, 1)], by decide, by decide⟩⟩

theorem witness_RingHoldsTheLastSamples : ∃ s : State, s.ring = [] ∧ s.cur = 0 := ⟨fresh, rfl, rfl⟩

/-- Four failed reads: one of each kind, and one more. -/
def fourFailedReads : List FailedRead := [.address .nack, .data [] .busFault, .length [] [1], .address (.other 0)]

theorem fourFailedReads_possible : ∀ x ∈ fourFailedReads, x.possible 2 := by
  simp only [fourFailedReads, List.mem_cons, List.not_mem_nil, or_false]
  rintro x (rfl | rfl | rfl | rfl)
  · trivial
  · trivial
  · exact show (1 : Nat) ≠ 2 by decide
  · trivial

/-- At once and a zero sample; after four failures and a non-zero one. -/
theorem witness_MreadReturnsAndPushesTheSample :
    ∀ x ∈ [(([] : List FailedRead), (0x00 : Byte), (0x00 : Byte)), (fourFailedReads, 0x01, 0x90)],
      ∃ (s : State) (w : List Byte) (rest : List Answer), x.1.length < 5 ∧ (∀ y ∈ x.1, y.possible 2) ∧
        s.answers = x.1.flatMap FailedRead.answers ++ .reply (.ok w) :: .reply (.ok [x.2.1, x.2.2]) :: rest := by
  intro x hx
  simp only [List.mem_cons, List.not_mem_nil, or_false] at hx
  rcases hx with rfl | rfl
  · exact ⟨given [took, gave [0, 0]], [], [], by decide, by simp, rfl⟩
  · exact ⟨given [failed .nack, took, failed .busFault, took, gave [1], failed (.other 0), took, gave [0x01, 0x90]], [],
      [], by decide, fourFailedReads_possible, rfl⟩

theorem witness_MreadFailsAfterFiveAttempts :
    ∃ (s : State) (fs : List FailedRead) (x : FailedRead) (rest : List Answer), fs.length = 4 ∧
      (∀ y ∈ fs ++ [x], y.possible 2) ∧ s.answers = (fs ++ [x]).flatMap FailedRead.answers ++ rest := by
  refine ⟨given [failed .nack, took, failed .busFault, took, gave [1], failed (.other 0), failed .nack],
    fourFailedReads, .address .nack, [], rfl, ?_, rfl⟩
  intro y hy
  rcases List.mem_append.1 hy with hy | hy
  · exact fourFailedReads_possible y hy
  · rw [List.mem_singleton.1 hy]; trivial

/-- The first and the last slot of a ring of five. -/
theorem witness_CsrrReturnsTheRegister : ∃ s : State, s.cur < 65536 ∧ 0 < s.cfg.ringCap ∧ 4 < s.cfg.ringCap :=
  ⟨fresh, by decide, by decide, by decide⟩

/-- The first byte and the last, of an empty buffer and of one that holds it. -/
theorem witness_CsrrReturnsTheBufferByte :
    ∃ s : State, (0 : Nat) < 255 ∧ 254 < 255 ∧ 0 < s.blen.toNat ∧ 254 < s.blen.toNat :=
  ⟨{ fresh with blen := 255 }, by decide, by decide, by decide, by decide⟩

theorem witness_CsrwWritesTheTwoSettings : ∃ v : Word, v.toNat < 65536 := ⟨0xFFFF, by decide⟩

/-- Numbers just outside each range of the map, numbers at the ends of each range, and the smallest value too wide. -/
theorem witness_BadCsrAccessIsRefused :
    (∀ c ∈ [(0x0009 : Half), 0x00FF, 0x01FF, 0x0FFF, 0x1005, 0xFFFF], ¬listedCsr fresh.cfg.ringCap c.toNat) ∧
      (∀ c ∈ [(0x0001 : Half), 0x0003, 0x0008, 0x0100, 0x01FE, 0x1000, 0x1004],
        listedCsr fresh.cfg.ringCap c.toNat ∧ c ≠ 0x0000 ∧ c ≠ 0x0002) ∧
      ∃ v : Word, 65536 ≤ v.toNat := by
  refine ⟨?_, ?_, 0x10000, by decide⟩ <;> simp [listedCsr, fresh, State.resetOf, Config.ex, Params.ex]

/-- A KEYRD, and a command after it that keeps its events. -/
theorem witness_EventsComeFromKeyrdOnly :
    (∃ n s t, Inv s ∧ exec (.keyrd n) s = .next t ∧ t.evt 0 ≠ none) ∧
      ∃ s t, Inv s ∧ exec .mavg s = .next t ∧ t.evt 0 ≠ none ∧ t.evt 0 = s.evt 0 :=
  ⟨⟨1, given [took, gave [0x13]], _, ⟨by decide, by decide, by decide, by decide, by decide, by decide, ⟨rfl, rfl⟩⟩, rfl,
      by decide⟩,
    ⟨run (.keyrd 1) (given [took, gave [0x13]]), _,
      ⟨by decide, by decide, by decide, by decide, by decide, by decide, ⟨rfl, rfl⟩⟩, rfl, by decide, by decide⟩⟩

/-- At the reset write; at the address pair of the first poll and in the data phase of the last. -/
theorem witness_SilentTransportStallsRst :
    (∃ (s : State) (ws : List Byte), ws = s.cfg.rstModule :: s.cfg.rstFunction :: s.cfg.rstPayload ∧
        s.nextAnswer (.write s.devAddr ws) = .silent) ∧
      (∃ (s : State) (w0 : List Byte) (fs : List FailedPoll) (rest : List Answer), fs = [] ∧
        fs.length < s.cfg.nIdTry ∧ (∀ x ∈ fs, x.possible s.cfg) ∧
        s.answers = .reply (.ok w0) :: fs.flatMap FailedPoll.answers ++ .silent :: rest) ∧
      ∃ (s : State) (w0 : List Byte) (fs : List FailedPoll) (w : List Byte) (rest : List Answer),
        fs.length + 1 = s.cfg.nIdTry ∧ (∀ x ∈ fs, x.possible s.cfg) ∧
        s.answers = .reply (.ok w0) :: fs.flatMap FailedPoll.answers ++ .reply (.ok w) :: .silent :: rest := by
  refine ⟨⟨given [.silent], _, rfl, rfl⟩, ⟨given [took, .silent], [], [], [], rfl, by decide, by simp, rfl⟩,
    given [took, took, failed .nack, took, gave [0x00], took, .silent], [], twoFailedPolls, [], [], by decide, ?_, rfl⟩
  simp only [twoFailedPolls, List.mem_cons, List.not_mem_nil, or_false]
  rintro y (rfl | rfl)
  · trivial
  · exact ⟨by decide, by decide⟩

/-- At the address pair of the first attempt and in the data phase of the fifth. -/
theorem witness_SilentTransportStallsMread :
    (∃ (s : State) (fs : List FailedRead) (rest : List Answer), fs = [] ∧ fs.length < 5 ∧ (∀ x ∈ fs, x.possible 2) ∧
        s.answers = fs.flatMap FailedRead.answers ++ .silent :: rest) ∧
      ∃ (s : State) (fs : List FailedRead) (w : List Byte) (rest : List Answer), fs.length = 4 ∧
        (∀ x ∈ fs, x.possible 2) ∧
        s.answers = fs.flatMap FailedRead.answers ++ .reply (.ok w) :: .silent :: rest :=
  ⟨⟨given [.silent], [], [], rfl, by decide, by simp, rfl⟩,
    ⟨given [failed .nack, took, failed .busFault, took, gave [1], failed (.other 0), took, .silent], fourFailedReads, [],
      [], rfl, fourFailedReads_possible, rfl⟩⟩

/-- A command that is neither; an RST that ends at once and one whose polls are spent; an MREAD at its fifth attempt. -/
theorem witness_RstAndMreadStartTheirLoopsAfresh :
    (∃ i s t, exec i s = .next t ∧ i ≠ .rst ∧ i ≠ .mread ∧ t.att = 7) ∧
      (∃ s t, exec .rst s = .next t ∧ t.att = 1) ∧
      (∃ s t, exec .rst s = .next t ∧ t.seq = .idle ∧ t.st = .eHandshake ∧ t.att = s.cfg.nIdTry) ∧
      ∃ s t, exec .mread s = .next t ∧ t.seq = .idle ∧ t.st = .eRetry ∧ t.att = 5 :=
  ⟨⟨.mavg, { fresh with att := 7 }, _, rfl, by decide, by decide, rfl⟩, ⟨given [failed .nack], _, rfl, by decide⟩,
    ⟨given [took, failed .nack, failed .nack, failed .nack], _, rfl, by decide, by decide, by decide⟩,
    ⟨given [failed .nack, failed .nack, failed .nack, failed .nack, failed .nack], _, rfl, by decide, by decide,
      by decide⟩⟩

end Sys2Proof.Tests
end

section
/-!
PROOFS. A command on its way: what no transaction, delay, buffer load or loop register changes; what an attempt that
fails or stalls does, for any of the two retry loops; and the statements about a transport that never answers.
-/
namespace Sys2Proof.Machine

/-! ### A command on its way -/

/-- A command begun in `s` has come to `t` after the bus events `es`, without ending: all that only its own writes or
its end may change is as it was. -/
structure Underway (s t : State) (es : List Event) : Prop where
  settings : SameSettings s t
  handshake : SameHandshake s t
  ring : SameRing s t
  outside : SameOutside s t
  response : t.response = s.response
  st : t.st = s.st
  sub : t.sub = s.sub
  info : t.info = s.info
  trace : t.trace = s.trace ++ es

namespace Underway

variable {s t u : State} {es fs : List Event}

theorem refl (s : State) : Underway s s [] :=
  ⟨⟨rfl, rfl⟩, ⟨rfl, rfl⟩, ⟨rfl, rfl⟩, ⟨rfl, rfl⟩, rfl, rfl, rfl, rfl, (List.append_nil _).symm⟩

theorem trans (h : Underway s t es) (k : Underway t u fs) : Underway s u (es ++ fs) where
  settings := ⟨k.settings.1.trans h.settings.1, k.settings.2.trans h.settings.2⟩
  handshake := ⟨k.handshake.1.trans h.handshake.1, k.handshake.2.trans h.handshake.2⟩
  ring := ⟨k.ring.1.trans h.ring.1, k.ring.2.trans h.ring.2⟩
  outside := ⟨k.outside.1.trans h.outside.1, k.outside.2.trans h.outside.2⟩
  response := k.response.trans h.response
  st := k.st.trans h.st
  sub := k.sub.trans h.sub
  info := k.info.trans h.info
  trace := by rw [k.trace, h.trace, List.append_assoc]

theorem loadBuf (h : Underway s t es) (bs : List Byte) : Underway s (t.loadBuf bs) es :=
  ⟨h.settings, h.handshake, h.ring, h.outside, h.response, h.st, h.sub, h.info, h.trace⟩

theorem setAtt (h : Underway s t es) (n : Nat) : Underway s (t.setAtt n) es :=
  ⟨h.settings, h.handshake, h.ring, h.outside, h.response, h.st, h.sub, h.info, h.trace⟩

theorem setLast (h : Underway s t es) (l : Status × Byte) : Underway s (t.setLast l) es :=
  ⟨h.settings, h.handshake, h.ring, h.outside, h.response, h.st, h.sub, h.info, h.trace⟩

theorem startLoop (h : Underway s t es) : Underway s t.startLoop es :=
  ⟨h.settings, h.handshake, h.ring, h.outside, h.response, h.st, h.sub, h.info, h.trace⟩

theorem delay (h : Underway s t es) (d : Word) : Underway s (t.delay d) (es ++ [.delay d]) :=
  ⟨h.settings, h.handshake, h.ring, h.outside, h.response, h.st, h.sub, h.info, by simp [h.trace]⟩

/-- A transaction and the phase it is made in. -/
theorem transact {x : Transaction} {a : Answer} (h : Underway s t es) (p : Phase) (ha : t.nextAnswer x = a) :
    Underway s ((t.enter p).issue x) (es ++ [.transaction x a]) :=
  ⟨h.settings, h.handshake, h.ring, h.outside, h.response, h.st, h.sub, h.info, by simp [h.trace, ha]⟩

end Underway

/-- All that the parameters of a command's transactions and delays depend on is the same. -/
structure SameBus (s t : State) : Prop where
  cfg : t.cfg = s.cfg
  devAddr : t.devAddr = s.devAddr
  stdDelay : t.stdDelay = s.stdDelay

theorem SameBus.underway {s t u : State} {es : List Event} (h : SameBus s t) (k : Underway t u es) : SameBus s u :=
  ⟨k.outside.1.trans h.cfg, k.settings.1.trans h.devAddr, k.settings.2.trans h.stdDelay⟩

/-- The address pair of a read and its settle delay, when the transport takes the pair. -/
theorem afterAddressPhase_underway {s : State} {m f : Byte} {d : Word} {w : List Byte} (hw : TakesPair s m f w) :
    Underway s (s.afterAddressPhase m f d)
      [.transaction (.write s.devAddr [m, f]) (.reply (.ok w)), .delay d] :=
  ((Underway.refl s).transact .addr hw).delay d

/-- A busy block takes nothing from the host (60_exceptions R252). -/
theorem step_of_busy {s : State} (h : s.seq ≠ .idle) : step s = .next s := by
  have hf : s.fetch = .nothing := by simp [State.fetch, h]
  rw [step, hf]

/-- A command on its way that stands in a phase other than `IDLE` stays there for ever. -/
theorem Underway.stalled {s t : State} {p : Phase} {es : List Event} (h : Underway s t es) (hp : t.seq = p)
    (hi : p ≠ .idle) : Stalled s t p es :=
  ⟨hp, h.response, h.st, h.sub, h.info, h.trace, step_of_busy (hp ▸ hi)⟩

/-! ### The core procedures, by the transport's answer -/

section CoreProcedures

variable {m f n : Byte} {d : Word} {ws w : List Byte} {e : TransportError} {s : State}

theorem doWrite_of_silent {a : Half} (ha : s.devAddr = a) (h : s.nextAnswer (.write a (m :: f :: ws)) = .silent) :
    doWrite m f ws s = .stalled ((s.enter .write).issue (.write a (m :: f :: ws))) := by
  simp [doWrite, onAnswer, ha, h]

theorem doWrite_of_ok {a : Half} (ha : s.devAddr = a)
    (h : s.nextAnswer (.write a (m :: f :: ws)) = .reply (.ok w)) :
    doWrite m f ws s = .ok ((s.enter .write).issue (.write a (m :: f :: ws))) := by
  simp [doWrite, onAnswer, ha, h]

theorem doRead_of_address_silent (h : s.nextAnswer (.write s.devAddr [m, f]) = .silent) :
    doRead m f n d s = .stalled ((s.enter .addr).issue (.write s.devAddr [m, f])) := by
  simp [doRead, onAnswer, h]

theorem doRead_of_address_fail (h : s.nextAnswer (.write s.devAddr [m, f]) = .reply (.fail e)) :
    doRead m f n d s =
      .failed .eTransport (errorCode e) ((s.enter .addr).issue (.write s.devAddr [m, f])) := by
  simp [doRead, onAnswer, h]

theorem doRead_of_takesPair (h : TakesPair s m f w) :
    doRead m f n d s = dataPhase n (s.afterAddressPhase m f d) := by
  simp only [doRead, State.enter_nextAnswer, show s.nextAnswer (.write s.devAddr [m, f]) = _ from h, onAnswer]

theorem dataPhase_of_silent {a : Half} (ha : s.devAddr = a) (h : s.nextAnswer (.read a n.toNat) = .silent) :
    dataPhase n s = .stalled ((s.enter .data).issue (.read a n.toNat)) := by
  simp [dataPhase, onAnswer, ha, h]

theorem dataPhase_of_fail {a : Half} (ha : s.devAddr = a)
    (h : s.nextAnswer (.read a n.toNat) = .reply (.fail e)) :
    dataPhase n s = .failed .eTransport (errorCode e) ((s.enter .data).issue (.read a n.toNat)) := by
  simp [dataPhase, onAnswer, ha, h]

theorem dataPhase_of_length {a : Half} {bs : List Byte} (ha : s.devAddr = a)
    (h : s.nextAnswer (.read a n.toNat) = .reply (.ok bs)) (hl : bs.length ≠ n.toNat) :
    dataPhase n s = .failed .eLength (countByte bs.length) ((s.enter .data).issue (.read a n.toNat)) := by
  simp [dataPhase, onAnswer, ha, h, hl]

end CoreProcedures

/-! ### Attempts -/

/-- In every state `u` with the bus parameters of `s` and the answers `as` next in the script, the attempt fails with
the outcome `o` after the events `es`; it uses up `as` and leaves `ATT`. -/
def FailsOn (s : State) (attempt : State → Result) (as : List Answer) (es : List Event) (o : Status × Byte) : Prop :=
  ∀ u rest, SameBus s u → u.answers = as ++ rest →
    ∃ t, attempt u = .failed o.1 o.2 t ∧ Underway u t es ∧ t.answers = rest ∧ t.att = u.att

/-- The result is a stall in the phase `p`, after the events `es`. -/
def Result.StallsFrom (r : Result) (s : State) (p : Phase) (es : List Event) : Prop :=
  ∃ t, r = .stalled t ∧ t.seq = p ∧ Underway s t es

/-- In every state `u` with the bus parameters of `s` and exactly `as` left in the script, the attempt stalls in the
phase `p` after the events `es`. -/
def StallsOn (s : State) (attempt : State → Result) (as : List Answer) (p : Phase) (es : List Event) : Prop :=
  ∀ u, SameBus s u → u.answers = as → (attempt u).StallsFrom u p es

section Reads

variable {m f n : Byte} {d : Word} {s : State}

/-- A read waits for the answer to its address pair (40_core R140, 20_memory R67). -/
theorem doRead_stallsFrom_addr (h : s.nextAnswer (.write s.devAddr [m, f]) = .silent) :
    (doRead m f n d s).StallsFrom s .addr [.transaction (.write s.devAddr [m, f]) .silent] :=
  ⟨_, doRead_of_address_silent h, rfl, (Underway.refl s).transact .addr h⟩

/-- A read waits for the answer in its data phase (40_core R140, 20_memory R67). -/
theorem doRead_stallsFrom_data {w : List Byte} (hw : TakesPair s m f w)
    (h : (s.afterAddressPhase m f d).nextAnswer (.read s.devAddr n.toNat) = .silent) :
    (doRead m f n d s).StallsFrom s .data [.transaction (.write s.devAddr [m, f]) (.reply (.ok w)), .delay d,
      .transaction (.read s.devAddr n.toNat) .silent] :=
  ⟨_, (doRead_of_takesPair hw).trans (dataPhase_of_silent (State.afterAddressPhase_devAddr ..) h), rfl,
    (afterAddressPhase_underway hw).transact .data h⟩

/-- The data phase meets the second answer of the script. -/
theorem afterAddressPhase_nextAnswer_scripted {a b : Answer} {as : List Answer} (h : s.answers = a :: b :: as)
    (x : Transaction) : (s.afterAddressPhase m f d).nextAnswer x = b :=
  State.nextAnswer_scripted (as := as) (by simp [h]) x

theorem doRead_stallsOn_addr (rest : List Answer) :
    StallsOn s (doRead m f n d) (.silent :: rest) .addr [.transaction (.write s.devAddr [m, f]) .silent] := by
  intro u hu ha
  rw [← hu.devAddr]
  exact doRead_stallsFrom_addr (State.nextAnswer_scripted ha _)

theorem doRead_stallsOn_data (w : List Byte) (rest : List Answer) :
    StallsOn s (doRead m f n d) (.reply (.ok w) :: .silent :: rest) .data
      [.transaction (.write s.devAddr [m, f]) (.reply (.ok w)), .delay d,
        .transaction (.read s.devAddr n.toNat) .silent] := by
  intro u hu ha
  rw [← hu.devAddr]
  exact doRead_stallsFrom_data (State.nextAnswer_scripted ha _) (afterAddressPhase_nextAnswer_scripted ha _)

/-- A read that fails in its data phase uses up two answers, the second of them `x`. -/
theorem doRead_failed_of_dataPhase {w : List Byte} {x : Reply} {st : Status} {info : Byte} (hw : TakesPair s m f w)
    (hx : (s.afterAddressPhase m f d).nextAnswer (.read s.devAddr n.toNat) = .reply x)
    (h : dataPhase n (s.afterAddressPhase m f d) =
      .failed st info (((s.afterAddressPhase m f d).enter .data).issue (.read s.devAddr n.toNat))) :
    ∃ t, doRead m f n d s = .failed st info t ∧
      Underway s t [.transaction (.write s.devAddr [m, f]) (.reply (.ok w)), .delay d,
        .transaction (.read s.devAddr n.toNat) (.reply x)] ∧
      t.answers = s.answers.drop 2 ∧ t.att = s.att :=
  ⟨_, (doRead_of_takesPair hw).trans h, (afterAddressPhase_underway hw).transact .data hx,
    by simp [← List.drop_one], by simp⟩

/-- What a read that succeeds leaves of the state it began in, and what it puts in `BUF`. -/
theorem doRead_ok_underway {w bs : List Byte} (hw : TakesPair s m f w) (hb : Returns s m f d n.toNat bs)
    (hl : bs.length = n.toNat) :
    ∃ t, doRead m f n d s = .ok t ∧ Underway s t (readEvents s.devAddr m f n.toNat d w bs) ∧
      (∀ i (h : i < bs.length), t.bufByte i = bs[i]) ∧ t.answers = s.answers.drop 2 ∧ t.att = s.att :=
  ⟨_, doRead_eq_ok hw hb hl, ((afterAddressPhase_underway hw).transact .data hb).loadBuf bs,
    fun i h => State.loadBuf_bufByte bs _ i h, by simp [← List.drop_one], by simp⟩

/-- A read fails in each of the three ways of 40_core R140, when the script makes it. -/
theorem doRead_failsOn {x : FailedRead} (hx : x.possible n.toNat) :
    FailsOn s (doRead m f n d) x.answers (x.events s.devAddr m f n.toNat d) x.outcome := by
  intro u rest hu ha
  rw [← hu.devAddr]
  cases x with
  | address e =>
    have h := State.nextAnswer_scripted ha (.write u.devAddr [m, f])
    exact ⟨_, doRead_of_address_fail h, (Underway.refl u).transact .addr h, congrArg List.tail ha, rfl⟩
  | data w e =>
    have h := afterAddressPhase_nextAnswer_scripted (m := m) (f := f) (d := d) ha (.read u.devAddr n.toNat)
    obtain ⟨t, ht, hut, hta, hatt⟩ :=
      doRead_failed_of_dataPhase (State.nextAnswer_scripted ha _) h
        (dataPhase_of_fail (State.afterAddressPhase_devAddr ..) h)
    exact ⟨t, ht, hut, hta.trans (congrArg (List.drop 2) ha), hatt⟩
  | length w bs =>
    have h := afterAddressPhase_nextAnswer_scripted (m := m) (f := f) (d := d) ha (.read u.devAddr n.toNat)
    obtain ⟨t, ht, hut, hta, hatt⟩ :=
      doRead_failed_of_dataPhase (State.nextAnswer_scripted ha _) h
        (dataPhase_of_length (State.afterAddressPhase_devAddr ..) h hx)
    exact ⟨t, ht, hut, hta.trans (congrArg (List.drop 2) ha), hatt⟩

end Reads

/-! ### The retry loop -/

section Retry

variable {attempt : State → Result} {limit : Nat} {pause : Word}

theorem retry_of_stalled {s t : State} (fuel : Nat) (h : attempt s = .stalled t) :
    retry attempt limit pause (fuel + 1) s = .stalled t := by
  simp only [retry, h]

theorem retry_of_failed {s t : State} {st : Status} {info : Byte} (fuel : Nat) (h : attempt s = .failed st info t)
    (ht : t.att ≠ limit) :
    retry attempt limit pause (fuel + 1) s =
      retry attempt limit pause fuel (((t.setLast (st, info)).delay pause).setAtt (t.att + 1)) := by
  simp only [retry, h]
  exact if_neg ht

variable {α : Type} {answers : α → List Answer} {events : α → List Event} {outcome : α → Status × Byte}

/-- The loop goes through failed attempts `fs` that do not spend its budget: each with its events and a pause. -/
theorem retry_after_failures {s : State} (fs : List α)
    (hf : ∀ x ∈ fs, FailsOn s attempt (answers x) (events x) (outcome x)) (k : Nat) {u : State} {rest : List Answer}
    (hu : SameBus s u) (ha : u.answers = fs.flatMap answers ++ rest)
    (hl : u.att + fs.length ≤ limit) :
    ∃ t, retry attempt limit pause (fs.length + k) u = retry attempt limit pause k t ∧
      Underway u t (fs.flatMap fun x => events x ++ [.delay pause]) ∧ t.answers = rest ∧
      t.att = u.att + fs.length := by
  induction fs generalizing u with
  | nil => exact ⟨u, by rw [List.length_nil, Nat.zero_add], .refl u, ha, rfl⟩
  | cons x fs ih =>
    rw [List.length_cons] at hl
    rw [List.flatMap_cons, List.append_assoc] at ha
    obtain ⟨v, hv, huv, hva, hatt⟩ := hf x List.mem_cons_self u _ hu ha
    have hne : v.att ≠ limit := by omega
    have huw := ((huv.setLast (outcome x)).delay pause).setAtt (v.att + 1)
    obtain ⟨t, ht, hwt, hta, htatt⟩ := ih (fun y hy => hf y (List.mem_cons_of_mem _ hy)) (hu.underway huw) hva
      (show v.att + 1 + fs.length ≤ limit by omega)
    refine ⟨t, ?_, huw.trans hwt, hta, ?_⟩
    · rw [List.length_cons, Nat.add_right_comm, retry_of_failed _ hv hne]
      exact ht
    · rw [htatt, State.setAtt_att, List.length_cons]; omega

/-- Fewer failed attempts than the budget, then one that stalls: the loop stalls there. -/
theorem retryFromOne_stalls {s u : State} {es : List Event} {fs : List α} {as : List Answer} {p : Phase}
    (hf : ∀ x ∈ fs, FailsOn s attempt (answers x) (events x) (outcome x)) (hs : StallsOn s attempt as p es)
    (hu : SameBus s u) (ha : u.answers = fs.flatMap answers ++ as) (hl : fs.length < limit) :
    (retryFromOne attempt limit pause u).StallsFrom u p
      ((fs.flatMap fun x => events x ++ [.delay pause]) ++ es) := by
  obtain ⟨k, rfl⟩ := Nat.exists_eq_add_of_lt hl
  have hu1 := (Underway.refl u).setAtt 1
  obtain ⟨t, ht, hut, hta, -⟩ := retry_after_failures (limit := fs.length + k + 1) (pause := pause) fs hf (k + 1)
    (hu.underway hu1) ha (by rw [State.setAtt_att]; omega)
  have hu1t := hu1.trans hut
  obtain ⟨v, hv, hp, htv⟩ := hs t (hu.underway hu1t) hta
  exact ⟨v, ht.trans (retry_of_stalled k hv), hp, hu1t.trans htv⟩

end Retry

/-! ### The attempts of the two loops -/

/-- An attempt of MREAD is one read, the same throughout the command (42_moisture R196). -/
theorem moistureRead_of_sameBus {s u : State} (hu : SameBus s u) :
    moistureRead u = doRead s.cfg.moistModule s.cfg.moistFunction 2 s.cfg.tMoist u := by
  rw [moistureRead, hu.cfg]

/-- What makes the read of MREAD fail makes the attempt fail. -/
theorem moistureRead_failsOn {s : State} {x : FailedRead} (hx : x.possible 2) :
    FailsOn s moistureRead x.answers
      (x.events s.devAddr s.cfg.moistModule s.cfg.moistFunction 2 s.cfg.tMoist) x.outcome := by
  intro u rest hu ha
  rw [moistureRead_of_sameBus hu]
  exact doRead_failsOn (n := 2) hx u rest hu ha

/-- What makes the read of MREAD stall makes the attempt stall. -/
theorem moistureRead_stallsOn {s : State} {as : List Answer} {p : Phase} {es : List Event}
    (h : StallsOn s (doRead s.cfg.moistModule s.cfg.moistFunction 2 s.cfg.tMoist) as p es) :
    StallsOn s moistureRead as p es := by
  intro u hu ha
  rw [moistureRead_of_sameBus hu]
  exact h u hu ha

section Polls

variable {s u t : State}

/-- The read a poll of RST begins with is the same throughout the command (40_core R146). -/
theorem identityPoll_of_ok (hu : SameBus s u)
    (h : doRead s.cfg.idModule s.cfg.idFunction 1 s.stdDelay u = .ok t) : identityPoll u = identityTest t := by
  simp only [identityPoll, hu.cfg, hu.stdDelay, h]

theorem identityPoll_of_failed {st : Status} {info : Byte} (hu : SameBus s u)
    (h : doRead s.cfg.idModule s.cfg.idFunction 1 s.stdDelay u = .failed st info t) :
    identityPoll u = .failed st info t := by
  simp only [identityPoll, hu.cfg, hu.stdDelay, h]

theorem identityPoll_of_stalled (hu : SameBus s u)
    (h : doRead s.cfg.idModule s.cfg.idFunction 1 s.stdDelay u = .stalled t) : identityPoll u = .stalled t := by
  simp only [identityPoll, hu.cfg, hu.stdDelay, h]

end Polls

theorem identityTest_of_unknownId {s : State} {b : Byte} (hb : s.bufByte 0 = b)
    (h : b ≠ s.cfg.knownIdA ∧ b ≠ s.cfg.knownIdB) : identityTest s = .failed .eBadId b s := by
  simp [identityTest, knownId, hb, h]

/-- A poll fails when its read does, or when the byte it reads is no known identity (40_core R147). -/
theorem identityPoll_failsOn {s : State} {x : FailedPoll} (hx : x.possible s.cfg) :
    FailsOn s identityPoll x.answers (x.events s) x.outcome := by
  intro u rest hu ha
  cases x with
  | read x =>
    obtain ⟨t, ht, hut⟩ := doRead_failsOn (m := s.cfg.idModule) (f := s.cfg.idFunction) (n := 1) (d := s.stdDelay)
      hx u rest hu ha
    exact ⟨t, identityPoll_of_failed hu ht, hut⟩
  | unknownId w b =>
    have hw : TakesPair u s.cfg.idModule s.cfg.idFunction w := State.nextAnswer_scripted ha _
    have hr : Returns u s.cfg.idModule s.cfg.idFunction s.stdDelay (1 : Byte).toNat [b] :=
      afterAddressPhase_nextAnswer_scripted ha _
    obtain ⟨t, ht, hut, hbuf, hta, hatt⟩ := doRead_ok_underway hw hr rfl
    have hb : b ≠ t.cfg.knownIdA ∧ b ≠ t.cfg.knownIdB := by rw [(hu.underway hut).cfg]; exact hx
    rw [FailedPoll.events, ← hu.devAddr]
    exact ⟨t, (identityPoll_of_ok hu ht).trans (identityTest_of_unknownId (hbuf 0 Nat.one_pos) hb), hut,
      by rw [hta, ha]; rfl, hatt⟩

/-- What makes the read of a poll stall makes the poll stall. -/
theorem identityPoll_stallsOn {s : State} {as : List Answer} {p : Phase} {es : List Event}
    (h : StallsOn s (doRead s.cfg.idModule s.cfg.idFunction 1 s.stdDelay) as p es) :
    StallsOn s identityPoll as p es := by
  intro u hu ha
  obtain ⟨t, ht, hut⟩ := h u hu ha
  exact ⟨t, identityPoll_of_stalled hu ht, hut⟩

/-! ### The reads and writes of 30_encoding R124 -/

/-- The commands that are one read. -/
theorem exec_of_readForm {i : Instr} {s : State} {m f n : Byte} {d : Word} (h : readForm s i = some (m, f, n, d)) :
    ∃ finish, exec i s = .next ((doRead m f n d s).conclude finish) := by
  cases i with
  | rdreg | rd | keyrd | keycnt => cases h; exact ⟨_, rfl⟩
  | wrreg | wr | rst | keydec | keyenc | keyint | keycfg | mpush | mavg | mread | csrr | csrw => cases h

/-- The state byte of KEYCFG as a number (30_encoding R107, R108): the mask above the enable flag. -/
theorem keypadState_eq_ofNat (emask : BitVec 4) (en : Bool) :
    keypadState emask en = BitVec.ofNat 8 (2 * emask.toNat + en.toNat) := by
  revert emask en; decide

/-- The commands that are one write. -/
theorem exec_of_writeForm {i : Instr} {s : State} {ws : List Byte} (h : writeForm s i = some ws) :
    ∃ m f bs, ws = m :: f :: bs ∧ exec i s = .next ((doWrite m f bs s).conclude id) := by
  cases i with
  | wrreg m f b => cases h; exact ⟨_, _, _, rfl, rfl⟩
  | wr m f bs => cases h; exact ⟨_, _, _, rfl, rfl⟩
  | keyint en => cases en <;> cases h <;> exact ⟨_, _, _, rfl, rfl⟩
  | keycfg key emask en =>
    cases h
    exact ⟨_, _, _, rfl, by rw [← keypadState_eq_ofNat, exec, execKeycfg]⟩
  | rdreg | rd | rst | keydec | keyenc | keyrd | keycnt | mpush | mavg | mread | csrr | csrw => cases h

/-- A command that is one procedure stalls where the procedure stalls. -/
theorem Result.StallsFrom.conclude {r : Result} {s : State} {p : Phase} {es : List Event} (h : r.StallsFrom s p es)
    (hp : p ≠ .idle) (finish : State → State) : Stalled s (r.conclude finish) p es := by
  obtain ⟨t, rfl, ht, hst⟩ := h
  exact hst.stalled ht hp

/-- Settles O16: the procedure of the command stalls where the transport is silent, and the command with it. -/
theorem silentTransportStallsTheCommand : Obligations.SilentTransportStallsTheCommand := by
  refine ⟨?_, ?_, ?_⟩
  · intro i s m f n d hform h
    obtain ⟨finish, hexec⟩ := exec_of_readForm hform
    exact ⟨_, hexec, (doRead_stallsFrom_addr h).conclude (by decide) finish⟩
  · intro i s m f n d w hform hw h
    obtain ⟨finish, hexec⟩ := exec_of_readForm hform
    exact ⟨_, hexec, (doRead_stallsFrom_data hw h).conclude (by decide) finish⟩
  · intro i s ws hform h
    obtain ⟨m, f, bs, rfl, hexec⟩ := exec_of_writeForm hform
    have hstall : (doWrite m f bs s).StallsFrom s .write [.transaction (.write s.devAddr (m :: f :: bs)) .silent] :=
      ⟨_, doWrite_of_silent rfl h, rfl, (Underway.refl s).transact .write h⟩
    exact ⟨_, hexec, hstall.conclude (by decide) id⟩

/-! ### RST -/

/-- RST has begun (40_core R146): its loop registers are set and `HS` is `Resetting`. -/
def State.startRst (s : State) : State := s.startLoop.setHs .resetting

@[simp] theorem State.startRst_devAddr (s : State) : s.startRst.devAddr = s.devAddr := rfl
@[simp] theorem State.startRst_answers (s : State) : s.startRst.answers = s.answers := rfl
@[simp] theorem State.startRst_nextAnswer (s : State) (t : Transaction) :
    s.startRst.nextAnswer t = s.nextAnswer t := by
  simp [State.startRst]

theorem sameBus_startRst (s : State) : SameBus s s.startRst := ⟨rfl, rfl, rfl⟩

theorem execRst_of_write_stalled {s t : State}
    (h : doWrite s.cfg.rstModule s.cfg.rstFunction s.cfg.rstPayload s.startRst = .stalled t) :
    exec .rst s = .next t := by
  rw [State.startRst] at h
  simp only [exec, execRst, h]

theorem execRst_of_write_ok {s t : State}
    (h : doWrite s.cfg.rstModule s.cfg.rstFunction s.cfg.rstPayload s.startRst = .ok t) :
    exec .rst s = .next (handshakePolls (t.delay t.cfg.tResetSettle)) := by
  rw [State.startRst] at h
  simp only [exec, execRst, h]

theorem handshakePolls_of_stalled {s u t : State} (hu : SameBus s u)
    (h : retryFromOne identityPoll s.cfg.nIdTry s.cfg.tIdRetry u = .stalled t) : handshakePolls u = t := by
  simp only [handshakePolls, hu.cfg, h]

/-- An RST on its way that stands in a phase other than `IDLE`: `HS` is `Resetting`, and nothing else that only its
end may change is changed. -/
theorem Underway.rst_stalled {s t : State} {p : Phase} {es : List Event} (h : Underway s.startRst t es)
    (hp : t.seq = p) (hi : p ≠ .idle) :
    t.hs = .resetting ∧ t.hwId = s.hwId ∧ SameSettings s t ∧ SameRing s t ∧ Stalled s t p es := by
  have hstall := h.stalled hp hi
  obtain ⟨hset, ⟨hhs, hid⟩, hring, -⟩ := h
  exact ⟨by simpa [State.startRst] using hhs, by simpa [State.startRst] using hid,
    by simpa [SameSettings, State.startRst] using hset, by simpa [SameRing, State.startRst] using hring,
    by simpa [Stalled, State.startRst] using hstall⟩

/-- After the reset write and `fs` failed polls, RST stalls where the next poll does. -/
theorem execRst_stalls_at_poll {s : State} {w0 : List Byte} {fs : List FailedPoll} {as : List Answer} {p : Phase}
    {es : List Event} (hl : fs.length < s.cfg.nIdTry) (hf : ∀ x ∈ fs, x.possible s.cfg)
    (ha : s.answers = .reply (.ok w0) :: fs.flatMap FailedPoll.answers ++ as)
    (hs : StallsOn s (doRead s.cfg.idModule s.cfg.idFunction 1 s.stdDelay) as p es) :
    ∃ t, exec .rst s = .next t ∧ t.seq = p ∧ Underway s.startRst t
      (resetEvents s w0 ++ fs.flatMap (fun x => x.events s ++ [.delay s.cfg.tIdRetry]) ++ es) := by
  have hw : s.startRst.nextAnswer (.write s.devAddr (s.cfg.rstModule :: s.cfg.rstFunction :: s.cfg.rstPayload)) =
      .reply (.ok w0) := by
    rw [State.startRst_nextAnswer, State.nextAnswer_scripted ha]
  have hwrite := (Underway.refl s.startRst).transact .write hw
  have hreset := hwrite.delay s.cfg.tResetSettle
  have hbus := (sameBus_startRst s).underway hreset
  obtain ⟨t, ht, hp, hut⟩ := retryFromOne_stalls (pause := s.cfg.tIdRetry)
    (fun x hx => identityPoll_failsOn (hf x hx)) (identityPoll_stallsOn hs) hbus (by simp [ha]) hl
  have hexec := execRst_of_write_ok (doWrite_of_ok (State.startRst_devAddr s) hw)
  rw [((sameBus_startRst s).underway hwrite).cfg, handshakePolls_of_stalled hbus ht] at hexec
  refine ⟨t, hexec, hp, ?_⟩
  rw [List.append_assoc]
  exact hreset.trans hut

/-- Settles O58: the reset write stalls at once; a poll stalls in its read, whose phases are those of `doRead`. -/
theorem silentTransportStallsRst : Obligations.SilentTransportStallsRst := by
  intro s
  refine ⟨?_, ?_⟩
  · rintro ws rfl h
    rw [← State.startRst_nextAnswer] at h
    have hwrite := (Underway.refl s.startRst).transact .write h
    exact ⟨_, execRst_of_write_stalled (doWrite_of_silent (State.startRst_devAddr s) h),
      hwrite.rst_stalled rfl (by decide)⟩
  · rintro w0 fs polled hl hf rfl
    refine ⟨fun rest ha => ?_, fun w rest ha => ?_⟩
    · obtain ⟨t, ht, hp, hst⟩ := execRst_stalls_at_poll hl hf ha (doRead_stallsOn_addr rest)
      exact ⟨t, ht, hst.rst_stalled hp (by decide)⟩
    · obtain ⟨t, ht, hp, hst⟩ := execRst_stalls_at_poll hl hf ha (doRead_stallsOn_data w rest)
      exact ⟨t, ht, hst.rst_stalled hp (by decide)⟩

/-! ### MREAD -/

theorem execMread_of_stalled {s t : State}
    (h : retryFromOne moistureRead Config.moistTries s.cfg.tMoistBackoff s.startLoop = .stalled t) :
    exec .mread s = .next t := by
  simp only [exec, execMread, h]

theorem sameBus_startLoop (s : State) : SameBus s s.startLoop := ⟨rfl, rfl, rfl⟩

/-- After `fs` failed attempts, MREAD stalls where the next attempt does. -/
theorem execMread_stalls_at_attempt {s : State} {fs : List FailedRead} {as : List Answer} {p : Phase}
    {es : List Event} (hl : fs.length < 5) (hf : ∀ x ∈ fs, x.possible 2)
    (ha : s.answers = fs.flatMap FailedRead.answers ++ as)
    (hs : StallsOn s (doRead s.cfg.moistModule s.cfg.moistFunction 2 s.cfg.tMoist) as p es) :
    ∃ t, exec .mread s = .next t ∧ t.seq = p ∧ Underway s t
      (fs.flatMap (fun x => x.events s.devAddr s.cfg.moistModule s.cfg.moistFunction 2 s.cfg.tMoist ++
        [.delay s.cfg.tMoistBackoff]) ++ es) := by
  have hstart := (Underway.refl s).startLoop
  obtain ⟨t, ht, hp, hut⟩ := retryFromOne_stalls (limit := Config.moistTries) (pause := s.cfg.tMoistBackoff)
    (fun x hx => moistureRead_failsOn (hf x hx)) (moistureRead_stallsOn hs)
    (sameBus_startLoop s) ha hl
  exact ⟨t, execMread_of_stalled ht, hp, hstart.trans hut⟩

/-- Settles O59: an attempt stalls in its read, whose phases are those of `doRead`. -/
theorem silentTransportStallsMread : Obligations.SilentTransportStallsMread := by
  rintro s fs tried hl hf rfl
  refine ⟨fun rest ha => ?_, fun w rest ha => ?_⟩
  · obtain ⟨t, ht, hp, hst⟩ := execMread_stalls_at_attempt hl hf ha (doRead_stallsOn_addr rest)
    exact ⟨t, ht, hst.settings, hst.handshake, hst.ring, hst.stalled hp (by decide)⟩
  · obtain ⟨t, ht, hp, hst⟩ := execMread_stalls_at_attempt hl hf ha (doRead_stallsOn_data w rest)
    exact ⟨t, ht, hst.settings, hst.handshake, hst.ring, hst.stalled hp (by decide)⟩

end Sys2Proof.Machine
end

section
/-!
PROOFS. What a step, and every command in it, can end in: the two inversion lemmas `step_cases` and `exec_ends`, from
which the statements about the state (10_state) are derived.
-/
namespace Sys2Proof

/-! ### Legal configurations (00_scope R7) -/

theorem Config.one_le_ringCap (c : Config) : 1 ≤ c.ringCap := by
  have h := c.legal
  simp only [Params.legal, Bool.and_eq_true, decide_eq_true_eq] at h
  obtain ⟨⟨-, hcap⟩, -⟩ := h
  exact hcap

theorem Config.one_le_nIdTry (c : Config) : 1 ≤ c.nIdTry := by
  have h := c.legal
  simp only [Params.legal, Bool.and_eq_true, decide_eq_true_eq] at h
  obtain ⟨⟨⟨⟨⟨-, hid⟩, -⟩, -⟩, -⟩, -⟩ := h
  exact hid

end Sys2Proof

namespace Sys2Proof.Machine

/-! ### One step -/

theorem State.fetch_of_reset {s : State} {rest : List HostInput} (hs : s.seq = .idle)
    (hi : s.inputs = .reset :: rest) : s.fetch = .reset rest := by
  simp only [State.fetch, hs, hi]

/-- What the block takes from the host, it takes while it is idle (60_exceptions R252). -/
theorem State.seq_of_fetch {s : State} (h : s.fetch ≠ .nothing) : s.seq = .idle := by
  by_contra hs
  exact h (by simp [State.fetch, hs])

/-- Everything a step can be: nothing, or, of an idle block, its reset, the rejection of a descriptor, or a command. -/
theorem step_cases {s t : State} (h : step s = .next t) :
    t = s ∨ s.seq = .idle ∧
      ((∃ rest, t = s.applyReset rest) ∨ (∃ d rest, t = (s.accept d rest).rejectDescriptor) ∨
        ∃ i d rest, exec i (s.accept d rest) = .next t) := by
  unfold step at h
  cases hf : s.fetch with
  | nothing => rw [hf] at h; cases h; exact .inl rfl
  | reset rest =>
    rw [hf] at h
    cases h
    exact .inr ⟨State.seq_of_fetch (by simp [hf]), .inl ⟨rest, rfl⟩⟩
  | command d rest =>
    rw [hf] at h
    refine .inr ⟨State.seq_of_fetch (by simp [hf]), .inr ?_⟩
    cases hd : decode d with
    | error e => simp only [hd] at h; cases h; exact .inl ⟨d, rest, rfl⟩
    | ok i => simp only [hd] at h; exact .inr ⟨i, d, rest, h⟩

/-! ### A command that has not ended -/

theorem Underway.enter {s t : State} {es : List Event} (h : Underway s t es) (p : Phase) :
    Underway s (t.enter p) es :=
  ⟨h.settings, h.handshake, h.ring, h.outside, h.response, h.st, h.sub, h.info, h.trace⟩

theorem Underway.issue {s t : State} {es : List Event} (h : Underway s t es) (x : Transaction) :
    Underway s (t.issue x) (es ++ [.transaction x (t.nextAnswer x)]) :=
  ⟨h.settings, h.handshake, h.ring, h.outside, h.response, h.st, h.sub, h.info, by simp [h.trace]⟩

theorem Underway.countDraw {s t : State} {es : List Event} (h : Underway s t es) : Underway s t.countDraw es :=
  ⟨h.settings, h.handshake, h.ring, h.outside, h.response, h.st, h.sub, h.info, h.trace⟩

/-- `BUF` holds what it held, or the bytes of a read, which are no events yet (10_state R29, R30). -/
def KeepsOrLoadsBuf (s t : State) : Prop :=
  (t.buf = s.buf ∧ t.blen = s.blen ∧ t.evtValid = s.evtValid) ∨
    ∃ bs : List Byte, bs.length ≤ 255 ∧ t.buf = Memory.ofBytes 0 bs ∧ t.blen = BitVec.ofNat 8 bs.length ∧
      t.evtValid = false

/-- A command begun in `s` has come to `t` without ending and without a write of its own, but for `R`, the loop
registers and what its reads loaded. -/
structure Running (s t : State) : Prop where
  underway : ∃ es, Underway s t es
  buffer : KeepsOrLoadsBuf s t

namespace Running

variable {s t : State}

theorem refl (s : State) : Running s s := ⟨⟨[], .refl s⟩, .inl ⟨rfl, rfl, rfl⟩⟩

theorem settings (h : Running s t) : SameSettings s t := let ⟨_, u⟩ := h.underway; u.settings
theorem handshake (h : Running s t) : SameHandshake s t := let ⟨_, u⟩ := h.underway; u.handshake
theorem ring (h : Running s t) : SameRing s t := let ⟨_, u⟩ := h.underway; u.ring
theorem outside (h : Running s t) : SameOutside s t := let ⟨_, u⟩ := h.underway; u.outside

theorem statusAllowed (h : Running s t) (hs : statusAllowed s.st s.sub s.info) :
    statusAllowed t.st t.sub t.info := by
  obtain ⟨_, u⟩ := h.underway
  rw [u.st, u.sub, u.info]
  exact hs

theorem enter (h : Running s t) (p : Phase) : Running s (t.enter p) :=
  ⟨h.underway.imp fun _ u => u.enter p, h.buffer⟩

theorem issue (h : Running s t) (x : Transaction) : Running s (t.issue x) :=
  ⟨let ⟨_, u⟩ := h.underway; ⟨_, u.issue x⟩, h.buffer⟩

theorem delay (h : Running s t) (d : Word) : Running s (t.delay d) :=
  ⟨let ⟨_, u⟩ := h.underway; ⟨_, u.delay d⟩, h.buffer⟩

theorem loadBuf (h : Running s t) {bs : List Byte} (hl : bs.length ≤ 255) : Running s (t.loadBuf bs) :=
  ⟨h.underway.imp fun _ u => u.loadBuf bs, .inr ⟨bs, hl, rfl, rfl, rfl⟩⟩

theorem setAtt (h : Running s t) (n : Nat) : Running s (t.setAtt n) :=
  ⟨h.underway.imp fun _ u => u.setAtt n, h.buffer⟩

theorem setLast (h : Running s t) (l : Status × Byte) : Running s (t.setLast l) :=
  ⟨h.underway.imp fun _ u => u.setLast l, h.buffer⟩

theorem countDraw (h : Running s t) : Running s t.countDraw :=
  ⟨h.underway.imp fun _ u => u.countDraw, h.buffer⟩

theorem startLoop (h : Running s t) : Running s t.startLoop :=
  ⟨h.underway.imp fun _ u => u.startLoop, h.buffer⟩

end Running

/-! ### The core procedures -/

/-- The failures of a read or a write may stand as `SUB` and `INFO` beside `E_RETRY`, and alone (60_exceptions R221). -/
theorem statusAllowed_alone {st : Status} {info : Byte} (h : statusAllowed .eRetry st info) :
    statusAllowed st .ok info := by
  rcases h with ⟨rfl, h⟩ | rfl
  · exact ⟨rfl, h⟩
  · exact rfl

/-- What a read or a write called in `u` comes back with, in a command begun in `s`. -/
inductive Called (s u : State) : Result → Prop where
  | ok {t : State} (ht : Running s t) (hl : SameLoop u t) : Called s u (.ok t)
  | failed {st : Status} {info : Byte} {t : State} (ht : Running s t) (hl : SameLoop u t)
      (ha : statusAllowed .eRetry st info) : Called s u (.failed st info t)
  | stalled {t : State} (ht : Running s t) (hl : SameLoop u t) (hp : t.seq ≠ .idle) : Called s u (.stalled t)

theorem Called.state_att {s u : State} {r : Result} (h : Called s u r) : r.state.att = u.att := by
  cases h with
  | ok _ hl | failed _ hl | stalled _ hl => exact hl.1

theorem Called.running_of_failed {s u t : State} {st : Status} {info : Byte} (h : Called s u (.failed st info t)) :
    Running s t := by
  cases h with
  | failed ht => exact ht

theorem doWrite_called {s u : State} (h : Running s u) (m f : Byte) (ws : List Byte) :
    Called s u (doWrite m f ws u) := by
  have hu := (h.enter .write).issue (.write u.devAddr (m :: f :: ws))
  rcases doWrite_cases m f ws u with ⟨-, hr⟩ | ⟨e, -, hr⟩ | ⟨w, -, hr⟩ <;> rw [hr]
  · exact .stalled hu ⟨rfl, rfl⟩ (by simp)
  · exact .failed hu ⟨rfl, rfl⟩ (.inl ⟨rfl, errorCode_ne_zero e⟩)
  · exact .ok hu ⟨rfl, rfl⟩

theorem dataPhase_called {s u : State} (h : Running s u) (n : Byte) : Called s u (dataPhase n u) := by
  have hu := (h.enter .data).issue (.read u.devAddr n.toNat)
  rcases dataPhase_cases n u with ⟨-, hr⟩ | ⟨e, -, hr⟩ | ⟨bs, -, -, hr⟩ | ⟨bs, -, hl, hr⟩ <;> rw [hr]
  · exact .stalled hu ⟨rfl, rfl⟩ (by simp)
  · exact .failed hu ⟨rfl, rfl⟩ (.inl ⟨rfl, errorCode_ne_zero e⟩)
  · exact .failed hu ⟨rfl, rfl⟩ (.inr rfl)
  · exact .ok (hu.loadBuf (by have := n.isLt; omega)) ⟨rfl, rfl⟩

/-- What kept the loop registers before the call leaves the call what it was. -/
theorem Called.of_sameLoop {s u v : State} {r : Result} (h : Called s v r) (hv : SameLoop u v) : Called s u r := by
  cases h with
  | ok ht hl => exact .ok ht ⟨hl.1.trans hv.1, hl.2.trans hv.2⟩
  | failed ht hl ha => exact .failed ht ⟨hl.1.trans hv.1, hl.2.trans hv.2⟩ ha
  | stalled ht hl hp => exact .stalled ht ⟨hl.1.trans hv.1, hl.2.trans hv.2⟩ hp

theorem doRead_called {s u : State} (h : Running s u) (m f n : Byte) (d : Word) :
    Called s u (doRead m f n d u) := by
  have hu := (h.enter .addr).issue (.write u.devAddr [m, f])
  rcases doRead_cases m f n d u with ⟨-, hr⟩ | ⟨e, -, hr⟩ | ⟨w, -, hr⟩ <;> rw [hr]
  · exact .stalled hu ⟨rfl, rfl⟩ (by simp)
  · exact .failed hu ⟨rfl, rfl⟩ (.inl ⟨rfl, errorCode_ne_zero e⟩)
  · exact (dataPhase_called (hu.delay d) n).of_sameLoop ⟨rfl, rfl⟩

/-! ### The retry loop -/

/-- A failed attempt is noted in `LAST` (10_state R34). -/
def Result.noteFailure : Result → Result
  | .ok t => .ok t
  | .failed st info t => .failed st info (t.setLast (st, info))
  | .stalled t => .stalled t

/-- Within its budget the retry loop ends as the last of its attempts does: what a failed attempt, its note and the
pause keep, still holds when that attempt is made. -/
theorem retry_eq_lastAttempt {P : State → Prop} {attempt : State → Result} {limit : Nat} {pause : Word}
    (hatt : ∀ u, (attempt u).state.att = u.att)
    (hnext : ∀ u st info t, P u → attempt u = .failed st info t →
      P (((t.setLast (st, info)).delay pause).setAtt (t.att + 1)))
    (fuel : Nat) {s : State} (h : P s) (h1 : 1 ≤ s.att) (hle : s.att ≤ limit) (hfuel : limit < s.att + fuel) :
    ∃ u, P u ∧ 1 ≤ u.att ∧ u.att ≤ limit ∧ retry attempt limit pause fuel s = (attempt u).noteFailure := by
  induction fuel generalizing s with
  | zero => omega
  | succ fuel ih =>
    cases hr : attempt s with
    | ok t => exact ⟨s, h, h1, hle, by simp [retry, hr, Result.noteFailure]⟩
    | stalled t => exact ⟨s, h, h1, hle, by simp [retry, hr, Result.noteFailure]⟩
    | failed st info t =>
      have ht : t.att = s.att := by simpa [hr, Result.state] using hatt s
      by_cases hlim : t.att = limit
      · exact ⟨s, h, h1, hle, by simp [retry, hr, hlim, Result.noteFailure]⟩
      · rw [retry_of_failed fuel hr hlim]
        refine ih (hnext s st info t h hr) ?_ ?_ ?_ <;> rw [State.setAtt_att] <;> omega

/-- A command begun in `s` makes an attempt of its loop, which has a budget of `limit`. -/
structure Looping (s : State) (limit : Nat) (u : State) : Prop where
  running : Running s u
  att_pos : 1 ≤ u.att
  att_le : u.att ≤ limit

/-- The loop from its start, when a failed attempt is a command on its way. -/
theorem retryFromOne_eq_lastAttempt {s u : State} {attempt : State → Result} {limit : Nat} {pause : Word}
    (hatt : ∀ u, (attempt u).state.att = u.att)
    (hfail : ∀ u st info t, Running s u → attempt u = .failed st info t → Running s t)
    (hu : Running s u) (hlimit : 1 ≤ limit) :
    ∃ v, Looping s limit v ∧ retryFromOne attempt limit pause u = (attempt v).noteFailure := by
  obtain ⟨v, hv, h1, hle, hr⟩ := retry_eq_lastAttempt (P := Running s) (pause := pause) hatt
    (fun u st info t h hr => (((hfail u st info t h hr).setLast _).delay _).setAtt _) limit (hu.setAtt 1)
    (Nat.le_refl 1) hlimit (by rw [State.setAtt_att]; omega)
  exact ⟨v, ⟨hv, h1, hle⟩, hr⟩

/-! ### RST -/

/-- What a poll that reads a known identity byte writes (40_core R147). -/
def State.acceptId (b : Byte) (s : State) : State := ((s.setHwId b).setR (b.setWidth 32)).setHs .ready

theorem identityTest_cases (s : State) :
    identityTest s = .ok (s.acceptId (s.bufByte 0)) ∨ identityTest s = .failed .eBadId (s.bufByte 0) s := by
  by_cases h : knownId s.cfg (s.bufByte 0) = true
  · exact .inl (by simp [identityTest, h, State.acceptId])
  · exact .inr (by simp [identityTest, h])

/-- What a poll of RST made in `u` comes back with, in a command begun in `s`. -/
inductive Polled (s u : State) : Result → Prop where
  | identified {t : State} (b : Byte) (ht : Running s t) (hl : SameLoop u t) : Polled s u (.ok (t.acceptId b))
  | failed {st : Status} {info : Byte} {t : State} (ht : Running s t) (hl : SameLoop u t)
      (ha : statusAllowed .eHandshake st info) : Polled s u (.failed st info t)
  | stalled {t : State} (ht : Running s t) (hl : SameLoop u t) (hp : t.seq ≠ .idle) : Polled s u (.stalled t)

theorem Polled.state_att {s u : State} {r : Result} (h : Polled s u r) : r.state.att = u.att := by
  cases h with
  | identified _ _ hl | failed _ hl | stalled _ hl => exact hl.1

theorem Polled.running_of_failed {s u t : State} {st : Status} {info : Byte} (h : Polled s u (.failed st info t)) :
    Running s t := by
  cases h with
  | failed ht => exact ht

theorem identityPoll_polled {s u : State} (h : Running s u) : Polled s u (identityPoll u) := by
  unfold identityPoll
  have hread := doRead_called h u.cfg.idModule u.cfg.idFunction 1 u.stdDelay
  revert hread
  cases doRead u.cfg.idModule u.cfg.idFunction 1 u.stdDelay u with
  | ok t =>
    rintro (⟨ht, hl⟩ | _ | _)
    rcases identityTest_cases t with hr | hr <;> simp only [hr]
    · exact .identified _ ht hl
    · exact .failed ht hl (.inr (.inr rfl))
  | failed st info t =>
    rintro (_ | ⟨ht, hl, ha⟩ | _)
    exact .failed ht hl (ha.imp_right .inl)
  | stalled t =>
    rintro (_ | _ | ⟨ht, hl, hp⟩)
    exact .stalled ht hl hp

/-- Everything RST can end in (40_core R146 to R149), and what it is when the transport falls silent. -/
inductive RstEnds (s : State) : State → Prop where
  | stalled {u : State} (hu : Looping s.startRst s.cfg.nIdTry u) (hp : u.seq ≠ .idle) : RstEnds s u
  | writeFailed {u : State} {st : Status} {info : Byte} (hu : Looping s.startRst s.cfg.nIdTry u)
      (ha : statusAllowed st .ok info) : RstEnds s (u.failHandshake st .ok info)
  | pollsSpent {u : State} {st : Status} {info : Byte} (hu : Looping s.startRst s.cfg.nIdTry u)
      (hlast : u.last = (st, info)) (ha : statusAllowed .eHandshake st info) :
      RstEnds s (u.failHandshake .eHandshake st info)
  | ready {u : State} (b : Byte) (hu : Looping s.startRst s.cfg.nIdTry u) : RstEnds s (u.acceptId b).returnOk

theorem handshakePolls_ends {s u : State} (h : Running s.startRst u) : RstEnds s (handshakePolls u) := by
  have hcfg : u.cfg = s.cfg := h.outside.1
  obtain ⟨v, ⟨hv, h1, hle⟩, hr⟩ := retryFromOne_eq_lastAttempt (pause := s.cfg.tIdRetry)
    (fun u => (identityPoll_polled (.refl u)).state_att)
    (fun _ _ _ _ hu hr => (hr ▸ identityPoll_polled hu).running_of_failed) h s.cfg.one_le_nIdTry
  have hpoll := identityPoll_polled hv
  revert hr hpoll
  unfold handshakePolls
  rw [hcfg]
  cases identityPoll v with
  | ok t =>
    rintro hr (⟨b, ht, hl⟩ | _ | _)
    rw [hr]
    exact .ready b ⟨ht, hl.1 ▸ h1, hl.1 ▸ hle⟩
  | failed st info t =>
    rintro hr (_ | ⟨ht, hl, ha⟩ | _)
    rw [hr]
    exact .pollsSpent ⟨ht.setLast _, hl.1 ▸ h1, hl.1 ▸ hle⟩ rfl ha
  | stalled t =>
    rintro hr (_ | _ | ⟨ht, hl, hp⟩)
    rw [hr]
    exact .stalled ⟨ht, hl.1 ▸ h1, hl.1 ▸ hle⟩ hp

theorem execRst_of_write_failed {s t : State} {st : Status} {info : Byte}
    (h : doWrite s.cfg.rstModule s.cfg.rstFunction s.cfg.rstPayload s.startRst = .failed st info t) :
    exec .rst s = .next (t.failHandshake st .ok info) := by
  rw [State.startRst] at h
  simp only [exec, execRst, h]

theorem execRst_ends {s t : State} (h : exec .rst s = .next t) : RstEnds s t := by
  have hlim := s.cfg.one_le_nIdTry
  have hwrite := doWrite_called (Running.refl s.startRst) s.cfg.rstModule s.cfg.rstFunction s.cfg.rstPayload
  cases hr : doWrite s.cfg.rstModule s.cfg.rstFunction s.cfg.rstPayload s.startRst with
  | ok u =>
    rw [hr] at hwrite
    rw [execRst_of_write_ok hr] at h
    cases h; cases hwrite with
    | ok hu hl => exact handshakePolls_ends (hu.delay _)
  | failed st info u =>
    rw [hr] at hwrite
    rw [execRst_of_write_failed hr] at h
    cases h; cases hwrite with
    | failed hu hl ha => exact .writeFailed ⟨hu, hl.1.ge, hl.1 ▸ hlim⟩ (statusAllowed_alone ha)
  | stalled u =>
    rw [hr] at hwrite
    rw [execRst_of_write_stalled hr] at h
    cases h; cases hwrite with
    | stalled hu hl hp => exact .stalled ⟨hu, hl.1.ge, hl.1 ▸ hlim⟩ hp

/-! ### MREAD -/

/-- Everything MREAD can end in (42_moisture R196, R197), and what it is when the transport falls silent. -/
inductive MreadEnds (s : State) : State → Prop where
  | stalled {u : State} (hu : Looping s Config.moistTries u) (hp : u.seq ≠ .idle) : MreadEnds s u
  | attemptsSpent {u : State} {st : Status} {info : Byte} (hu : Looping s Config.moistTries u)
      (hlast : u.last = (st, info)) (ha : statusAllowed .eRetry st info) : MreadEnds s (u.fail .eRetry st info)
  | sampled {u : State} (hu : Looping s Config.moistTries u) : MreadEnds s u.takeSample.returnOk

theorem moistureRead_called {s u : State} (h : Running s u) : Called s u (moistureRead u) := doRead_called h ..

theorem execMread_ends {s t : State} (h : exec .mread s = .next t) : MreadEnds s t := by
  obtain ⟨v, ⟨hv, h1, hle⟩, hr⟩ := retryFromOne_eq_lastAttempt (limit := Config.moistTries)
    (pause := s.cfg.tMoistBackoff) (fun u => (moistureRead_called (.refl u)).state_att)
    (fun _ _ _ _ hu hr => (hr ▸ moistureRead_called hu).running_of_failed) (Running.refl s).startLoop (by decide)
  have hread := moistureRead_called hv
  revert hr hread
  simp only [exec, execMread] at h
  cases moistureRead v with
  | ok u =>
    rintro hr (⟨hu, hl⟩ | _ | _)
    rw [hr] at h
    cases h
    exact .sampled ⟨hu, hl.1 ▸ h1, hl.1 ▸ hle⟩
  | failed st info u =>
    rintro hr (_ | ⟨hu, hl, ha⟩ | _)
    rw [hr] at h
    cases h
    exact .attemptsSpent ⟨hu.setLast _, hl.1 ▸ h1, hl.1 ▸ hle⟩ rfl ha
  | stalled u =>
    rintro hr (_ | _ | ⟨hu, hl, hp⟩)
    rw [hr] at h
    cases h
    exact .stalled ⟨hu, hl.1 ▸ h1, hl.1 ▸ hle⟩ hp

/-! ### Every command -/

/-- Everything a command can end in, and what it is when the transport falls silent. -/
inductive Ends (s : State) : Instr → State → Prop where
  /-- `return OK`; the one write of its own is `R`, if any. -/
  | returned {i : Instr} {u : State} (v : Word) (hu : Running s u) (hl : SameLoop s u) : Ends s i (u.setR v).returnOk
  | keyrd {u : State} (n : Byte) (hu : Running s u) (hl : SameLoop s u) : Ends s (.keyrd n) u.markEvents.returnOk
  | failed {i : Instr} {u : State} {st : Status} {info : Byte} (hu : Running s u) (hl : SameLoop s u)
      (ha : statusAllowed st .ok info) : Ends s i (u.fail st .ok info)
  | stalled {i : Instr} {u : State} (hu : Running s u) (hl : SameLoop s u) (hp : u.seq ≠ .idle) : Ends s i u
  | devAddr (v : Word) : Ends s (.csrw 0x0000 v) (s.writeCsr .devAddr v).returnOk
  | stdDelay (v : Word) : Ends s (.csrw 0x0002 v) (s.writeCsr .stdDelay v).returnOk
  | mpush (v : Half) : Ends s (.mpush v) (s.push v).returnOk
  | rst {t : State} (h : RstEnds s t) : Ends s .rst t
  | mread {t : State} (h : MreadEnds s t) : Ends s .mread t

/-- A command that is one procedure ends as the procedure does; `finish` is its own end after `Ok`. -/
theorem Called.conclude_ends {i : Instr} {s : State} {r : Result} {finish : State → State} (h : Called s s r)
    (hok : ∀ u, Running s u → SameLoop s u → Ends s i (finish u).returnOk) : Ends s i (r.conclude finish) := by
  cases h with
  | ok hu hl => exact hok _ hu hl
  | failed hu hl ha => exact .failed hu hl (statusAllowed_alone ha)
  | stalled hu hl hp => exact .stalled hu hl hp

/-- `return OK` without a write. -/
theorem Ends.unchanged {i : Instr} {s u : State} (hu : Running s u) (hl : SameLoop s u) : Ends s i u.returnOk :=
  .returned u.r hu hl

/-- Reading a CSR draws a value, or changes nothing (43_csr R210). -/
theorem State.afterCsrRead_cases (s : State) (x : Csr) : s.afterCsrRead x = s ∨ s.afterCsrRead x = s.countDraw := by
  cases x with
  | buf i =>
    by_cases hi : i < s.blen.toNat
    · exact .inl (if_pos hi)
    · exact .inr (if_neg hi)
  | devAddr | hwId | stdDelay | hs | status | r | blen | cur | ringCap | ring => exact .inl rfl

theorem execCsrr_ends {s t : State} {c : Half} (h : exec (.csrr c) s = .next t) : Ends s (.csrr c) t := by
  simp only [exec, execCsrr] at h
  cases hc : csrOf s.cfg.ringCap c with
  | none => rw [hc] at h; cases h; exact .failed (.refl s) ⟨rfl, rfl⟩ ⟨rfl, by decide⟩
  | some x =>
    simp only [hc] at h
    cases h
    rcases s.afterCsrRead_cases x with hx | hx <;> rw [hx]
    · exact .returned _ (.refl s) ⟨rfl, rfl⟩
    · exact .returned _ (Running.refl s).countDraw ⟨rfl, rfl⟩

theorem execCsrw_ends {s t : State} {c : Half} {v : Word} (h : exec (.csrw c v) s = .next t) :
    Ends s (.csrw c v) t := by
  have hrefused : ∀ k : Byte, k.toNat ≤ 2 → Ends s (.csrw c v) (s.fail .eBadCsr .ok k) :=
    fun k hk => .failed (.refl s) ⟨rfl, rfl⟩ ⟨rfl, hk⟩
  simp only [exec, execCsrw] at h
  cases hc : csrOf s.cfg.ringCap c with
  | none => rw [hc] at h; cases h; exact hrefused 0 (by decide)
  | some x =>
    simp only [hc] at h
    cases hw : x.writableWidth with
    | none => simp only [hw] at h; cases h; exact hrefused 1 (by decide)
    | some w =>
      simp only [hw] at h
      split at h
      · cases h; exact hrefused 2 (by decide)
      · cases h
        rcases csrOf_writable hc (by simp [hw]) with ⟨rfl, rfl⟩ | ⟨rfl, rfl⟩
        · exact .devAddr v
        · exact .stdDelay v

/-- Everything `exec` can do. -/
theorem exec_ends {i : Instr} {s t : State} (h : exec i s = .next t) : Ends s i t := by
  have hcall (m f n : Byte) (d : Word) := doRead_called (Running.refl s) m f n d
  have hwrite (m f : Byte) (ws : List Byte) := doWrite_called (Running.refl s) m f ws
  cases i with
  | rdreg | keycnt => cases h; exact (hcall ..).conclude_ends fun u hu hl => .returned _ hu hl
  | rd => cases h; exact (hcall ..).conclude_ends fun u hu hl => .unchanged hu hl
  | keyrd n => cases h; exact (hcall ..).conclude_ends fun u hu hl => .keyrd n hu hl
  | wrreg | wr | keyint | keycfg => cases h; exact (hwrite ..).conclude_ends fun u hu hl => .unchanged hu hl
  | keydec | keyenc | mavg => cases h; exact .returned _ (.refl s) ⟨rfl, rfl⟩
  | mpush v => cases h; exact .mpush v
  | rst => exact .rst (execRst_ends h)
  | mread => exact .mread (execMread_ends h)
  | csrr => exact execCsrr_ends h
  | csrw => exact execCsrw_ends h

end Sys2Proof.Machine
end

section
/-!
PROOFS. The statements about the state (10_state), each from what every command can end in (`exec_ends`): first which
registers a command keeps, then the statements.
-/
namespace Sys2Proof.Machine

/-! ### The registers that outlive a command -/

/-- No register that outlives the commands has changed (10_state R23 to R26, R36, R37), nor has the outside. -/
structure SamePersistent (s t : State) : Prop where
  settings : SameSettings s t
  handshake : SameHandshake s t
  ring : SameRing s t
  outside : SameOutside s t

namespace SamePersistent

variable {s t : State}

theorem returnOk (h : SamePersistent s t) : SamePersistent s t.returnOk :=
  ⟨h.settings, h.handshake, h.ring, h.outside⟩

theorem fail (h : SamePersistent s t) (st sub : Status) (info : Byte) : SamePersistent s (t.fail st sub info) :=
  ⟨h.settings, h.handshake, h.ring, h.outside⟩

theorem setR (h : SamePersistent s t) (v : Word) : SamePersistent s (t.setR v) :=
  ⟨h.settings, h.handshake, h.ring, h.outside⟩

theorem markEvents (h : SamePersistent s t) : SamePersistent s t.markEvents :=
  ⟨h.settings, h.handshake, h.ring, h.outside⟩

end SamePersistent

theorem Running.persistent {s t : State} (h : Running s t) : SamePersistent s t :=
  ⟨h.settings, h.handshake, h.ring, h.outside⟩

theorem State.push_of_zero {v : Half} (h : v = 0) (s : State) : s.push v = s := if_pos h

/-- `Push` looks at nothing but the ring. -/
theorem State.push_sameRing {s t : State} (h : SameRing s t) (hc : t.cfg = s.cfg) (v : Half) :
    SameRing (s.push v) (t.push v) := by
  by_cases hv : v = 0
  · rw [State.push_of_zero hv, State.push_of_zero hv]; exact h
  · rw [State.push_nonzero hv, State.push_nonzero hv]
    exact ⟨by rw [h.1, h.2], by rw [h.2, hc]⟩

/-- Which of the registers that outlive a command it may have changed, from `s` to `t`. -/
inductive OwnWrites (s t : State) : Instr → Prop where
  | none {i : Instr} (h : SamePersistent s t) : OwnWrites s t i
  | devAddr (v : Word) (hd : t.stdDelay = s.stdDelay) (hh : SameHandshake s t) (hr : SameRing s t)
      (ho : SameOutside s t) : OwnWrites s t (.csrw 0x0000 v)
  | stdDelay (v : Word) (hd : t.devAddr = s.devAddr) (hh : SameHandshake s t) (hr : SameRing s t)
      (ho : SameOutside s t) : OwnWrites s t (.csrw 0x0002 v)
  | handshake (hs : SameSettings s t) (hr : SameRing s t) (ho : SameOutside s t) : OwnWrites s t .rst
  | ring {i : Instr} (hi : i = .mread ∨ ∃ v, v ≠ 0 ∧ i = .mpush v) (v : Half) (hs : SameSettings s t)
      (hh : SameHandshake s t) (hr : SameRing (s.push v) t) (ho : SameOutside s t) : OwnWrites s t i

/-- RST keeps the settings and the ring (40_core R149). -/
theorem RstEnds.ownWrites {s t : State} (h : RstEnds s t) : OwnWrites s t .rst := by
  have hstart {u : State} (hu : Looping s.startRst s.cfg.nIdTry u) :
      SameSettings s u ∧ SameRing s u ∧ SameOutside s u := by
    simpa [SameSettings, SameRing, SameOutside, State.startRst] using
      And.intro hu.running.settings (And.intro hu.running.ring hu.running.outside)
  suffices hkept : SameSettings s t ∧ SameRing s t ∧ SameOutside s t from
    let ⟨hset, hring, hout⟩ := hkept
    .handshake hset hring hout
  cases h with
  | stalled hu => exact hstart hu
  | writeFailed hu | pollsSpent hu =>
    simpa [SameSettings, SameRing, SameOutside, State.failHandshake] using hstart hu
  | ready _ hu => simpa [SameSettings, SameRing, SameOutside, State.acceptId] using hstart hu

/-- MREAD pushes the sample, if it ends `OK`; all else it keeps (42_moisture R196, R198). -/
theorem MreadEnds.ownWrites {s t : State} (h : MreadEnds s t) : OwnWrites s t .mread := by
  cases h with
  | stalled hu => exact .none hu.running.persistent
  | attemptsSpent hu => exact .none (hu.running.persistent.fail ..)
  | @sampled u hu =>
    obtain ⟨hset, hhs, hring, hout⟩ := hu.running.persistent
    have hpush := State.push_sameRing hring hout.1 u.sample
    exact .ring (.inl rfl) u.sample (by simpa [SameSettings, State.takeSample] using hset)
      (by simpa [SameHandshake, State.takeSample] using hhs) (by simpa [SameRing, State.takeSample] using hpush)
      (by simpa [SameOutside, State.takeSample] using hout)

/-- Which command writes which register, from what it can end in (10_state R23 to R26, R36, R37). -/
theorem Ends.ownWrites {i : Instr} {s t : State} (h : Ends s i t) : OwnWrites s t i := by
  cases h with
  | returned v hu => exact .none (hu.persistent.setR v).returnOk
  | keyrd n hu => exact .none hu.persistent.markEvents.returnOk
  | failed hu => exact .none (hu.persistent.fail ..)
  | stalled hu => exact .none hu.persistent
  | devAddr v => exact .devAddr v rfl ⟨rfl, rfl⟩ ⟨rfl, rfl⟩ ⟨rfl, rfl⟩
  | stdDelay v => exact .stdDelay v rfl ⟨rfl, rfl⟩ ⟨rfl, rfl⟩ ⟨rfl, rfl⟩
  | mpush v =>
    by_cases hv : v = 0
    · rw [State.push_of_zero hv]
      exact .none (Running.refl s).persistent.returnOk
    · exact .ring (.inr ⟨v, hv, rfl⟩) v (by simp [SameSettings]) (by simp [SameHandshake]) (by simp [SameRing])
        (by simp [SameOutside])
  | rst h => exact h.ownWrites
  | mread h => exact h.ownWrites

/-- Settles O22, by the registers that the command's end may have written. -/
theorem onlyNamedCommandsWriteEachRegister : Obligations.OnlyNamedCommandsWriteEachRegister := by
  intro i s t h
  cases (exec_ends h).ownWrites with
  | none h =>
    obtain ⟨⟨haddr, hstd⟩, ⟨hhs, hid⟩, ⟨hring, hcur⟩, hout⟩ := h
    simp [haddr, hstd, hhs, hid, hring, hcur, hout]
  | devAddr v hstd hh hr hout => simp [hstd, hh.1, hh.2, hr.1, hr.2, hout]
  | stdDelay v haddr hh hr hout => simp [haddr, hh.1, hh.2, hr.1, hr.2, hout]
  | handshake hs hr hout => simp [hs.1, hs.2, hr.1, hr.2, hout]
  | ring hi v hs hh hr hout => exact ⟨by simp [hs.1], by simp [hs.2], by simp [hh.1, hh.2], fun _ => hi, hout⟩

/-! ### The ring -/

/-- A command keeps the ring or pushes into it: what a push keeps, every command keeps. -/
theorem OwnWrites.keeps_of_push {P : State → Prop} {i : Instr} {s t : State} (hw : OwnWrites s t i)
    (hsame : ∀ {s t : State}, P s → t.cfg = s.cfg → SameRing s t → P t)
    (hpush : ∀ {s : State}, P s → ∀ v, P (s.push v)) (h : P s) : P t := by
  cases hw with
  | none hk => exact hsame h hk.outside.1 hk.ring
  | devAddr _ _ _ hr ho | stdDelay _ _ _ hr ho | handshake _ hr ho => exact hsame h ho.1 hr
  | ring _ v _ _ hr ho => exact hsame (hpush h v) (ho.1.trans (State.push_cfg v s).symm) hr

theorem RingFilled.of_sameRing {s t : State} (h : RingFilled s) (hc : t.cfg = s.cfg) (hr : SameRing s t) :
    RingFilled t := by
  unfold RingFilled
  rw [hr.1, hr.2, hc]
  exact h

/-- In a ring of zeros no slot before the first is filled. -/
theorem RingFilled.of_empty {s : State} (hr : s.ring = []) (hc : s.cur = 0) : RingFilled s := by
  refine ⟨?_, .inr fun k _ => ?_⟩
  · rw [hc]; exact s.cfg.one_le_ringCap
  · simp [hr, hc, Ring.read]

/-- A slot reads non-zero after a push where it did before, and at the cursor. -/
theorem Ring.read_write_ne_zero {v : Half} (hv : v ≠ 0) (g : Ring) (i k : Nat) :
    (Ring.write i v g).read k ≠ 0 ↔ k = i ∨ g.read k ≠ 0 := by
  by_cases hk : k = i
  · subst hk
    rw [Ring.read_write_same k v hv g]
    exact ⟨fun _ => .inl rfl, fun _ => hv⟩
  · simp [Ring.read_write_other i k v hv hk g, hk]

/-- A push fills the slot at the cursor and moves the cursor past it; past the last slot the ring is full. -/
theorem RingFilled.push {s : State} (h : RingFilled s) (v : Half) : RingFilled (s.push v) := by
  by_cases hv : v = 0
  · rw [State.push_of_zero hv]; exact h
  obtain ⟨hcur, hfilled⟩ := h
  rw [State.push_nonzero hv]
  refine ⟨Nat.mod_lt _ (Nat.zero_lt_of_lt hcur), ?_⟩
  simp only [Ring.read_write_ne_zero hv]
  rcases hfilled with hfull | hupto
  · exact .inl fun k hk => .inr (hfull k hk)
  by_cases hlast : s.cur + 1 = s.cfg.ringCap
  · refine .inl fun k hk => ?_
    rw [hupto k hk]; omega
  · refine .inr fun k hk => ?_
    rw [hupto k hk, Nat.mod_eq_of_lt (by omega)]; omega

/-- Settles O14: a step leaves the ring, empties it, or pushes into it. -/
theorem stepKeepsTheRingFilled : Obligations.StepKeepsTheRingFilled := by
  intro s t hs h
  rcases step_cases h with rfl | ⟨-, ⟨rest, rfl⟩ | ⟨d, rest, rfl⟩ | ⟨i, d, rest, h⟩⟩
  · exact hs
  · exact .of_empty rfl rfl
  · exact hs.of_sameRing (by simp [State.rejectDescriptor]) (by simp [State.rejectDescriptor, SameRing])
  · have hacc : RingFilled (s.accept d rest) := hs.of_sameRing (by simp) (by simp [SameRing])
    exact (exec_ends h).ownWrites.keeps_of_push .of_sameRing .push hacc

/-! ### The buffer -/

/-- A failure leaves the buffer as a read of no bytes does. -/
theorem KeepsOrLoadsBuf.fail (s u : State) (st sub : Status) (info : Byte) :
    KeepsOrLoadsBuf s (u.fail st sub info) :=
  .inr ⟨[], by decide, rfl, rfl, rfl⟩

theorem RstEnds.buffer {s t : State} (h : RstEnds s t) : KeepsOrLoadsBuf s t := by
  cases h with
  | stalled hu => exact hu.running.buffer
  | writeFailed | pollsSpent => exact .fail ..
  | ready _ hu => exact hu.running.buffer

theorem MreadEnds.buffer {s t : State} (h : MreadEnds s t) : KeepsOrLoadsBuf s t := by
  cases h with
  | stalled hu => exact hu.running.buffer
  | attemptsSpent => exact .fail ..
  | sampled hu => simpa [KeepsOrLoadsBuf, State.takeSample] using hu.running.buffer

/-- A command keeps `BUF` or loads it; only a KEYRD that ends `OK` makes events of the bytes (10_state R30). -/
theorem Ends.buffer {i : Instr} {s t : State} (h : Ends s i t) :
    KeepsOrLoadsBuf s t ∨
      ∃ n u, i = .keyrd n ∧ KeepsOrLoadsBuf s u ∧ t = u.markEvents.returnOk := by
  cases h with
  | returned v hu => exact .inl hu.buffer
  | keyrd n hu => exact .inr ⟨n, _, rfl, hu.buffer, rfl⟩
  | failed => exact .inl (.fail ..)
  | stalled hu => exact .inl hu.buffer
  | devAddr | stdDelay => exact .inl (.inl ⟨rfl, rfl, rfl⟩)
  | mpush => exact .inl (.inl (by simp))
  | rst h => exact .inl h.buffer
  | mread h => exact .inl h.buffer

theorem State.evt_ne_none {s : State} {k : Nat} (h : s.evt k ≠ none) :
    k < s.blen.toNat ∧ s.evt k = some (keyDec (s.bufByte k)) := by
  unfold State.evt at h ⊢
  split at h
  · rename_i hk; exact ⟨hk.2, if_pos hk⟩
  · exact absurd rfl h

/-- Settles O56: the buffer holds what it held, loaded bytes that are no events, or the bytes of a KEYRD that ended
`OK`. -/
theorem eventsComeFromKeyrdOnly : Obligations.EventsComeFromKeyrdOnly := by
  intro i s t k hs h hk
  obtain ⟨hlt, hevt⟩ := State.evt_ne_none hk
  refine ⟨hlt, hevt, ?_⟩
  rcases (exec_ends h).buffer with (⟨hbuf, hblen, hvalid⟩ | ⟨bs, -, -, -, hvalid⟩) | ⟨n, u, rfl, -, rfl⟩
  · exact .inr (State.evt_of_buf hs hvalid hblen hbuf k)
  · exact absurd (State.evt_of_not_valid hvalid k) hk
  · exact .inl ⟨n, rfl, rfl, rfl⟩

end Sys2Proof.Machine
end

section
/-!
PROOFS. The invariant of a run, the block's reset, and the registers of the two retry loops.
-/
namespace Sys2Proof.Machine

/-! ### The parts of the invariant -/

/-- `BUF` lists exactly the bytes below `BLEN`, in canonical form (10_state R29). -/
def BufSound (s : State) : Prop := Memory.wf s.buf = true ∧ s.buf.map Prod.fst = List.range s.blen.toNat

/-- `RING` is in canonical form, and it and `CUR` keep to the slots there are (10_state R36 to R38). -/
def RingSound (s : State) : Prop :=
  Ring.wf s.ring = true ∧ (∀ c ∈ s.ring, c.1 < s.cfg.ringCap) ∧ s.cur < s.cfg.ringCap

theorem inv_iff {s : State} :
    Inv s ↔ BufSound s ∧ RingSound s ∧ (s.seq = .idle → s.hs ≠ .resetting) ∧ statusAllowed s.st s.sub s.info :=
  ⟨fun h => ⟨⟨h.bufCanonical, h.bufValid⟩, ⟨h.ringCanonical, h.ringSlots, h.curSlot⟩, h.handshakeSettled,
      h.statusLegal⟩,
    fun ⟨⟨hwf, hvalid⟩, ⟨hring, hslots, hcur⟩, hhs, hst⟩ => ⟨hwf, hvalid, hring, hslots, hcur, hhs, hst⟩⟩

theorem BufSound.of_keepsOrLoads {s t : State} (h : BufSound s) (hk : KeepsOrLoadsBuf s t) : BufSound t := by
  rcases hk with ⟨hbuf, hblen, -⟩ | ⟨bs, hl, hbuf, hblen, -⟩ <;> unfold BufSound <;> rw [hbuf, hblen]
  · exact h
  · have hlen : (BitVec.ofNat 8 bs.length).toNat = bs.length := by simp; omega
    rw [hlen, Memory.ofBytes_fst, List.range_eq_range']
    exact ⟨Memory.ofBytes_wf bs hl, rfl⟩

theorem BufSound.exec {i : Instr} {s t : State} (h : BufSound s) (he : exec i s = .next t) : BufSound t := by
  rcases (exec_ends he).buffer with hk | ⟨n, u, -, hk, rfl⟩
  · exact h.of_keepsOrLoads hk
  · have hu : BufSound u := h.of_keepsOrLoads hk
    exact hu

theorem RingSound.of_sameRing {s t : State} (h : RingSound s) (hc : t.cfg = s.cfg) (hr : SameRing s t) :
    RingSound t := by
  unfold RingSound
  rw [hr.1, hr.2, hc]
  exact h

theorem RingSound.push {s : State} (h : RingSound s) (v : Half) : RingSound (s.push v) := by
  obtain ⟨hwf, hslots, hcur⟩ := h
  by_cases hv : v = 0
  · rw [State.push_of_zero hv]; exact ⟨hwf, hslots, hcur⟩
  rw [State.push_nonzero hv]
  refine ⟨Ring.write_wf _ _ _ hwf, fun c hc => ?_, Nat.mod_lt _ (Nat.zero_lt_of_lt hcur)⟩
  rcases Ring.write_mem hc with ⟨rfl, -⟩ | hc
  · exact hcur
  · exact hslots c hc

theorem RingSound.exec {i : Instr} {s t : State} (h : RingSound s) (he : exec i s = .next t) : RingSound t :=
  (exec_ends he).ownWrites.keeps_of_push .of_sameRing .push h

/-- RST leaves `Resetting` before its response, whichever that is (40_core R146 to R148). -/
theorem RstEnds.handshakeSettled {s t : State} (h : RstEnds s t) : t.seq = .idle → t.hs ≠ .resetting := by
  cases h with
  | stalled _ hp => exact fun h => absurd h hp
  | writeFailed | pollsSpent => simp [State.failHandshake]
  | ready => simp [State.acceptId]

theorem OwnWrites.sameHandshake {i : Instr} {s t : State} (h : OwnWrites s t i) (hi : i ≠ .rst) :
    SameHandshake s t := by
  cases h with
  | none h => exact h.handshake
  | devAddr _ _ hh | stdDelay _ _ hh | ring _ _ _ hh => exact hh
  | handshake => exact absurd rfl hi

theorem exec_handshakeSettled {i : Instr} {s t : State} (hs : s.hs ≠ .resetting) (he : exec i s = .next t) :
    t.seq = .idle → t.hs ≠ .resetting := by
  by_cases hi : i = .rst
  · subst hi
    exact (execRst_ends he).handshakeSettled
  · rw [((exec_ends he).ownWrites.sameHandshake hi).1]
    exact fun _ => hs

/-- Every command that ends writes a status record of 60_exceptions R221; one that stalls writes none. -/
theorem Ends.statusAllowed {i : Instr} {s t : State} (h : Ends s i t) (hs : statusAllowed s.st s.sub s.info) :
    statusAllowed t.st t.sub t.info := by
  cases h with
  | returned | keyrd | devAddr | stdDelay | mpush => exact ⟨rfl, rfl⟩
  | failed _ _ ha => exact ha
  | stalled hu => exact hu.statusAllowed hs
  | rst h =>
    cases h with
    | stalled hu => exact hu.running.statusAllowed hs
    | writeFailed _ ha => exact ha
    | pollsSpent _ _ ha => exact ha
    | ready => exact ⟨rfl, rfl⟩
  | mread h =>
    cases h with
    | stalled hu => exact hu.running.statusAllowed hs
    | attemptsSpent _ _ ha => exact ha
    | sampled => exact ⟨rfl, rfl⟩

/-! ### The invariant of a run -/

/-- An idle block keeps the invariant through a command. -/
theorem Inv.exec {i : Instr} {s t : State} (h : Inv s) (hidle : s.seq = .idle) (he : exec i s = .next t) : Inv t := by
  obtain ⟨hbuf, hring, hhs, hst⟩ := inv_iff.1 h
  exact inv_iff.2 ⟨hbuf.exec he, hring.exec he, exec_handshakeSettled (hhs hidle) he, (exec_ends he).statusAllowed hst⟩

theorem inv_resetOf (c : Config) : Inv (State.resetOf c) :=
  inv_iff.2 ⟨⟨rfl, rfl⟩, ⟨rfl, by simp [State.resetOf], c.one_le_ringCap⟩, fun _ => by simp [State.resetOf], rfl, rfl⟩

/-- What the block's reset leaves does not depend on what was there before. -/
theorem inv_applyReset (s : State) (rest : List HostInput) : Inv (s.applyReset rest) :=
  let h := inv_resetOf s.cfg
  ⟨h.bufCanonical, h.bufValid, h.ringCanonical, h.ringSlots, h.curSlot, h.handshakeSettled, h.statusLegal⟩

theorem Inv.accept {s : State} (h : Inv s) (d : List Byte) (rest : List HostInput) : Inv (s.accept d rest) :=
  ⟨h.bufCanonical, h.bufValid, h.ringCanonical, h.ringSlots, h.curSlot, h.handshakeSettled, h.statusLegal⟩

theorem Inv.rejectDescriptor {s : State} (h : Inv s) (hidle : s.seq = .idle) : Inv s.rejectDescriptor := by
  obtain ⟨hbuf, hring, hhs, -⟩ := inv_iff.1 h
  exact inv_iff.2 ⟨hbuf.of_keepsOrLoads (.fail ..), hring.of_sameRing rfl ⟨rfl, rfl⟩, fun _ => hhs hidle, rfl, rfl⟩

/-- Settles O12: the reset makes the invariant true, a rejected descriptor and a command keep it. -/
theorem stepKeepsTheInvariant : Obligations.StepKeepsTheInvariant := by
  intro s t hs h
  rcases step_cases h with rfl | ⟨hidle, ⟨rest, rfl⟩ | ⟨d, rest, rfl⟩ | ⟨i, d, rest, h⟩⟩
  · exact hs
  · exact inv_applyReset s rest
  · exact (hs.accept d rest).rejectDescriptor hidle
  · exact (hs.accept d rest).exec hidle h

/-! ### The block's reset -/

/-- Settles O11: nothing is stored, and nothing has happened on the bus. -/
theorem resetStateHasTheInvariants : Obligations.ResetStateHasTheInvariants := by
  refine ⟨inv_resetOf _, ⟨?_, ?_⟩, .of_empty rfl rfl⟩
  · intro a ws x hx
    exact absurd hx List.not_mem_nil
  · intro before after a n x hx
    simp [State.reset, State.resetOf] at hx

/-- The reset input is taken by an idle block (70_reset R260). -/
theorem step_of_reset {s : State} {rest : List HostInput} (hs : s.seq = .idle)
    (hi : s.inputs = .reset :: rest) : step s = .next (s.applyReset rest) := by
  simp only [step, State.fetch_of_reset hs hi]

/-- Settles O9: power-on and the reset input leave the same values. -/
theorem resetLeavesTheSpecValues : Obligations.ResetLeavesTheSpecValues := by
  refine ⟨⟨rfl, rfl, rfl, rfl, rfl, rfl, rfl, rfl, rfl, fun _ => rfl, rfl, rfl⟩, fun s rest hs hi => ?_⟩
  exact ⟨_, step_of_reset hs hi, ⟨rfl, rfl, rfl, rfl, rfl, rfl, rfl, rfl, rfl, fun _ => rfl, rfl, rfl⟩, rfl, rfl, rfl,
    rfl⟩

/-! ### The registers of the two retry loops -/

/-- The loops set `ATT` and `LAST` at their start, whatever these held (10_state R34). -/
theorem State.startLoop_of_loop (s : State) (n : Nat) (l : Status × Byte) :
    { s with att := n, last := l }.startLoop = s.startLoop := rfl

theorem RstEnds.att_bounds {s t : State} (h : RstEnds s t) : 1 ≤ t.att ∧ t.att ≤ s.cfg.nIdTry := by
  cases h with
  | stalled hu | writeFailed hu | pollsSpent hu | ready _ hu => exact ⟨hu.att_pos, hu.att_le⟩

theorem MreadEnds.att_bounds {s t : State} (h : MreadEnds s t) : 1 ≤ t.att ∧ t.att ≤ Config.moistTries := by
  cases h with
  | stalled hu | attemptsSpent hu => exact ⟨hu.att_pos, hu.att_le⟩
  | sampled hu => simpa [State.takeSample] using And.intro hu.att_pos hu.att_le

/-- Only RST and MREAD write `ATT` and `LAST` (10_state R34). -/
theorem Ends.sameLoop {i : Instr} {s t : State} (h : Ends s i t) (hr : i ≠ .rst) (hm : i ≠ .mread) :
    SameLoop s t := by
  cases h with
  | returned _ _ hl | keyrd _ _ hl | failed _ hl | stalled _ hl => exact ⟨hl.1, hl.2⟩
  | devAddr | stdDelay => exact ⟨rfl, rfl⟩
  | mpush => simp [SameLoop]
  | rst => exact absurd rfl hr
  | mread => exact absurd rfl hm

/-- A failure that stands alone is not that of a loop (60_exceptions R221). -/
theorem not_spent_of_alone {st : Status} {info : Byte} (ha : statusAllowed st .ok info) :
    ¬(st = .eHandshake ∨ st = .eRetry) := by
  rintro (rfl | rfl) <;> simp [statusAllowed] at ha

theorem RstEnds.last_of_spent {s t : State} (h : RstEnds s t) (hidle : t.seq = .idle)
    (hst : t.st = .eHandshake ∨ t.st = .eRetry) : t.last = (t.sub, t.info) := by
  cases h with
  | stalled _ hp => exact absurd hidle hp
  | writeFailed _ ha => exact absurd hst (not_spent_of_alone ha)
  | pollsSpent _ hlast => simpa [State.failHandshake] using hlast
  | ready => simp at hst

theorem MreadEnds.last_of_spent {s t : State} (h : MreadEnds s t) (hidle : t.seq = .idle)
    (hst : t.st = .eHandshake ∨ t.st = .eRetry) : t.last = (t.sub, t.info) := by
  cases h with
  | stalled _ hp => exact absurd hidle hp
  | attemptsSpent _ hlast => simpa using hlast
  | sampled => simp at hst

/-- `E_HANDSHAKE` and `E_RETRY` report a spent loop, and with it the outcome that `LAST` keeps (60_exceptions R224,
R225). -/
theorem Ends.last_of_spent {i : Instr} {s t : State} (h : Ends s i t) (hidle : t.seq = .idle)
    (hst : t.st = .eHandshake ∨ t.st = .eRetry) : t.last = (t.sub, t.info) := by
  cases h with
  | returned | keyrd | devAddr | stdDelay | mpush => simp at hst
  | failed _ _ ha => exact absurd hst (not_spent_of_alone ha)
  | stalled _ _ hp => exact absurd hidle hp
  | rst h => exact h.last_of_spent hidle hst
  | mread h => exact h.last_of_spent hidle hst

/-- Settles O60, by what RST and MREAD can end in. -/
theorem rstAndMreadStartTheirLoopsAfresh : Obligations.RstAndMreadStartTheirLoopsAfresh := by
  refine ⟨fun s n l => ?_, fun i s t h => ⟨(exec_ends h).sameLoop, ?_, ?_, (exec_ends h).last_of_spent⟩⟩
  · simp only [exec, execRst, execMread, State.startLoop_of_loop, and_self]
  · rintro rfl
    exact (execRst_ends h).att_bounds
  · rintro rfl
    exact (execMread_ends h).att_bounds

end Sys2Proof.Machine
end

section
/-!
PROOFS. The bus (20_memory): the transport's codes; the shape of a command's traffic; the replay of a command on the
answers its trace shows. Traffic and replay are one statement, `exec_converses`, from which the rules about the bus
are derived.
-/
namespace Sys2Proof

/-! ### Legal configurations (00_scope R7) -/

theorem Config.rstPayload_length_le (c : Config) : c.rstPayload.length ≤ 255 := by
  have h := c.legal
  simp only [Params.legal, Bool.and_eq_true, decide_eq_true_eq] at h
  obtain ⟨⟨⟨⟨⟨⟨⟨-, hrst⟩, -⟩, -⟩, -⟩, -⟩, -⟩, -⟩ := h
  exact hrst

theorem Config.keyIntPayload_length_le (c : Config) : c.keyIntPayload.length ≤ 255 := by
  have h := c.legal
  simp only [Params.legal, Bool.and_eq_true, decide_eq_true_eq] at h
  obtain ⟨⟨⟨-, hint⟩, -⟩, -⟩ := h
  exact hint

end Sys2Proof

namespace Sys2Proof.Machine

/-! ### Transport codes -/

theorem errorCode_other_toNat (k : Fin 253) : (errorCode (.other k)).toNat = 3 + k.val := by
  have := k.isLt
  simp only [errorCode, BitVec.toNat_ofNat]
  omega

/-- Every byte but 0x00 is the code of a transport error (20_memory R69). -/
theorem exists_errorCode_eq {c : Byte} (hc : c ≠ 0) : ∃ e, errorCode e = c := by
  by_cases h1 : c = 1
  · exact ⟨.nack, h1.symm⟩
  by_cases h2 : c = 2
  · exact ⟨.busFault, h2.symm⟩
  have hlo : 3 ≤ c.toNat := by bv_omega
  have hhi := c.isLt
  refine ⟨.other ⟨c.toNat - 3, by omega⟩, BitVec.eq_of_toNat_eq ?_⟩
  rw [errorCode_other_toNat]
  exact Nat.add_sub_cancel' hlo

/-- Settles O57: the two named codes, and the transport's own above them. -/
theorem transportCodesAreTheSpecs : Obligations.TransportCodesAreTheSpecs :=
  ⟨rfl, rfl, errorCode_other_toNat, fun _ => ⟨fun ⟨e, he⟩ => he ▸ errorCode_ne_zero e, exists_errorCode_eq⟩⟩

/-! ### The shape of a command's traffic -/

/-- Events of a command, with all their transactions to `a`: writes of 2 to `cap` bytes, and reads, each right after
the address pair that the transport took and its delay (20_memory R65, R71). -/
inductive Traffic (a : Half) (cap : Nat) : List Event → Prop where
  | nil : Traffic a cap []
  | delay {es : List Event} (d : Word) (h : Traffic a cap es) : Traffic a cap (.delay d :: es)
  | responded {es : List Event} (bs : List Byte) (h : Traffic a cap es) : Traffic a cap (.responded bs :: es)
  | write {es : List Event} {ws : List Byte} (x : Answer) (h2 : 2 ≤ ws.length) (hcap : ws.length ≤ cap)
      (h : Traffic a cap es) : Traffic a cap (.transaction (.write a ws) x :: es)
  | read {es : List Event} (m f : Byte) (w : List Byte) (d : Word) (n : Nat) (x : Answer) (h : Traffic a cap es) :
      Traffic a cap (.transaction (.write a [m, f]) (.reply (.ok w)) :: .delay d :: .transaction (.read a n) x :: es)

theorem Traffic.append {a : Half} {cap : Nat} {es fs : List Event} (h : Traffic a cap es) (k : Traffic a cap fs) :
    Traffic a cap (es ++ fs) := by
  induction h with
  | nil => exact k
  | delay d _ ih => exact .delay d ih
  | responded bs _ ih => exact .responded bs ih
  | write x h2 hcap _ ih => exact .write x h2 hcap ih
  | read m f w d n x _ ih => exact .read m f w d n x ih

theorem Traffic.addressOf_eq {a : Half} {cap : Nat} {es : List Event} (h : Traffic a cap es) :
    ∀ x ∈ transactionsOf es, addressOf x = a := by
  induction h with
  | nil => simp [transactionsOf]
  | delay _ _ ih | responded _ _ ih => simpa [transactionsOf] using ih
  | write _ _ _ _ ih | read _ _ _ _ _ _ _ ih => simpa [transactionsOf, addressOf] using ih

/-- What makes an event fit after a trace (20_memory R65, R71). -/
def FitsAfter (tr : List Event) : Event → Prop
  | .transaction (.write _ ws) _ => 2 ≤ ws.length ∧ ws.length ≤ 257
  | .transaction (.read a _) _ =>
    ∃ earlier m f w d, tr = earlier ++ [.transaction (.write a [m, f]) (.reply (.ok w)), .delay d]
  | .accepted _ | .delay _ | .responded _ | .blockReset => True

/-- A framed trace grows by an event that fits after it. -/
theorem Framed.concat {tr : List Event} {e : Event} (h : Framed tr) (he : FitsAfter tr e) : Framed (tr ++ [e]) := by
  obtain ⟨hwrites, hreads⟩ := h
  refine ⟨fun a ws x hx => ?_, fun before after a n x hsplit => ?_⟩
  · rcases List.mem_append.1 hx with hx | hx
    · exact hwrites a ws x hx
    · rw [← List.mem_singleton.1 hx] at he
      exact he
  · rcases List.eq_nil_or_concat after with rfl | ⟨after, e', rfl⟩
    · obtain ⟨rfl, rfl⟩ := List.append_inj' hsplit rfl |>.imp_right List.singleton_inj.1
      exact he
    · rw [List.concat_eq_append, ← List.cons_append, ← List.append_assoc] at hsplit
      exact hreads before after a n x (List.append_inj' hsplit rfl).1

/-- A framed trace grows by the traffic of a command whose writes fit the bus (20_memory R65). -/
theorem Framed.append_traffic {a : Half} {es tr : List Event} (h : Framed tr) (k : Traffic a 257 es) :
    Framed (tr ++ es) := by
  induction k generalizing tr with
  | nil => rwa [List.append_nil]
  | delay _ _ ih | responded _ _ ih => rw [List.append_cons]; exact ih (h.concat trivial)
  | write x h2 hcap _ ih => rw [List.append_cons]; exact ih (h.concat ⟨h2, hcap⟩)
  | read m f w d n x _ ih =>
    have hpair := (h.concat (e := .transaction (.write a [m, f]) (.reply (.ok w))) ⟨by simp, by simp⟩).concat
      (e := .delay d) trivial
    have hread := hpair.concat (e := .transaction (.read a n) x) ⟨tr, m, f, w, d, by simp⟩
    simpa using ih hread

/-! ### Replay -/

/-- The state with another script of answers. -/
def State.script (as : List Answer) (s : State) : State := { s with answers := as }

@[simp] theorem State.script_cfg (as : List Answer) (s : State) : (s.script as).cfg = s.cfg := rfl
@[simp] theorem State.script_bufByte (as : List Answer) (s : State) (i : Nat) :
    (s.script as).bufByte i = s.bufByte i := rfl

theorem sameBus_script (as : List Answer) (s : State) : SameBus s (s.script as) := ⟨rfl, rfl, rfl⟩

theorem answersOf_append (es fs : List Event) : answersOf (es ++ fs) = answersOf es ++ answersOf fs :=
  List.filterMap_append ..

/-- From `s` to `t` there are the events `es`, and `R` leads from `s` to `t` also on any script that begins with the
answers in `es`: it uses up these, and nothing else of the two states depends on the script. -/
structure Replays (R : State → State → Prop) (s t : State) (es : List Event) : Prop where
  trace : t.trace = s.trace ++ es
  replay : ∀ rest, R (s.script (answersOf es ++ rest)) (t.script rest)

/-- `H` leads from `s` to `u` if `R` leads from `s` to `t` and `Q` from `t` to `u`. -/
theorem Replays.trans {R Q H : State → State → Prop} {s t u : State} {es fs : List Event} (h : Replays R s t es)
    (k : Replays Q t u fs)
    (hH : ∀ as bs v, R (s.script as) (t.script bs) → Q (t.script bs) v → H (s.script as) v) :
    Replays H s u (es ++ fs) where
  trace := by rw [k.trace, h.trace, List.append_assoc]
  replay rest := by
    rw [answersOf_append, List.append_assoc]
    exact hH _ _ _ (h.replay _) (k.replay rest)

theorem Replays.imp {R H : State → State → Prop} {s t : State} {es : List Event} (h : Replays R s t es)
    (hH : ∀ as v, R (s.script as) v → H (s.script as) v) : Replays H s t es :=
  ⟨h.trace, fun rest => hH _ _ (h.replay rest)⟩

/-- A transaction and the phase it is made in. -/
theorem issue_replays (p : Phase) (x : Transaction) (s : State) :
    Replays (fun u v => u.nextAnswer x = s.nextAnswer x ∧ v = (u.enter p).issue x) s ((s.enter p).issue x)
      [.transaction x (s.nextAnswer x)] :=
  ⟨rfl, fun _ => ⟨rfl, rfl⟩⟩

/-- `R` replays from `s` to `t`, and what it does on the bus on the way is traffic to `DEV_ADDR`. -/
def Converses (cap : Nat) (R : State → State → Prop) (s t : State) : Prop :=
  ∃ es, Replays R s t es ∧ Traffic s.devAddr cap es

namespace Converses

variable {cap : Nat} {R Q H : State → State → Prop} {s t u : State}

theorem refl (s : State) : Converses cap Eq s s :=
  ⟨[], ⟨(List.append_nil _).symm, fun _ => rfl⟩, .nil⟩

theorem imp (h : Converses cap R s t) (hH : ∀ as v, R (s.script as) v → H (s.script as) v) : Converses cap H s t :=
  let ⟨es, hr, ht⟩ := h
  ⟨es, hr.imp hH, ht⟩

theorem trans (h : Converses cap R s t) (hdev : t.devAddr = s.devAddr) (k : Converses cap Q t u)
    (hH : ∀ as bs v, R (s.script as) (t.script bs) → Q (t.script bs) v → H (s.script as) v) :
    Converses cap H s u :=
  let ⟨es, hr, ht⟩ := h
  let ⟨fs, kr, kt⟩ := k
  ⟨es ++ fs, hr.trans kr hH, ht.append (hdev ▸ kt)⟩

end Converses

/-- From `t` to `g t` the transport is not asked, and the script makes no difference. -/
def AsksNothing (g : State → State) (t : State) : Prop :=
  ∀ a cap, ∃ es, Traffic a cap es ∧ answersOf es = [] ∧ (g t).trace = t.trace ++ es ∧
    ∀ as, g (t.script as) = (g t).script as

section AsksNothing

variable {g k : State → State} {t : State}

theorem AsksNothing.of_trace_eq (htr : (g t).trace = t.trace) (hg : ∀ as, g (t.script as) = (g t).script as) :
    AsksNothing g t :=
  fun _ _ => ⟨[], .nil, rfl, by rw [htr, List.append_nil], hg⟩

theorem AsksNothing.comp (hk : AsksNothing k (g t)) (hg : AsksNothing g t) : AsksNothing (fun u => k (g u)) t := by
  intro a cap
  obtain ⟨es, hes, hans, htr, hscript⟩ := hg a cap
  obtain ⟨fs, hfs, kans, ktr, kscript⟩ := hk a cap
  exact ⟨es ++ fs, hes.append hfs, by rw [answersOf_append, hans, kans]; rfl,
    by rw [ktr, htr, List.append_assoc], fun as => by simp only [hscript, kscript]⟩

theorem delay_asksNothing (d : Word) (t : State) : AsksNothing (State.delay d) t :=
  fun _ _ => ⟨[.delay d], .delay d .nil, rfl, rfl, fun _ => rfl⟩

theorem returnOk_asksNothing (t : State) : AsksNothing State.returnOk t :=
  fun _ _ => ⟨_, .responded _ .nil, rfl, rfl, fun _ => rfl⟩

theorem fail_asksNothing (st sub : Status) (info : Byte) (t : State) : AsksNothing (State.fail st sub info) t :=
  fun _ _ => ⟨_, .responded _ .nil, rfl, rfl, fun _ => rfl⟩

theorem failHandshake_asksNothing (st sub : Status) (info : Byte) (t : State) :
    AsksNothing (State.failHandshake st sub info) t :=
  (fail_asksNothing st sub info _).comp (.of_trace_eq rfl fun _ => rfl)

theorem setLast_asksNothing (l : Status × Byte) (t : State) : AsksNothing (State.setLast l) t :=
  .of_trace_eq rfl fun _ => rfl

/-- `Push` does not look at the script. -/
theorem State.script_push (as : List Answer) (v : Half) (s : State) : (s.script as).push v = (s.push v).script as := by
  by_cases hv : v = 0
  · simp only [State.push_of_zero hv]
  · simp only [State.push_nonzero hv]; rfl

theorem setR_asksNothing (v : Word) (t : State) : AsksNothing (State.setR v) t :=
  .of_trace_eq rfl fun _ => rfl

theorem push_asksNothing (v : Half) (t : State) : AsksNothing (State.push v) t :=
  .of_trace_eq (by simp) fun as => State.script_push as v t

theorem takeSample_asksNothing (t : State) : AsksNothing State.takeSample t := by
  refine .of_trace_eq (by simp [State.takeSample]) fun as => ?_
  rw [State.takeSample, State.script_push]
  rfl

theorem writeCsr_asksNothing (x : Csr) (v : Word) (t : State) : AsksNothing (State.writeCsr x v) t := by
  cases x <;> exact .of_trace_eq rfl fun _ => rfl

/-- What CSRR does before its end (43_csr R210): a byte it draws does not come from the script. -/
theorem csrRead_asksNothing (x : Csr) (t : State) :
    AsksNothing (fun u => (u.afterCsrRead x).setR (u.csrValue x)) t := by
  have hscript (as : List Answer) : (t.script as).afterCsrRead x = (t.afterCsrRead x).script as := by
    cases x with
    | buf i => exact (apply_ite (State.script as) (i < t.blen.toNat) t t.countDraw).symm
    | devAddr | hwId | stdDelay | hs | status | r | blen | cur | ringCap | ring => rfl
  refine .of_trace_eq ?_ fun as => ?_
  · rcases t.afterCsrRead_cases x with hx | hx <;> simp [hx]
  · simp only [hscript]
    cases x <;> rfl

end AsksNothing

/-- A converse goes on with what asks nothing. -/
theorem Converses.andThen {cap : Nat} {R H : State → State → Prop} {g : State → State} {s t : State}
    (h : Converses cap R s t) (hg : AsksNothing g t)
    (hH : ∀ as bs, R (s.script as) (t.script bs) → H (s.script as) (g (t.script bs))) : Converses cap H s (g t) := by
  obtain ⟨es, hr, ht⟩ := h
  obtain ⟨fs, hfs, hans, htr, hscript⟩ := hg s.devAddr cap
  have hrest : Replays (fun u v => v = g u) t (g t) fs := ⟨htr, fun rest => by rw [hans, List.nil_append, hscript]⟩
  exact ⟨es ++ fs, hr.trans hrest fun as bs v hR hv => hv ▸ hH as bs hR, ht.append hfs⟩

/-- A converse begins after what asks nothing. -/
theorem Converses.after {cap : Nat} {Q H : State → State → Prop} {g : State → State} {s t : State}
    (k : Converses cap Q (g s) t) (hg : AsksNothing g s) (hdev : (g s).devAddr = s.devAddr)
    (hH : ∀ as v, Q (g (s.script as)) v → H (s.script as) v) : Converses cap H s t :=
  have hbegun := (Converses.refl s).andThen hg (H := fun u v => v = g u) fun _ _ h => h ▸ rfl
  hbegun.trans hdev k fun as _ v h hQ => hH as v (h ▸ hQ)

/-! ### The core procedures -/

/-- The same result with another state. -/
def Result.withState (u : State) : Result → Result
  | .ok _ => .ok u
  | .failed st info _ => .failed st info u
  | .stalled _ => .stalled u

@[simp] theorem Result.withState_state (u : State) (r : Result) : (r.withState u).state = u := by
  cases r <;> rfl

/-- The procedure `f` called in `s` does the same on the answers of its own events. -/
def CallConverses (cap : Nat) (f : State → Result) (s : State) : Prop :=
  Converses cap (fun u v => f u = (f s).withState v) s (f s).state

namespace CallConverses

variable {cap : Nat} {f : State → Result} {s t : State}

/-- A call after a state change that asks nothing. -/
theorem after {g : State → State} (h : CallConverses cap f (g s)) (hg : AsksNothing g s)
    (hdev : (g s).devAddr = s.devAddr) : CallConverses cap (fun u => f (g u)) s :=
  Converses.after h hg hdev fun _ _ h => h

theorem of_ok (h : CallConverses cap f s) (hr : f s = .ok t) : Converses cap (fun u v => f u = .ok v) s t := by
  rw [CallConverses, hr] at h; exact h

theorem of_failed {st : Status} {info : Byte} (h : CallConverses cap f s) (hr : f s = .failed st info t) :
    Converses cap (fun u v => f u = .failed st info v) s t := by
  rw [CallConverses, hr] at h; exact h

theorem of_stalled (h : CallConverses cap f s) (hr : f s = .stalled t) :
    Converses cap (fun u v => f u = .stalled v) s t := by
  rw [CallConverses, hr] at h; exact h

end CallConverses

theorem doWrite_of_fail {m f : Byte} {ws : List Byte} {s : State} {a : Half} {e : TransportError} (ha : s.devAddr = a)
    (h : s.nextAnswer (.write a (m :: f :: ws)) = .reply (.fail e)) :
    doWrite m f ws s = .failed .eTransport (errorCode e) ((s.enter .write).issue (.write a (m :: f :: ws))) := by
  simp [doWrite, onAnswer, ha, h]

theorem dataPhase_of_ok {n : Byte} {bs : List Byte} {s : State} {a : Half} (ha : s.devAddr = a)
    (h : s.nextAnswer (.read a n.toNat) = .reply (.ok bs)) (hl : bs.length = n.toNat) :
    dataPhase n s = .ok (((s.enter .data).issue (.read a n.toNat)).loadBuf bs) := by
  simp [dataPhase, onAnswer, ha, h, hl]

/-- A write converses by one transaction (40_core R141). -/
theorem doWrite_converses {cap : Nat} (m f : Byte) {ws : List Byte} (hcap : ws.length + 2 ≤ cap) (s : State) :
    CallConverses cap (doWrite m f ws) s := by
  have hissue := issue_replays .write (.write s.devAddr (m :: f :: ws)) s
  have htraffic (x : Answer) : Traffic s.devAddr cap [.transaction (.write s.devAddr (m :: f :: ws)) x] :=
    .write x (by simp) hcap .nil
  unfold CallConverses
  rcases doWrite_cases m f ws s with ⟨ha, hr⟩ | ⟨e, ha, hr⟩ | ⟨w, ha, hr⟩ <;> rw [hr] <;> rw [ha] at hissue
  · exact ⟨_, hissue.imp fun as v ⟨h, hv⟩ => hv ▸ doWrite_of_silent rfl h, htraffic _⟩
  · exact ⟨_, hissue.imp fun as v ⟨h, hv⟩ => hv ▸ doWrite_of_fail rfl h, htraffic _⟩
  · exact ⟨_, hissue.imp fun as v ⟨h, hv⟩ => hv ▸ doWrite_of_ok rfl h, htraffic _⟩

/-- The data phase replays its one transaction; traffic it is only after an address pair. -/
theorem dataPhase_replays (n : Byte) (s : State) :
    ∃ x, Replays (fun u v => dataPhase n u = (dataPhase n s).withState v) s (dataPhase n s).state
      [.transaction (.read s.devAddr n.toNat) x] := by
  have hissue := issue_replays .data (.read s.devAddr n.toNat) s
  rcases dataPhase_cases n s with ⟨ha, hr⟩ | ⟨e, ha, hr⟩ | ⟨bs, ha, hl, hr⟩ | ⟨bs, ha, hl, hr⟩ <;>
    rw [hr] <;> rw [ha] at hissue
  · exact ⟨_, hissue.imp fun as v ⟨h, hv⟩ => hv ▸ dataPhase_of_silent rfl h⟩
  · exact ⟨_, hissue.imp fun as v ⟨h, hv⟩ => hv ▸ dataPhase_of_fail rfl h⟩
  · exact ⟨_, hissue.imp fun as v ⟨h, hv⟩ => hv ▸ dataPhase_of_length rfl h hl⟩
  · exact ⟨_, hissue.trace, fun rest =>
      let ⟨h, hv⟩ := hissue.replay rest
      (dataPhase_of_ok rfl h hl).trans (congrArg (fun v => Result.ok (State.loadBuf bs v)) hv.symm)⟩

/-- The address pair of a read and its settle delay, when the transport takes the pair. -/
theorem afterAddressPhase_replays {m f : Byte} {d : Word} {w : List Byte} {s : State} (hw : TakesPair s m f w) :
    Replays (fun u v => TakesPair u m f w ∧ v = u.afterAddressPhase m f d) s (s.afterAddressPhase m f d)
      [.transaction (.write s.devAddr [m, f]) (.reply (.ok w)), .delay d] := by
  have hissue := issue_replays .addr (.write s.devAddr [m, f]) s
  rw [show s.nextAnswer (.write s.devAddr [m, f]) = .reply (.ok w) from hw] at hissue
  exact ⟨(afterAddressPhase_underway hw).trace, fun rest =>
    let ⟨h, hv⟩ := hissue.replay rest
    ⟨h, congrArg (State.delay d) hv⟩⟩

/-- A read converses by its address pair alone, or by both phases with the delay between (40_core R140). -/
theorem doRead_converses {cap : Nat} (hcap : 2 ≤ cap) (m f n : Byte) (d : Word) (s : State) :
    CallConverses cap (doRead m f n d) s := by
  have hissue := issue_replays .addr (.write s.devAddr [m, f]) s
  have htraffic (x : Answer) : Traffic s.devAddr cap [.transaction (.write s.devAddr [m, f]) x] :=
    .write x (Nat.le_refl 2) hcap .nil
  unfold CallConverses
  rcases doRead_cases m f n d s with ⟨ha, hr⟩ | ⟨e, ha, hr⟩ | ⟨w, hw, hr⟩ <;> rw [hr]
  · rw [ha] at hissue
    exact ⟨_, hissue.imp fun as v ⟨h, hv⟩ => hv ▸ doRead_of_address_silent h, htraffic _⟩
  · rw [ha] at hissue
    exact ⟨_, hissue.imp fun as v ⟨h, hv⟩ => hv ▸ doRead_of_address_fail h, htraffic _⟩
  · obtain ⟨x, hdata⟩ := dataPhase_replays n (s.afterAddressPhase m f d)
    refine ⟨_, (afterAddressPhase_replays hw).trans hdata fun as bs v ⟨hpair, hv⟩ hd => ?_,
      .read m f w d n.toNat x .nil⟩
    rw [doRead_of_takesPair hpair, ← hv, hd]

/-! ### The retry loop -/

theorem retry_of_ok {attempt : State → Result} {limit : Nat} {pause : Word} {s t : State} (fuel : Nat)
    (h : attempt s = .ok t) : retry attempt limit pause (fuel + 1) s = .ok t := by
  simp only [retry, h]

theorem retry_of_spent {attempt : State → Result} {limit : Nat} {pause : Word} {s t : State} {st : Status}
    {info : Byte} (fuel : Nat) (h : attempt s = .failed st info t) (ht : t.att = limit) :
    retry attempt limit pause (fuel + 1) s = .failed st info (t.setLast (st, info)) := by
  simp only [retry, h]
  exact if_pos ht

/-- What a failed attempt is followed by: its note, the pause, the next number. -/
theorem nextAttempt_asksNothing (l : Status × Byte) (pause : Word) (t : State) :
    AsksNothing (fun u => ((u.setLast l).delay pause).setAtt (u.att + 1)) t :=
  fun _ _ => ⟨[.delay pause], .delay pause .nil, rfl, rfl, fun _ => rfl⟩

/-- The loop converses as its attempts do, one after the other. -/
theorem retry_converses {cap : Nat} {attempt : State → Result} (limit : Nat) (pause : Word)
    (hcall : ∀ u, CallConverses cap attempt u) (hdev : ∀ u, (attempt u).state.devAddr = u.devAddr) (fuel : Nat)
    (s : State) : CallConverses cap (retry attempt limit pause fuel) s := by
  induction fuel generalizing s with
  | zero => exact (Converses.refl s).imp fun as v h => h ▸ rfl
  | succ fuel ih =>
    unfold CallConverses
    cases hr : attempt s with
    | ok t =>
      rw [retry_of_ok fuel hr]
      exact ((hcall s).of_ok hr).imp fun as v => retry_of_ok fuel
    | stalled t =>
      rw [retry_of_stalled fuel hr]
      exact ((hcall s).of_stalled hr).imp fun as v => retry_of_stalled fuel
    | failed st info t =>
      have hfail := (hcall s).of_failed hr
      by_cases hlim : t.att = limit
      · rw [retry_of_spent fuel hr hlim]
        exact hfail.andThen (setLast_asksNothing (st, info) t) fun as bs h => retry_of_spent fuel h hlim
      · rw [retry_of_failed fuel hr hlim]
        have ht : t.devAddr = s.devAddr := by simpa [hr, Result.state] using hdev s
        have hnext := hfail.andThen (nextAttempt_asksNothing (st, info) pause t)
          (H := fun u v => retry attempt limit pause (fuel + 1) u = retry attempt limit pause fuel v)
          fun as bs h => retry_of_failed fuel h hlim
        exact hnext.trans ht (ih _) fun as bs v h k => h.trans k

/-- The loop from its start. -/
theorem retryFromOne_converses {cap : Nat} {attempt : State → Result} (limit : Nat) (pause : Word)
    (hcall : ∀ u, CallConverses cap attempt u) (hdev : ∀ u, (attempt u).state.devAddr = u.devAddr) (s : State) :
    CallConverses cap (retryFromOne attempt limit pause) s :=
  (retry_converses limit pause hcall hdev limit (s.setAtt 1)).after (.of_trace_eq rfl fun _ => rfl) rfl

/-! ### The commands -/

theorem Called.state_devAddr {s u : State} {r : Result} (h : Called s u r) : r.state.devAddr = s.devAddr := by
  cases h with
  | ok ht | failed ht | stalled ht => exact ht.settings.1

theorem Polled.state_devAddr {s u : State} {r : Result} (h : Polled s u r) : r.state.devAddr = s.devAddr := by
  cases h with
  | identified _ ht | failed ht | stalled ht => exact ht.settings.1

/-- The identity test does not look at the script. -/
theorem identityTest_script (as : List Answer) (s : State) :
    identityTest (s.script as) = (identityTest s).withState ((identityTest s).state.script as) := by
  by_cases h : knownId s.cfg (s.bufByte 0) = true <;> simp [identityTest, h] <;> rfl

theorem identityTest_asksNothing (s : State) : AsksNothing (fun u => (identityTest u).state) s := by
  refine .of_trace_eq ?_ fun as => by simp only [identityTest_script, Result.withState_state]
  rcases identityTest_cases s with h | h <;> rw [h] <;> rfl

theorem identityPoll_converses {cap : Nat} (hcap : 2 ≤ cap) (s : State) : CallConverses cap identityPoll s := by
  have hread := doRead_converses hcap s.cfg.idModule s.cfg.idFunction 1 s.stdDelay s
  have hs : SameBus s s := ⟨rfl, rfl, rfl⟩
  unfold CallConverses
  cases hr : doRead s.cfg.idModule s.cfg.idFunction 1 s.stdDelay s with
  | ok t =>
    rw [identityPoll_of_ok hs hr]
    refine (hread.of_ok hr).andThen (identityTest_asksNothing t) fun as bs h => ?_
    rw [identityPoll_of_ok (sameBus_script as s) h, identityTest_script, Result.withState_state]
  | failed st info t =>
    rw [identityPoll_of_failed hs hr]
    exact (hread.of_failed hr).imp fun as v => identityPoll_of_failed (sameBus_script as s)
  | stalled t =>
    rw [identityPoll_of_stalled hs hr]
    exact (hread.of_stalled hr).imp fun as v => identityPoll_of_stalled (sameBus_script as s)

theorem handshakePolls_of_ok {s u t : State} (hu : SameBus s u)
    (h : retryFromOne identityPoll s.cfg.nIdTry s.cfg.tIdRetry u = .ok t) : handshakePolls u = t.returnOk := by
  simp only [handshakePolls, hu.cfg, h]

theorem handshakePolls_of_failed {s u t : State} {st : Status} {info : Byte} (hu : SameBus s u)
    (h : retryFromOne identityPoll s.cfg.nIdTry s.cfg.tIdRetry u = .failed st info t) :
    handshakePolls u = t.failHandshake .eHandshake st info := by
  simp only [handshakePolls, hu.cfg, h]

theorem handshakePolls_converses {cap : Nat} (hcap : 2 ≤ cap) (s : State) :
    Converses cap (fun u v => handshakePolls u = v) s (handshakePolls s) := by
  have hloop := retryFromOne_converses s.cfg.nIdTry s.cfg.tIdRetry (identityPoll_converses hcap)
    (fun u => (identityPoll_polled (.refl u)).state_devAddr) s
  have hs : SameBus s s := ⟨rfl, rfl, rfl⟩
  cases hr : retryFromOne identityPoll s.cfg.nIdTry s.cfg.tIdRetry s with
  | ok t =>
    rw [handshakePolls_of_ok hs hr]
    exact (hloop.of_ok hr).andThen (returnOk_asksNothing t) fun as bs => handshakePolls_of_ok (sameBus_script as s)
  | failed st info t =>
    rw [handshakePolls_of_failed hs hr]
    exact (hloop.of_failed hr).andThen (failHandshake_asksNothing .eHandshake st info t)
      fun as bs => handshakePolls_of_failed (sameBus_script as s)
  | stalled t =>
    rw [handshakePolls_of_stalled hs hr]
    exact (hloop.of_stalled hr).imp fun as v => handshakePolls_of_stalled (sameBus_script as s)

theorem execRst_converses {s t : State} (h : exec .rst s = .next t) :
    Converses 257 (fun u v => exec .rst u = .next v) s t := by
  have hwrite : CallConverses 257
      (fun u => doWrite s.cfg.rstModule s.cfg.rstFunction s.cfg.rstPayload u.startRst) s :=
    (doWrite_converses _ _ (Nat.add_le_add_right s.cfg.rstPayload_length_le 2) s.startRst).after
      (.of_trace_eq rfl fun _ => rfl) rfl
  have hkeeps := doWrite_called (.refl s.startRst) s.cfg.rstModule s.cfg.rstFunction s.cfg.rstPayload
  cases hr : doWrite s.cfg.rstModule s.cfg.rstFunction s.cfg.rstPayload s.startRst with
  | ok u =>
    rw [hr] at hkeeps
    cases (execRst_of_write_ok hr).symm.trans h
    have hpolls := (hwrite.of_ok hr).andThen (delay_asksNothing u.cfg.tResetSettle u)
      (H := fun a v => exec .rst a = .next (handshakePolls v)) fun as bs => execRst_of_write_ok
    exact hpolls.trans hkeeps.state_devAddr (handshakePolls_converses (by decide) _)
      fun as bs v h k => h.trans (congrArg _ k)
  | failed st info u =>
    cases (execRst_of_write_failed hr).symm.trans h
    exact (hwrite.of_failed hr).andThen (failHandshake_asksNothing st .ok info u)
      fun as bs => execRst_of_write_failed
  | stalled u =>
    cases (execRst_of_write_stalled hr).symm.trans h
    exact (hwrite.of_stalled hr).imp fun as v => execRst_of_write_stalled

theorem execMread_of_ok {s t : State}
    (h : retryFromOne moistureRead Config.moistTries s.cfg.tMoistBackoff s.startLoop = .ok t) :
    exec .mread s = .next t.takeSample.returnOk := by
  simp only [exec, execMread, h]

theorem execMread_of_failed {s t : State} {st : Status} {info : Byte}
    (h : retryFromOne moistureRead Config.moistTries s.cfg.tMoistBackoff s.startLoop = .failed st info t) :
    exec .mread s = .next (t.fail .eRetry st info) := by
  simp only [exec, execMread, h]

theorem moistureRead_converses {cap : Nat} (hcap : 2 ≤ cap) (s : State) : CallConverses cap moistureRead s :=
  (doRead_converses hcap s.cfg.moistModule s.cfg.moistFunction 2 s.cfg.tMoist s).imp fun _ _ h => h

theorem execMread_converses {s t : State} (h : exec .mread s = .next t) :
    Converses 257 (fun u v => exec .mread u = .next v) s t := by
  have hloop : CallConverses 257
      (fun u => retryFromOne moistureRead Config.moistTries s.cfg.tMoistBackoff u.startLoop) s :=
    (retryFromOne_converses _ _ (moistureRead_converses (by decide))
      (fun u => (moistureRead_called (.refl u)).state_devAddr) s.startLoop).after (.of_trace_eq rfl fun _ => rfl) rfl
  cases hr : retryFromOne moistureRead Config.moistTries s.cfg.tMoistBackoff s.startLoop with
  | ok u =>
    cases (execMread_of_ok hr).symm.trans h
    exact (hloop.of_ok hr).andThen ((returnOk_asksNothing _).comp (takeSample_asksNothing u))
      fun as bs => execMread_of_ok
  | failed st info u =>
    cases (execMread_of_failed hr).symm.trans h
    exact (hloop.of_failed hr).andThen (fail_asksNothing .eRetry st info u) fun as bs => execMread_of_failed
  | stalled u =>
    cases (execMread_of_stalled hr).symm.trans h
    exact (hloop.of_stalled hr).imp fun as v => execMread_of_stalled

/-- A command that is one procedure converses as the procedure does. -/
theorem CallConverses.exec_conclude {cap : Nat} {i : Instr} {f : State → Result} {finish : State → State}
    {s t : State} (hf : CallConverses cap f s) (hfin : ∀ u, AsksNothing finish u)
    (hexec : ∀ as, exec i (s.script as) = .next ((f (s.script as)).conclude finish)) (h : exec i s = .next t) :
    Converses cap (fun u v => exec i u = .next v) s t := by
  suffices hconclude : Converses cap (fun u v => (f u).conclude finish = v) s ((f s).conclude finish) by
    cases (hexec s.answers).symm.trans h
    exact hconclude.imp fun as v hv => hv ▸ hexec as
  cases hr : f s with
  | ok u => exact (hf.of_ok hr).andThen ((returnOk_asksNothing _).comp (hfin u)) fun as bs h => by rw [h]; rfl
  | failed st info u => exact (hf.of_failed hr).andThen (fail_asksNothing st .ok info u) fun as bs h => by rw [h]; rfl
  | stalled u => exact (hf.of_stalled hr).imp fun as v h => by rw [h]; rfl

/-- A command without bus traffic. -/
theorem AsksNothing.exec_converses {cap : Nat} {i : Instr} {g : State → State} {s t : State} (hg : AsksNothing g s)
    (hexec : ∀ as, exec i (s.script as) = .next (g (s.script as))) (h : exec i s = .next t) :
    Converses cap (fun u v => exec i u = .next v) s t := by
  cases (hexec s.answers).symm.trans h
  exact (Converses.refl s).andThen hg fun as bs heq => heq ▸ hexec as

theorem execCsrr_converses {cap : Nat} {c : Half} {s t : State} (h : exec (.csrr c) s = .next t) :
    Converses cap (fun u v => exec (.csrr c) u = .next v) s t := by
  cases hc : csrOf s.cfg.ringCap c with
  | none =>
    exact (fail_asksNothing .eBadCsr .ok 0 s).exec_converses
      (fun as => by simp only [exec, execCsrr, State.script_cfg, hc]) h
  | some x =>
    exact ((returnOk_asksNothing _).comp (csrRead_asksNothing x s)).exec_converses
      (fun as => by simp only [exec, execCsrr, State.script_cfg, hc]) h

theorem execCsrw_converses {cap : Nat} {c : Half} {v : Word} {s t : State} (h : exec (.csrw c v) s = .next t) :
    Converses cap (fun u w => exec (.csrw c v) u = .next w) s t := by
  have hrefused (k : Byte) := fail_asksNothing .eBadCsr .ok k s
  cases hc : csrOf s.cfg.ringCap c with
  | none =>
    exact (hrefused 0).exec_converses (fun as => by simp only [exec, execCsrw, State.script_cfg, hc]) h
  | some x =>
    cases hx : x.writableWidth with
    | none =>
      exact (hrefused 1).exec_converses (fun as => by simp only [exec, execCsrw, State.script_cfg, hc, hx]) h
    | some w =>
      by_cases hv : 2 ^ w ≤ v.toNat
      · exact (hrefused 2).exec_converses
          (fun as => by simp only [exec, execCsrw, State.script_cfg, hc, hx, if_pos hv]) h
      · exact ((returnOk_asksNothing _).comp (writeCsr_asksNothing x v s)).exec_converses
          (fun as => by simp only [exec, execCsrw, State.script_cfg, hc, hx, if_neg hv]) h

/-- A bound on the bytes of each write of the command; only the payload of WR can exceed what the bus takes. -/
def writeCap : Instr → Nat
  | .wr _ _ ws => max 257 (ws.length + 2)
  | .rdreg _ _ | .wrreg _ _ _ | .rd _ _ _ _ | .rst | .keydec _ | .keyenc _ _ | .keyrd _ | .keycnt | .keyint _
  | .keycfg _ _ _ | .mpush _ | .mavg | .mread | .csrr _ | .csrw _ _ => 257

/-- Every command replays on its own answers, and what it does on the bus is traffic to `DEV_ADDR`. -/
theorem exec_converses {i : Instr} {s t : State} (h : exec i s = .next t) :
    Converses (writeCap i) (fun u v => exec i u = .next v) s t := by
  have hread (m f n : Byte) (d : Word) := doRead_converses (cap := 257) (by decide) m f n d s
  have hwrite (m f : Byte) {ws : List Byte} (hws : ws.length + 2 ≤ 257) := doWrite_converses m f hws s
  have hquiet {g : State → State} (hg : AsksNothing g s) := (returnOk_asksNothing (g s)).comp hg
  have hid (u : State) : AsksNothing id u := .of_trace_eq rfl fun _ => rfl
  have hbyte (u : State) : AsksNothing State.byteToR u := .of_trace_eq rfl fun _ => rfl
  have hmark (u : State) : AsksNothing State.markEvents u := .of_trace_eq rfl fun _ => rfl
  have hint := Nat.add_le_add_right s.cfg.keyIntPayload_length_le 2
  cases i with
  | rdreg m f => exact (hread m f 1 s.stdDelay).exec_conclude hbyte (fun _ => rfl) h
  | rd m f n d => exact (hread m f n d).exec_conclude hid (fun _ => rfl) h
  | keyrd n =>
    exact (hread s.cfg.keyModule s.cfg.keyFnFifo n s.cfg.tKeyFifo).exec_conclude hmark (fun _ => rfl) h
  | keycnt => exact (hread s.cfg.keyModule s.cfg.keyFnCount 1 s.stdDelay).exec_conclude hbyte (fun _ => rfl) h
  | wrreg m f b => exact (hwrite m f (ws := [b]) (by simp)).exec_conclude hid (fun _ => rfl) h
  | wr m f ws => exact (doWrite_converses m f (Nat.le_max_right 257 _) s).exec_conclude hid (fun _ => rfl) h
  | keyint en =>
    exact (hwrite s.cfg.keyModule (if en then s.cfg.keyFnIntenset else s.cfg.keyFnIntenclr) hint).exec_conclude hid
      (fun _ => rfl) h
  | keycfg key emask en =>
    exact (hwrite s.cfg.keyModule s.cfg.keyFnEvent (ws := [key, keypadState emask en]) (by simp)).exec_conclude hid
      (fun _ => rfl) h
  | keydec b => exact (hquiet (setR_asksNothing (keyWord (keyDec b)) s)).exec_converses (fun _ => rfl) h
  | keyenc key edge =>
    exact (hquiet (setR_asksNothing ((keyEnc ⟨edge, key⟩).setWidth 32) s)).exec_converses (fun _ => rfl) h
  | mavg =>
    exact (hquiet (setR_asksNothing ((Ring.average s.cfg.ringCap s.ring).setWidth 32) s)).exec_converses
      (fun _ => rfl) h
  | mpush v => exact (hquiet (push_asksNothing v s)).exec_converses (fun _ => rfl) h
  | rst => exact execRst_converses h
  | mread => exact execMread_converses h
  | csrr => exact execCsrr_converses h
  | csrw => exact execCsrw_converses h

/-! ### The statements about the bus -/

/-- Settles O17: what a command does on the bus is traffic to `DEV_ADDR`. -/
theorem transactionsCarryDevAddr : Obligations.TransactionsCarryDevAddr := by
  intro i s t h
  obtain ⟨es, hreplays, htraffic⟩ := exec_converses h
  exact ⟨es, hreplays.trace, htraffic.addressOf_eq⟩

/-- Settles O19: a command replays on the answers of its own events, with nothing left over. -/
theorem commandIsDeterminedByItsAnswers : Obligations.CommandIsDeterminedByItsAnswers := by
  intro i s t h
  obtain ⟨es, hreplays, -⟩ := exec_converses h
  refine ⟨es, hreplays.trace, ?_⟩
  have hagain := hreplays.replay []
  rwa [List.append_nil] at hagain

/-! ### The framing of a run -/

theorem checked_eq_ok {x : Option Instr} {i : Instr} (h : checked x = .ok i) : x = some i := by
  cases x with
  | none => cases h
  | some j => cases h; rfl

/-- The payload of a decoded WR is as long as its `LEN` byte says (30_encoding R115). -/
theorem decodeOperands_wr {o : Opcode} {ops : List Byte} {m f : Byte} {ws : List Byte}
    (h : decodeOperands o ops = .ok (.wr m f ws)) : ws.length ≤ 255 := by
  cases o with
  | wr =>
    simp only [decodeOperands] at h
    split at h
    · rename_i k bs
      split at h
      · rename_i hlen
        cases h
        have := k.isLt
        omega
      · cases h
    · cases h
  | keyenc | keyint | keycfg =>
    simp only [decodeOperands] at h
    split at h
    · simpa [Option.bind_eq_some_iff] using checked_eq_ok h
    · cases h
  | rdreg | wrreg | rd | rst | keydec | keyrd | keycnt | mpush | mavg | mread | csrr | csrw =>
    simp only [decodeOperands] at h
    split at h <;> cases h

/-- What a descriptor carries fits the bus (20_memory R65). -/
theorem decode_writeCap {d : List Byte} {i : Instr} (h : decode d = .ok i) : writeCap i = 257 := by
  cases i with
  | wr m f ws =>
    suffices hlen : ws.length ≤ 255 from Nat.max_eq_left (Nat.add_le_add_right hlen 2)
    cases d with
    | nil => cases h
    | cons opc ops =>
      simp only [decode] at h
      split at h
      · cases h
      · exact decodeOperands_wr h
  | rdreg | wrreg | rd | rst | keydec | keyenc | keyrd | keycnt | keyint | keycfg | mpush | mavg | mread | csrr
  | csrw => rfl

/-- A step that runs a command runs one that its descriptor carries; see `step_cases` for the others. -/
theorem step_cases_decoded {s t : State} (h : step s = .next t) :
    t = s ∨ (∃ rest, t = s.applyReset rest) ∨ (∃ d rest, t = (s.accept d rest).rejectDescriptor) ∨
      ∃ i d rest, decode d = .ok i ∧ exec i (s.accept d rest) = .next t := by
  unfold step at h
  cases hf : s.fetch with
  | nothing => rw [hf] at h; cases h; exact .inl rfl
  | reset rest => rw [hf] at h; cases h; exact .inr (.inl ⟨rest, rfl⟩)
  | command d rest =>
    rw [hf] at h
    cases hd : decode d with
    | error e => simp only [hd] at h; cases h; exact .inr (.inr (.inl ⟨d, rest, rfl⟩))
    | ok i => simp only [hd] at h; exact .inr (.inr (.inr ⟨i, d, rest, hd, h⟩))

/-- Settles O13: a step puts events of the ports on record, or the traffic of a command that a descriptor carries. -/
theorem stepKeepsTheTraceFramed : Obligations.StepKeepsTheTraceFramed := by
  intro s t hs h
  have haccept (d : List Byte) : Framed (s.trace ++ [.accepted d]) := hs.concat trivial
  rcases step_cases_decoded h with rfl | ⟨rest, rfl⟩ | ⟨d, rest, rfl⟩ | ⟨i, d, rest, hd, h⟩
  · exact hs
  · exact hs.concat (e := .blockReset) trivial
  · exact (haccept d).concat (e := .responded _) trivial
  · obtain ⟨es, hreplays, htraffic⟩ := exec_converses h
    rw [decode_writeCap hd] at htraffic
    rw [hreplays.trace]
    exact (haccept d).append_traffic htraffic

end Sys2Proof.Machine
end

section
/-!
PROOFS. Descriptors (30_encoding): the operand fields and the opcode map, each said once; the decoder and the encoder
as inverses of each other; the decoder against the malformed descriptors of R121; then the statements about a step
that takes a descriptor, about the response, and about the commands that are fixed uses of RD and WR.
-/
namespace Sys2Proof

/-! ### Byte order (30_encoding R113) -/

theorem be16_extract (v : Half) : be16 (v.extractLsb' 8 8) (v.extractLsb' 0 8) = v := by
  apply BitVec.eq_of_toNat_eq
  have := v.isLt
  simp only [be16, BitVec.toNat_ofNat, BitVec.extractLsb'_toNat, Nat.shiftRight_eq_div_pow]
  omega

theorem be32_extract (v : Word) :
    be32 (v.extractLsb' 24 8) (v.extractLsb' 16 8) (v.extractLsb' 8 8) (v.extractLsb' 0 8) = v := by
  apply BitVec.eq_of_toNat_eq
  have := v.isLt
  simp only [be32, BitVec.toNat_ofNat, BitVec.extractLsb'_toNat, Nat.shiftRight_eq_div_pow]
  omega

theorem bytes16_be16 (h l : Byte) : bytes16 (be16 h l) = [h, l] := by
  have := h.isLt
  have := l.isLt
  simp only [bytes16, be16, List.cons.injEq, and_true, ← BitVec.toNat_inj, BitVec.extractLsb'_toNat,
    BitVec.toNat_ofNat, Nat.shiftRight_eq_div_pow]
  omega

theorem bytes32_be32 (b3 b2 b1 b0 : Byte) : bytes32 (be32 b3 b2 b1 b0) = [b3, b2, b1, b0] := by
  have := b3.isLt
  have := b2.isLt
  have := b1.isLt
  have := b0.isLt
  simp only [bytes32, be32, List.cons.injEq, and_true, ← BitVec.toNat_inj, BitVec.extractLsb'_toNat,
    BitVec.toNat_ofNat, Nat.shiftRight_eq_div_pow]
  omega

/-! ### Operand fields (30_encoding R115) -/

/-- A field of `w` bits is what zero-extends to its byte. -/
theorem lowField_eq_some {w : Nat} (hw : w ≤ 8) {b : Byte} {k : BitVec w} :
    lowField w b = some k ↔ k.setWidth 8 = b := by
  have hpow : 2 ^ w ≤ 2 ^ 8 := Nat.pow_le_pow_right (by decide) hw
  have hk := k.isLt
  have hb := b.isLt
  unfold lowField
  split
  · rename_i hlt
    rw [Option.some.injEq, ← BitVec.toNat_inj, ← BitVec.toNat_inj, BitVec.toNat_setWidth, BitVec.toNat_setWidth,
      Nat.mod_eq_of_lt hlt, Nat.mod_eq_of_lt (hk.trans_le hpow), eq_comm]
  · rename_i hge
    refine iff_of_false nofun fun h => hge ?_
    rw [← h, BitVec.toNat_setWidth, Nat.mod_eq_of_lt (hk.trans_le hpow)]
    exact hk

theorem flagField_eq_some {b : Byte} {en : Bool} : flagField b = some en ↔ flagByte en = b := by
  revert b en; decide

@[simp] theorem Edge.ofNumber_number (e : Edge) : Edge.ofNumber e.number = e := by
  cases e <;> rfl

@[simp] theorem Edge.number_ofNumber (b : BitVec 2) : (Edge.ofNumber b).number = b := by
  revert b; decide

/-! ### The opcode map (30_encoding R119 to R121) -/

theorem opcodeOf_number (o : Opcode) : opcodeOf o.number = some o := by
  cases o <;> rfl

theorem number_of_opcodeOf {b : Byte} {o : Opcode} (h : opcodeOf b = some o) : o.number = b := by
  simpa using List.find?_some h

/-- The opcode values that R121 lists as reserved are those that R120 leaves out. -/
theorem opcodeOf_eq_none_iff (b : Byte) : opcodeOf b = none ↔ Machine.reservedOpcode b = true := by
  revert b; decide

/-! ### The decoder and the encoder -/

@[simp] theorem lowField_setWidth {w : Nat} (hw : w ≤ 8) (k : BitVec w) : lowField w (k.setWidth 8) = some k :=
  (lowField_eq_some hw).2 rfl

@[simp] theorem flagField_flagByte (en : Bool) : flagField (flagByte en) = some en := flagField_eq_some.2 rfl

/-- The operand bytes of a well-formed command decode to it. -/
theorem decodeOperands_encodeOperands {i : Instr} (h : i.wellFormed = true) :
    decodeOperands i.opcode (encodeOperands i) = .ok i := by
  cases i with
  | wr m f ws =>
    have hlen : ws.length = (BitVec.ofNat 8 ws.length).toNat := by
      have : ws.length ≤ 255 := by simpa [Instr.wellFormed] using h
      rw [BitVec.toNat_ofNat]
      omega
    exact if_pos hlen
  | keyenc | keyint | keycfg => simp [Instr.opcode, encodeOperands, decodeOperands, checked]
  | rd | mpush | csrr | csrw =>
    simp [Instr.opcode, encodeOperands, decodeOperands, bytes16, bytes32, be16_extract, be32_extract]
  | rdreg | wrreg | rst | keydec | keyrd | keycnt | mavg | mread => rfl

theorem decode_of_opcode (o : Opcode) (ops : List Byte) : decode (o.number :: ops) = decodeOperands o ops := by
  rw [decode, opcodeOf_number]

/-- Settles O2: the opcode number selects the format in which the operands were laid out. -/
theorem decodeOfEncodeIsTheCommand : Obligations.DecodeOfEncodeIsTheCommand := fun i h =>
  (decode_of_opcode i.opcode (encodeOperands i)).trans (decodeOperands_encodeOperands h)

/-- A command with an operand to check decodes only if the operand does. -/
theorem exists_of_checked_bind {α : Type} {x : Option α} {f : α → Option Instr} {i : Instr}
    (h : checked (x >>= f) = .ok i) : ∃ a, x = some a ∧ checked (f a) = .ok i := by
  cases x with
  | none => cases h
  | some a => exact ⟨a, rfl, h⟩

/-- Operand bytes that decode are those of the command, whose opcode is the one they were read under. -/
theorem encodeOperands_of_decodeOperands {o : Opcode} {ops : List Byte} {i : Instr}
    (h : decodeOperands o ops = .ok i) : i.opcode = o ∧ encodeOperands i = ops := by
  cases o with
  | wr =>
    simp only [decodeOperands] at h
    split at h
    · split at h
      · rename_i hlen
        cases h
        exact ⟨rfl, by simp [encodeOperands, hlen]⟩
      · cases h
    · cases h
  | keyenc =>
    simp only [decodeOperands] at h
    split at h
    · obtain ⟨k, hk, h⟩ := exists_of_checked_bind h
      obtain ⟨e, he, h⟩ := exists_of_checked_bind h
      rw [lowField_eq_some (by decide)] at hk he
      cases h
      exact ⟨rfl, by simp [encodeOperands, hk, he]⟩
    · cases h
  | keyint =>
    simp only [decodeOperands] at h
    split at h
    · obtain ⟨en, hen, h⟩ := exists_of_checked_bind h
      cases h
      exact ⟨rfl, by simp [encodeOperands, flagField_eq_some.1 hen]⟩
    · cases h
  | keycfg =>
    simp only [decodeOperands] at h
    split at h
    · obtain ⟨m, hm, h⟩ := exists_of_checked_bind h
      obtain ⟨en, hen, h⟩ := exists_of_checked_bind h
      rw [lowField_eq_some (by decide)] at hm
      cases h
      exact ⟨rfl, by simp [encodeOperands, hm, flagField_eq_some.1 hen]⟩
    · cases h
  | rdreg | wrreg | rd | rst | keydec | keyrd | keycnt | mpush | mavg | mread | csrr | csrw =>
    simp only [decodeOperands] at h
    split at h <;> cases h
    exact ⟨rfl, by simp [encodeOperands, bytes16_be16, bytes32_be32]⟩

/-- A descriptor that decodes has the opcode its first byte selects, and operands in the format of that opcode. -/
theorem decode_eq_ok {d : List Byte} {i : Instr} (h : decode d = .ok i) :
    ∃ o ops, d = o.number :: ops ∧ decodeOperands o ops = .ok i := by
  cases d with
  | nil => cases h
  | cons opc ops =>
    simp only [decode] at h
    split at h
    · cases h
    · rename_i o ho
      exact ⟨o, ops, by rw [number_of_opcodeOf ho], h⟩

/-- Settles O3: the opcode number is the byte it was selected by, and the operands are laid out again as they stood. -/
theorem encodeOfDecodeIsTheDescriptor : Obligations.EncodeOfDecodeIsTheDescriptor := by
  intro d i h
  obtain ⟨o, ops, rfl, hops⟩ := decode_eq_ok h
  obtain ⟨hopcode, henc⟩ := encodeOperands_of_decodeOperands hops
  refine ⟨by rw [encode, hopcode, henc], ?_⟩
  cases i with
  | wr m f ws => exact decide_eq_true (Machine.decodeOperands_wr hops)
  | rdreg | wrreg | rd | rst | keydec | keyenc | keyrd | keycnt | keyint | keycfg | mpush | mavg | mread | csrr
  | csrw => rfl

/-- Settles O1: each is the encoding of its command. -/
theorem specDescriptorsDecode : Obligations.SpecDescriptorsDecode :=
  ⟨decodeOfEncodeIsTheCommand (.rdreg 0x00 0x01) rfl, decodeOfEncodeIsTheCommand (.rd 0x0F 0x10 2 3000) rfl,
    decodeOfEncodeIsTheCommand (.wr 0x10 0x01 [0x04, 0x19]) rfl, decodeOfEncodeIsTheCommand .rst rfl,
    decodeOfEncodeIsTheCommand (.keyenc 5 .rising) rfl, decodeOfEncodeIsTheCommand (.keycfg 4 0b1100 true) rfl,
    decodeOfEncodeIsTheCommand (.mpush 300) rfl, decodeOfEncodeIsTheCommand (.csrw 0x0002 1000) rfl⟩

/-! ### Malformed descriptors (30_encoding R121) -/

theorem number_not_reserved (o : Opcode) : Machine.reservedOpcode o.number = false := by
  cases o <;> rfl

theorem exists_number_of_not_reserved {b : Byte} (h : Machine.reservedOpcode b ≠ true) : ∃ o : Opcode, o.number = b :=
  let ⟨o, ho⟩ := Option.ne_none_iff_exists'.1 (mt (opcodeOf_eq_none_iff b).1 h)
  ⟨o, number_of_opcodeOf ho⟩

/-- The two readings of the format table agree (30_encoding R114, R116). -/
theorem formatLength_cons (o : Opcode) (ops : List Byte) :
    Machine.formatLength (o.number :: ops) = o.length (ops.getD 2 0) := by
  cases o <;> rfl

/-- The must-be-zero bits of R115 are those above a field of `w` bits. -/
theorem and_mask_eq_zero_iff {w : Nat} {mask b : Byte} (hw : w ≤ 8) (hmask : mask = BitVec.allOnes 8 <<< w) :
    b &&& mask = 0 ↔ ∃ k, lowField w b = some k := by
  have hlow : b &&& mask = 0 ↔ b.toNat < 2 ^ w := by
    subst hmask
    interval_cases w <;> revert b <;> decide
  rw [hlow, lowField]
  split <;> simp [*]

theorem and_flagMask_eq_zero_iff {b : Byte} : b &&& 0xFE = 0 ↔ ∃ en, flagField b = some en := by
  rw [and_mask_eq_zero_iff (w := 1) (mask := 0xFE) (by decide) rfl]
  cases h : lowField 1 b <;> simp [flagField, h]

theorem badOperandBit_keyenc (k e : Byte) :
    Machine.badOperandBit (Opcode.keyenc.number :: [k, e]) = false ↔
      (∃ k', lowField 6 k = some k') ∧ ∃ e', lowField 2 e = some e' := by
  rw [← and_mask_eq_zero_iff (mask := 0xC0) (by decide) rfl, ← and_mask_eq_zero_iff (mask := 0xFC) (by decide) rfl]
  simp [Machine.badOperandBit, Opcode.number]

theorem badOperandBit_keyint (b : Byte) :
    Machine.badOperandBit (Opcode.keyint.number :: [b]) = false ↔ ∃ en, flagField b = some en := by
  rw [← and_flagMask_eq_zero_iff]
  simp [Machine.badOperandBit, Opcode.number]

theorem badOperandBit_keycfg (k m e : Byte) :
    Machine.badOperandBit (Opcode.keycfg.number :: [k, m, e]) = false ↔
      (∃ m', lowField 4 m = some m') ∧ ∃ en, flagField e = some en := by
  rw [← and_mask_eq_zero_iff (mask := 0xF0) (by decide) rfl, ← and_flagMask_eq_zero_iff]
  simp [Machine.badOperandBit, Opcode.number]

/-- Operand bytes of the length R116 requires, without a bit that must be 0, decode (30_encoding R115). -/
theorem exists_decodeOperands {o : Opcode} {ops : List Byte} (hlen : ops.length + 1 = o.length (ops.getD 2 0))
    (hbits : Machine.badOperandBit (o.number :: ops) = false) : ∃ i, decodeOperands o ops = .ok i := by
  cases o with
  | rst | keycnt | mavg | mread =>
    match ops, hlen with
    | [], _ => exact ⟨_, rfl⟩
  | keydec | keyrd =>
    match ops, hlen with
    | [_], _ => exact ⟨_, rfl⟩
  | rdreg | mpush | csrr =>
    match ops, hlen with
    | [_, _], _ => exact ⟨_, rfl⟩
  | wrreg =>
    match ops, hlen with
    | [_, _, _], _ => exact ⟨_, rfl⟩
  | csrw =>
    match ops, hlen with
    | [_, _, _, _, _, _], _ => exact ⟨_, rfl⟩
  | rd =>
    match ops, hlen with
    | [_, _, _, _, _, _, _], _ => exact ⟨_, rfl⟩
  | wr =>
    match ops, hlen with
    | m :: f :: k :: ws, hlen =>
      have hws : ws.length = k.toNat := by
        simp only [Opcode.length, List.length_cons, List.getD_cons_succ, List.getD_cons_zero] at hlen
        omega
      exact ⟨_, if_pos hws⟩
  | keyenc =>
    match ops, hlen with
    | [k, e], _ =>
      obtain ⟨⟨k', hk⟩, ⟨e', he⟩⟩ := (badOperandBit_keyenc k e).1 hbits
      exact ⟨.keyenc k' (.ofNumber e'), by simp [decodeOperands, hk, he, checked]⟩
  | keyint =>
    match ops, hlen with
    | [b], _ =>
      obtain ⟨en, hen⟩ := (badOperandBit_keyint b).1 hbits
      exact ⟨.keyint en, by simp [decodeOperands, hen, checked]⟩
  | keycfg =>
    match ops, hlen with
    | [k, m, e], _ =>
      obtain ⟨⟨m', hm⟩, ⟨en, hen⟩⟩ := (badOperandBit_keycfg k m e).1 hbits
      exact ⟨.keycfg k m' en, by simp [decodeOperands, hm, hen, checked]⟩

/-- The descriptor of a command sets no bit that must be 0 (30_encoding R115). -/
theorem badOperandBit_encode (i : Instr) : Machine.badOperandBit (encode i) = false := by
  cases i with
  | keyenc k e =>
    exact (badOperandBit_keyenc _ _).2
      ⟨⟨k, lowField_setWidth (by decide) k⟩, ⟨e.number, lowField_setWidth (by decide) e.number⟩⟩
  | keyint en => exact (badOperandBit_keyint _).2 ⟨en, flagField_flagByte en⟩
  | keycfg k m en =>
    exact (badOperandBit_keycfg _ _ _).2 ⟨⟨m, lowField_setWidth (by decide) m⟩, ⟨en, flagField_flagByte en⟩⟩
  | rdreg | wrreg | rd | wr | rst | keydec | keyrd | keycnt | mpush | mavg | mread | csrr | csrw => rfl

/-- The descriptor of a well-formed command is as long as R116 requires. -/
theorem encode_length {i : Instr} (h : i.wellFormed = true) : (encode i).length = Machine.formatLength (encode i) := by
  cases i with
  | wr m f ws => exact (Laws.EncodedShape.wr m f ws h).2
  | rdreg | wrreg | rd | rst | keydec | keyenc | keyrd | keycnt | keyint | keycfg | mpush | mavg | mread | csrr
  | csrw => rfl

theorem encode_not_malformed {i : Instr} (h : i.wellFormed = true) : ¬ Machine.Malformed (encode i) := by
  rintro (hnil | hres | hlen | hbits)
  · cases hnil
  · cases (number_not_reserved i.opcode).symm.trans hres
  · exact hlen (encode_length h)
  · cases (badOperandBit_encode i).symm.trans hbits

/-- What is not malformed decodes: its opcode is one of the map, and its operands have the length and the zero bits. -/
theorem exists_decode_of_not_malformed {d : List Byte} (h : ¬ Machine.Malformed d) : ∃ i, decode d = .ok i := by
  obtain ⟨hnil, hres, hlen, hbits⟩ : d ≠ [] ∧ _ ∧ _ ∧ _ := by simpa only [Machine.Malformed, not_or] using h
  obtain ⟨opc, ops, rfl⟩ := List.exists_cons_of_ne_nil hnil
  obtain ⟨o, rfl⟩ := exists_number_of_not_reserved hres
  rw [ne_eq, not_not, formatLength_cons] at hlen
  obtain ⟨i, hi⟩ := exists_decodeOperands hlen (by simpa using hbits)
  exact ⟨i, (decode_of_opcode o ops).trans hi⟩

/-- Settles O4: the descriptors that decode are those of the well-formed commands, and these are not malformed. -/
theorem decodeRejectsExactlyTheMalformed : Obligations.DecodeRejectsExactlyTheMalformed := by
  refine fun d => ⟨fun ⟨e, he⟩ => ?_, fun hmal => ?_⟩
  · by_contra hmal
    obtain ⟨i, hi⟩ := exists_decode_of_not_malformed hmal
    cases hi.symm.trans he
  · cases hd : decode d with
    | error e => exact ⟨e, rfl⟩
    | ok i =>
      obtain ⟨rfl, hwf⟩ := encodeOfDecodeIsTheDescriptor d i hd
      exact absurd hmal (encode_not_malformed hwf)

end Sys2Proof

namespace Sys2Proof.Machine

/-! ### A step that takes a descriptor (60_exceptions R251) -/

theorem State.fetch_of_command {s : State} {d : List Byte} {rest : List HostInput} (hs : s.seq = .idle)
    (hi : s.inputs = .command d :: rest) : s.fetch = .command d rest := by
  simp only [State.fetch, hs, hi]

theorem step_of_decode_ok {s : State} {d : List Byte} {rest : List HostInput} {i : Instr} (hs : s.seq = .idle)
    (hi : s.inputs = .command d :: rest) (hd : decode d = .ok i) : step s = exec i (s.accept d rest) := by
  simp only [step, State.fetch_of_command hs hi, hd]

theorem step_of_decode_error {s : State} {d : List Byte} {rest : List HostInput} {e : DecodeError}
    (hs : s.seq = .idle) (hi : s.inputs = .command d :: rest) (hd : decode d = .error e) :
    step s = .next (s.accept d rest).rejectDescriptor := by
  simp only [step, State.fetch_of_command hs hi, hd]

/-- Settles O5: what is malformed does not decode (`decodeRejectsExactlyTheMalformed`), and is rejected. -/
theorem malformedDescriptorEndsBadCmd : Obligations.MalformedDescriptorEndsBadCmd := by
  intro s d rest hs hi hmal
  obtain ⟨e, he⟩ := (decodeRejectsExactlyTheMalformed d).2 hmal
  refine ⟨_, step_of_decode_error hs hi he, ?_, ?_⟩
  · rw [State.rejectDescriptor]
    exact State.fail_ended .eBadCmd .ok 0 (State.accept_trace d rest s)
  · simp [State.rejectDescriptor, SameSettings, SameHandshake, SameRing, SameLoop]

theorem decode_tableDescriptor {nbits w : Nat} {i : Instr} (h : decodeTableWord nbits w = some i) :
    decode (tableDescriptor nbits w) = .ok i := by
  unfold decodeTableWord at h
  split at h
  · rename_i hd; cases h; exact hd
  · cases h

/-- Settles O10: the row's descriptor stands first in the host's list of an idle block. -/
theorem tableRowRunsNext : Obligations.TableRowRunsNext := fun s nbits w _ h =>
  step_of_decode_ok (s := s.withFetchWord nbits w) rfl rfl (decode_tableDescriptor h)

/-! ### The response (30_encoding R118) -/

/-- The response port shows the response of the state itself, and a failure left no byte of `BUF`. -/
structure Responded (t : State) : Prop where
  response : t.response = some t.responseBytes
  blen_of_failed : t.st ≠ .ok → t.blen = 0

theorem State.returnOk_responded (u : State) : Responded u.returnOk :=
  ⟨rfl, fun h => absurd rfl h⟩

theorem State.fail_responded (st sub : Status) (info : Byte) (u : State) : Responded (u.fail st sub info) :=
  ⟨rfl, fun _ => rfl⟩

theorem RstEnds.responded {s t : State} (h : RstEnds s t) (hidle : t.seq = .idle) : Responded t := by
  cases h with
  | stalled _ hp => exact absurd hidle hp
  | writeFailed | pollsSpent => exact State.fail_responded ..
  | ready => exact State.returnOk_responded _

theorem MreadEnds.responded {s t : State} (h : MreadEnds s t) (hidle : t.seq = .idle) : Responded t := by
  cases h with
  | stalled _ hp => exact absurd hidle hp
  | attemptsSpent => exact State.fail_responded ..
  | sampled => exact State.returnOk_responded _

/-- A command that has ended has delivered its response (60_exceptions R229, R230). -/
theorem Ends.responded {i : Instr} {s t : State} (h : Ends s i t) (hidle : t.seq = .idle) : Responded t := by
  cases h with
  | returned | keyrd | devAddr | stdDelay | mpush => exact State.returnOk_responded _
  | failed => exact State.fail_responded ..
  | stalled _ _ hp => exact absurd hidle hp
  | rst h => exact h.responded hidle
  | mread h => exact h.responded hidle

theorem Status.code_eq_ofNat (st : Status) : st.code = BitVec.ofNat 8 (statusNumber st) := by
  cases st <;> rfl

/-- The four bytes of `R` are its digits to the base 256, most significant first. -/
theorem bytes32_foldl (v : Word) : (bytes32 v).foldl (fun n b => 256 * n + b.toNat) 0 = v.toNat := by
  have := v.isLt
  simp only [bytes32, List.foldl_cons, List.foldl_nil, BitVec.extractLsb'_toNat, Nat.shiftRight_eq_div_pow]
  omega

theorem State.validBytes_getElem? {s : State} {k : Nat} (hk : k < s.blen.toNat) :
    s.validBytes[k]? = some (s.bufByte k) := by
  simp [State.validBytes, hk]

theorem State.responseBytes_length (s : State) : s.responseBytes.length = 8 + s.blen.toNat := by
  simp [State.responseBytes, bytes32, State.validBytes]; omega

/-- Settles O20: the bytes of the response stand where R118 lays them out. -/
theorem responseIsBuiltFromTheEndState : Obligations.ResponseIsBuiltFromTheEndState := by
  intro i s t h hidle
  obtain ⟨hresponse, hblen⟩ := (exec_ends h).responded hidle
  refine ⟨_, hresponse, t.responseBytes_length, ?_, bytes32_foldl t.r, rfl, fun k hk => ?_, hblen⟩
  · rw [← Status.code_eq_ofNat, ← Status.code_eq_ofNat]
    rfl
  · exact State.validBytes_getElem? hk

/-! ### Fixed uses of RD and WR (30_encoding R124) -/

/-- In the state `s` the commands `i` and `j` make the same events of the bus and of time, the same `BUF` and `BLEN`,
and the same status record. -/
def SameTraffic (s : State) (i j : Instr) : Prop :=
  ∃ t u es, exec i s = .next t ∧ exec j s = .next u ∧ busEvents t.trace = busEvents s.trace ++ es ∧
    busEvents u.trace = busEvents s.trace ++ es ∧ t.buf = u.buf ∧ t.blen = u.blen ∧ t.st = u.st ∧ t.sub = u.sub ∧
    t.info = u.info

/-- What a command writes of its own after its procedure is no event, and nothing in `BUF`. -/
structure KeepsBytes (finish : State → State) : Prop where
  trace : ∀ u, (finish u).trace = u.trace
  buf : ∀ u, (finish u).buf = u.buf
  blen : ∀ u, (finish u).blen = u.blen

theorem keepsBytes_id : KeepsBytes id := ⟨fun _ => rfl, fun _ => rfl, fun _ => rfl⟩
theorem keepsBytes_byteToR : KeepsBytes State.byteToR := ⟨fun _ => rfl, fun _ => rfl, fun _ => rfl⟩
theorem keepsBytes_markEvents : KeepsBytes State.markEvents := ⟨fun _ => rfl, fun _ => rfl, fun _ => rfl⟩

theorem busEvents_append (es fs : List Event) : busEvents (es ++ fs) = busEvents es ++ busEvents fs :=
  List.filter_append ..

@[simp] theorem busEvents_concat_responded (es : List Event) (bs : List Byte) :
    busEvents (es ++ [.responded bs]) = busEvents es := by
  simp [busEvents]

theorem Running.busEvents_trace {s t : State} (h : Running s t) :
    ∃ es, busEvents t.trace = busEvents s.trace ++ es := by
  obtain ⟨es, hu⟩ := h.underway
  exact ⟨busEvents es, by rw [hu.trace, busEvents_append]⟩

theorem Called.running {s u : State} {r : Result} (h : Called s u r) : Running s r.state := by
  cases h with
  | ok ht | failed ht | stalled ht => exact ht

/-- The bus sees of a command that is one procedure what the procedure does on it. -/
theorem Called.busEvents_conclude {s : State} {r : Result} (h : Called s s r) {f : State → State} (hf : KeepsBytes f) :
    busEvents (r.conclude f).trace = busEvents r.state.trace := by
  cases h with
  | ok => simp [Result.conclude, Result.state, hf.trace]
  | failed => simp [Result.conclude, Result.state]
  | stalled => rfl

/-- Two commands that are the same procedure, up to what each writes of its own after it. -/
theorem SameTraffic.of_conclude {s : State} {i j : Instr} {r : Result} {f g : State → State} (hr : Called s s r)
    (hi : exec i s = .next (r.conclude f)) (hj : exec j s = .next (r.conclude g)) (hf : KeepsBytes f)
    (hg : KeepsBytes g) : SameTraffic s i j := by
  obtain ⟨es, hes⟩ := hr.running.busEvents_trace
  refine ⟨_, _, es, hi, hj, (hr.busEvents_conclude hf).trans hes, (hr.busEvents_conclude hg).trans hes, ?_⟩
  cases r with
  | ok u => simp [Result.conclude, hf.buf, hf.blen, hg.buf, hg.blen]
  | failed | stalled => exact ⟨rfl, rfl, rfl, rfl, rfl⟩

/-- A command that is one read makes the traffic of the RD of the same address pair, length and delay. -/
theorem sameTraffic_rd {s : State} {i : Instr} {m f n : Byte} {d : Word} {g : State → State} (hg : KeepsBytes g)
    (hi : exec i s = .next ((doRead m f n d s).conclude g)) : SameTraffic s i (.rd m f n d) :=
  .of_conclude (doRead_called (.refl s) m f n d) hi rfl hg keepsBytes_id

/-- A command that is one write makes the traffic of the WR of the same address pair and payload. -/
theorem sameTraffic_wr {s : State} {i : Instr} {m f : Byte} {ws : List Byte}
    (hi : exec i s = .next ((doWrite m f ws s).conclude id)) : SameTraffic s i (.wr m f ws) :=
  .of_conclude (doWrite_called (.refl s) m f ws) hi rfl keepsBytes_id keepsBytes_id

/-- Settles O25: each of the six is one `DoRead` or `DoWrite`, that of the RD or WR beside it. -/
theorem pseudoCommandsAreReadsAndWrites : Obligations.PseudoCommandsAreReadsAndWrites := by
  intro s
  refine ⟨fun m f => ?_, fun m f b => ?_, ?_, fun n => ?_, ?_, ?_, fun k m en => ?_⟩
  · exact sameTraffic_rd keepsBytes_byteToR rfl
  · exact sameTraffic_wr rfl
  · exact sameTraffic_rd keepsBytes_byteToR rfl
  · exact sameTraffic_rd keepsBytes_markEvents rfl
  · exact sameTraffic_wr rfl
  · exact sameTraffic_wr rfl
  · rw [← keypadState_eq_ofNat]
    exact sameTraffic_wr rfl

end Sys2Proof.Machine
end

section
/-!
PROOFS. The Register Protocol Engine (40_core): the commands that are one read or one write, how each ends when the
transport takes it and when the transport refuses it; and what a transport that answers never does.
-/
namespace Sys2Proof.Machine

/-! ### A read that ends `OK` -/

/-- A command begun in `s` has come to `u` by a read of the bytes `bs` that the transport answered, without ending
(40_core R140, 10_state R29): its bytes, its events, and all that a read leaves alone but `R`. -/
structure HasRead (s u : State) (m f : Byte) (d : Word) (w bs : List Byte) : Prop where
  underway : Underway s u (readEvents s.devAddr m f bs.length d w bs)
  blen : u.blen.toNat = bs.length
  bytes : ∀ i (h : i < bs.length), u.bufByte i = bs[i]
  loop : SameLoop s u
  dcnt : u.dcnt = 0
  answers : u.answers = s.answers.drop 2
  draws : u.draws = s.draws

namespace HasRead

variable {s u : State} {m f : Byte} {d : Word} {w bs : List Byte}

/-- A write of `R` is no part of what a read leaves. -/
theorem setR (h : HasRead s u m f d w bs) (v : Word) : HasRead s (u.setR v) m f d w bs where
  underway := ⟨h.underway.settings, h.underway.handshake, h.underway.ring, h.underway.outside, h.underway.response,
    h.underway.st, h.underway.sub, h.underway.info, h.underway.trace⟩
  blen := h.blen
  bytes := h.bytes
  loop := h.loop
  dcnt := h.dcnt
  answers := h.answers
  draws := h.draws

/-- `return OK` after a read (60_exceptions R229). -/
theorem returnOk (h : HasRead s u m f d w bs) : ReadEffect s u.returnOk m f d w bs :=
  ⟨h.blen, h.bytes, State.returnOk_ended h.underway.trace, h.underway.settings, h.underway.handshake,
    h.underway.ring, h.loop, h.dcnt, h.underway.outside, h.answers, h.draws⟩

end HasRead

/-- A read that the transport answers with as many bytes as asked for ends `OK`; its bytes are no events yet, and `R`
is as it was. -/
theorem doRead_hasRead {m f n : Byte} {d : Word} {s : State} {w bs : List Byte} (hw : TakesPair s m f w)
    (hb : Returns s m f d n.toNat bs) (hl : bs.length = n.toNat) :
    ∃ u, doRead m f n d s = .ok u ∧ HasRead s u m f d w bs ∧ u.evtValid = false ∧ u.r = s.r := by
  have hu := ((afterAddressPhase_underway hw).transact .data hb).loadBuf bs
  rw [← hl] at hu
  refine ⟨_, doRead_eq_ok hw hb hl, ?_, by simp, by simp⟩
  rw [← hl]
  exact
    { underway := hu
      blen := State.loadBuf_blen_toNat bs _ (by have := n.isLt; omega)
      bytes := fun i h => State.loadBuf_bufByte bs _ i h
      loop := by simp [SameLoop]
      dcnt := by simp
      answers := by simp [← List.drop_one]
      draws := by simp }

theorem setWidth_word_toNat (b : Byte) : (b.setWidth 32).toNat = b.toNat := by
  have := b.isLt
  rw [BitVec.toNat_setWidth]
  omega

/-- Settles O26: a read of one byte, which is then written to `R`. -/
theorem rdregReadsOneByte : Obligations.RdregReadsOneByte := by
  intro m f s w b hw hb
  obtain ⟨u, hu, hread, hevt, -⟩ := doRead_hasRead (n := 1) hw hb rfl
  have hexec : exec (.rdreg m f) s = .next u.byteToR.returnOk := by
    simp only [exec, execRdreg, hu, Result.conclude]
  have hb0 : u.bufByte 0 = b := hread.bytes 0 Nat.one_pos
  refine ⟨_, hexec, ?_, (hread.setR _).returnOk, State.evt_of_not_valid hevt⟩
  rw [← setWidth_word_toNat b, ← hb0]
  rfl

/-- Settles O27: a read, and no write of its own. -/
theorem rdReadsTheBytes : Obligations.RdReadsTheBytes := by
  intro m f n d s w bs hw hb hl
  obtain ⟨u, hu, hread, hevt, hr⟩ := doRead_hasRead hw hb hl
  have hexec : exec (.rd m f n d) s = .next u.returnOk := by
    simp only [exec, execRd, hu, Result.conclude, id]
  exact ⟨_, hexec, hr, hread.returnOk, State.evt_of_not_valid hevt⟩

/-! ### A read that fails -/

/-- A command on its way that fails (60_exceptions R230): its events and the status record, and all that a failure
leaves alone. -/
theorem Underway.fail_frame {s u : State} {es : List Event} (h : Underway s u es) (hl : SameLoop s u) {d : Word}
    (hd : u.dcnt = d) {k : Nat} (ha : u.answers = s.answers.drop k) (st sub : Status) (info : Byte) :
    EndedFailed s (u.fail st sub info) st sub info es ∧ SameSettings s (u.fail st sub info) ∧
      SameHandshake s (u.fail st sub info) ∧ SameRing s (u.fail st sub info) ∧ SameLoop s (u.fail st sub info) ∧
      (u.fail st sub info).dcnt = d ∧ SameOutside s (u.fail st sub info) ∧
      (u.fail st sub info).answers = s.answers.drop k :=
  ⟨State.fail_ended st sub info h.trace, h.settings, h.handshake, h.ring, hl, hd, h.outside, ha⟩

/-- A command that is one read fails as the read does (40_core R142, R144, 41_key R174, R175). -/
theorem exec_of_read_failed {i : Instr} {s u : State} {m f n : Byte} {d : Word} {st : Status} {info : Byte}
    (hform : readForm s i = some (m, f, n, d)) (h : doRead m f n d s = .failed st info u) :
    exec i s = .next (u.fail st .ok info) := by
  obtain ⟨finish, hexec⟩ := exec_of_readForm hform
  rw [hexec, h, Result.conclude]

/-- Settles O30: the read ends with its one transaction, the refused address pair. -/
theorem readFailsAtItsAddressPair : Obligations.ReadFailsAtItsAddressPair := by
  intro i s m f n d e hform h
  exact ⟨_, exec_of_read_failed hform (doRead_of_address_fail h),
    ((Underway.refl s).transact .addr h).fail_frame (by simp [SameLoop]) (by simp) (by simp) ..⟩

theorem countByte_toNat (n : Nat) : (countByte n).toNat = min n 255 := by
  rw [countByte, BitVec.toNat_ofNat]
  omega

/-- Settles O31: the two ways a data phase fails leave the same state, but for the status record. -/
theorem readFailsInItsDataPhase : Obligations.ReadFailsInItsDataPhase := by
  intro i s m f n d w x hform hw hx st info hcase
  have haddr : (s.afterAddressPhase m f d).devAddr = s.devAddr := State.afterAddressPhase_devAddr ..
  have hdata : dataPhase n (s.afterAddressPhase m f d) =
      .failed st info (((s.afterAddressPhase m f d).enter .data).issue (.read s.devAddr n.toNat)) := by
    rcases hcase with ⟨e, rfl, rfl, rfl⟩ | ⟨bs, rfl, hl, rfl, hinfo⟩
    · exact dataPhase_of_fail haddr hx
    · rw [BitVec.eq_of_toNat_eq (hinfo.trans (countByte_toNat bs.length).symm)]
      exact dataPhase_of_length haddr hx hl
  exact ⟨_, exec_of_read_failed hform ((doRead_of_takesPair hw).trans hdata),
    ((afterAddressPhase_underway hw).transact .data hx).fail_frame (by simp [SameLoop]) (by simp)
      (by simp [← List.drop_one]) ..⟩

/-! ### Writes -/

/-- A write that the transport takes, and `return OK` after it (40_core R141, 60_exceptions R229). -/
theorem doWrite_writeEffect {m f : Byte} {ws w : List Byte} {s : State}
    (h : s.nextAnswer (.write s.devAddr (m :: f :: ws)) = .reply (.ok w)) :
    WriteEffect s ((doWrite m f ws s).conclude id) w (m :: f :: ws) := by
  have hu := (Underway.refl s).transact .write h
  rw [doWrite_of_ok rfl h, Result.conclude, id]
  exact ⟨State.returnOk_ended hu.trace, by simp, by simp [SameBuf], hu.settings, hu.handshake, hu.ring,
    by simp [SameLoop], by simp, hu.outside, by simp, by simp⟩

/-- Settles O32: WRREG is one write of a one-byte payload. -/
theorem wrregWritesOneByte : Obligations.WrregWritesOneByte :=
  fun _ _ _ _ _ h => ⟨_, rfl, doWrite_writeEffect h⟩

/-- Settles O33: WR is one write of its payload. -/
theorem wrWritesThePayload : Obligations.WrWritesThePayload :=
  fun _ _ _ _ _ h => ⟨_, rfl, doWrite_writeEffect h⟩

/-- Settles O36: the write ends with its one transaction, which the transport refused. -/
theorem writeFailsWithTheTransportCode : Obligations.WriteFailsWithTheTransportCode := by
  intro i s ws e hform h
  obtain ⟨m, f, bs, rfl, hexec⟩ := exec_of_writeForm hform
  rw [doWrite_of_fail rfl h, Result.conclude] at hexec
  exact ⟨_, hexec, ((Underway.refl s).transact .write h).fail_frame (by simp [SameLoop]) (by simp) (by simp) ..⟩

/-! ### A transport that answers (20_memory R67) -/

/-- The script holds no silence. -/
def Answering (s : State) : Prop := ∀ a ∈ s.answers, a ≠ .silent

/-- Answers are used up one by one, and none is added. -/
theorem Answering.issue {s : State} (h : Answering s) (x : Transaction) : Answering (s.issue x) :=
  fun a ha => h a (List.mem_of_mem_tail ha)

theorem Answering.afterAddressPhase {s : State} (h : Answering s) (m f : Byte) (d : Word) :
    Answering (s.afterAddressPhase m f d) :=
  h.issue (.write s.devAddr [m, f])

theorem Answering.doWrite {s : State} (h : Answering s) (m f : Byte) (ws : List Byte) :
    Answering (doWrite m f ws s).state :=
  doWrite_keeps (fun _ _ h => h) (fun _ x _ h => h.issue x) m f ws s h

theorem Answering.doRead {s : State} (h : Answering s) (m f n : Byte) (d : Word) :
    Answering (doRead m f n d s).state :=
  doRead_keeps (fun _ _ h => h) (fun _ x _ h => h.issue x) (fun _ _ h => h) (fun _ _ _ h => h) m f n d s h

theorem doWrite_ne_stalled {s : State} (h : Answering s) (m f : Byte) (ws : List Byte) (t : State) :
    doWrite m f ws s ≠ .stalled t := by
  rcases doWrite_cases m f ws s with ⟨hs, -⟩ | ⟨e, -, hr⟩ | ⟨w, -, hr⟩
  · exact absurd hs (State.nextAnswer_not_silent h _)
  · simp [hr]
  · simp [hr]

theorem dataPhase_ne_stalled {s : State} (h : Answering s) (n : Byte) (t : State) : dataPhase n s ≠ .stalled t := by
  rcases dataPhase_cases n s with ⟨hs, -⟩ | ⟨e, -, hr⟩ | ⟨bs, -, -, hr⟩ | ⟨bs, -, -, hr⟩
  · exact absurd hs (State.nextAnswer_not_silent h _)
  · simp [hr]
  · simp [hr]
  · simp [hr]

theorem doRead_ne_stalled {s : State} (h : Answering s) (m f n : Byte) (d : Word) (t : State) :
    doRead m f n d s ≠ .stalled t := by
  rcases doRead_cases m f n d s with ⟨hs, -⟩ | ⟨e, -, hr⟩ | ⟨w, -, hr⟩
  · exact absurd hs (State.nextAnswer_not_silent h _)
  · simp [hr]
  · rw [hr]
    exact dataPhase_ne_stalled (h.afterAddressPhase m f d) n t

end Sys2Proof.Machine
end

section
/-!
PROOFS. RST (40_core R146 to R149): the retry loop within its budget, the two ends of the polls with every event, and
the two ends of an RST that the transport answers.
-/
namespace Sys2Proof.Machine

/-! ### The retry loop within its budget (40_core R146, 42_moisture R196) -/

/-- A separator between any two of some lists and a last one stands after each of the others. -/
theorem intercalate_concat {α : Type} (sep : List α) (ls : List (List α)) (l : List α) :
    sep.intercalate (ls ++ [l]) = ls.flatMap (· ++ sep) ++ l := by
  induction ls with
  | nil => simp [List.intercalate]
  | cons k ls ih =>
    rw [List.flatMap_cons, List.append_assoc, ← ih]
    cases ls <;> simp [List.intercalate]

section Loop

variable {α : Type} {answers : α → List Answer} {events : α → List Event} {outcome : α → Status × Byte}
  {attempt : State → Result} {limit : Nat} {pause : Word} {s u : State} {fs : List α}

/-- After fewer failed attempts than its budget allows, the loop goes on to the next one. -/
theorem retryFromOne_reaches {as : List Answer}
    (hf : ∀ x ∈ fs, FailsOn s attempt (answers x) (events x) (outcome x)) (hu : SameBus s u)
    (ha : u.answers = fs.flatMap answers ++ as) (hl : fs.length < limit) :
    ∃ k v, retryFromOne attempt limit pause u = retry attempt limit pause (k + 1) v ∧
      Underway u v (fs.flatMap fun x => events x ++ [.delay pause]) ∧ v.answers = as ∧ v.att = fs.length + 1 := by
  obtain ⟨k, rfl⟩ := Nat.exists_eq_add_of_lt hl
  have hone := (Underway.refl u).setAtt 1
  obtain ⟨v, hv, huv, hva, hatt⟩ := retry_after_failures (limit := fs.length + k + 1) (pause := pause) fs hf (k + 1)
    (hu.underway hone) ha (by rw [State.setAtt_att]; omega)
  exact ⟨k, v, hv, hone.trans huv, hva, hatt.trans (Nat.add_comm ..)⟩

/-- A loop whose attempts all fail ends with the outcome of the last, a pause between any two of them. -/
theorem retryFromOne_spent {x : α} {rest : List Answer}
    (hf : ∀ y ∈ fs ++ [x], FailsOn s attempt (answers y) (events y) (outcome y)) (hu : SameBus s u)
    (ha : u.answers = (fs ++ [x]).flatMap answers ++ rest) (hl : fs.length + 1 = limit) :
    ∃ t, retryFromOne attempt limit pause u = .failed (outcome x).1 (outcome x).2 t ∧
      Underway u t ([.delay pause].intercalate ((fs ++ [x]).map events)) ∧ t.answers = rest := by
  obtain ⟨hfs, hx⟩ := List.forall_mem_append.1 hf
  obtain ⟨k, v, hv, huv, hva, hatt⟩ := retryFromOne_reaches (pause := pause) hfs hu
    (by rw [ha, List.flatMap_append, List.append_assoc]) (Nat.lt_of_succ_le hl.le)
  obtain ⟨t, ht, hvt, hta, htatt⟩ := hx x (List.mem_singleton_self x) v rest (hu.underway huv) (by simpa using hva)
  refine ⟨t.setLast (outcome x), hv.trans (retry_of_spent k ht (htatt.trans (hatt.trans hl))), ?_, hta⟩
  rw [List.map_append, List.map_singleton, intercalate_concat, List.flatMap_map]
  exact (huv.trans hvt).setLast _

end Loop

/-! ### RST -/

/-- An RST on its way that fails (40_core R148): `HS` is `Failed`, and `HW_ID`, the settings and the ring are those it
began with. -/
theorem Underway.rst_failed {s u : State} {es : List Event} (h : Underway s.startRst u es) (st sub : Status)
    (info : Byte) :
    (u.failHandshake st sub info).hs = .failed ∧ (u.failHandshake st sub info).hwId = s.hwId ∧
      EndedFailed s (u.failHandshake st sub info) st sub info es ∧ SameSettings s (u.failHandshake st sub info) ∧
      SameRing s (u.failHandshake st sub info) ∧ SameOutside s (u.failHandshake st sub info) := by
  obtain ⟨hset, ⟨-, hid⟩, hring, hout, -, -, -, -, htrace⟩ := h
  exact ⟨rfl, hid, State.fail_ended (u := u.setHs .failed) st sub info htrace, hset, hring, hout⟩

/-- Settles O39: the reset write is the one transaction, and the loop registers are as the start of RST sets them. -/
theorem rstFailsAtItsResetWrite : Obligations.RstFailsAtItsResetWrite := by
  rintro s e ws rfl h
  rw [← State.startRst_nextAnswer] at h
  have hu := (Underway.refl s.startRst).transact .write h
  obtain ⟨hhs, hid, hend, hset, hring, hout⟩ := hu.rst_failed .eTransport .ok (errorCode e)
  exact ⟨_, execRst_of_write_failed (doWrite_of_fail (State.startRst_devAddr s) h), hhs, hid, hend, hset, hring, rfl,
    hout, List.drop_one.symm⟩

/-- The transport takes the reset write of RST, which then settles and goes on to its polls (40_core R146). -/
theorem exec_rst_polls {s : State} {w0 : List Byte} {as : List Answer} (ha : s.answers = .reply (.ok w0) :: as) :
    ∃ u, exec .rst s = .next (handshakePolls u) ∧ Underway s.startRst u (resetEvents s w0) ∧ u.answers = as := by
  have hw : s.startRst.nextAnswer (.write s.devAddr (s.cfg.rstModule :: s.cfg.rstFunction :: s.cfg.rstPayload)) =
      .reply (.ok w0) := by
    rw [State.startRst_nextAnswer, State.nextAnswer_scripted ha]
  have hexec := execRst_of_write_ok (doWrite_of_ok (State.startRst_devAddr s) hw)
  exact ⟨_, hexec, ((Underway.refl s.startRst).transact .write hw).delay s.cfg.tResetSettle, by simp [ha]⟩

theorem identityTest_of_knownId {s : State} {b : Byte} (hb : s.bufByte 0 = b)
    (h : b = s.cfg.knownIdA ∨ b = s.cfg.knownIdB) : identityTest s = .ok (s.acceptId b) := by
  simp [identityTest, knownId, hb, h, State.acceptId]

/-- A poll that reads a known identity succeeds (40_core R147). -/
theorem identityPoll_identifies {s v : State} {w : List Byte} {b : Byte} {rest : List Answer} (hv : SameBus s v)
    (hb : b = s.cfg.knownIdA ∨ b = s.cfg.knownIdB)
    (ha : v.answers = .reply (.ok w) :: .reply (.ok [b]) :: rest) :
    ∃ t, identityPoll v = .ok (t.acceptId b) ∧ t.evtValid = false ∧
      HasRead v t s.cfg.idModule s.cfg.idFunction s.stdDelay w [b] := by
  obtain ⟨t, ht, hread, hevt, -⟩ := doRead_hasRead (m := s.cfg.idModule) (f := s.cfg.idFunction) (n := 1)
    (d := s.stdDelay) (State.nextAnswer_scripted ha _) (afterAddressPhase_nextAnswer_scripted ha _) rfl
  have hid : b = t.cfg.knownIdA ∨ b = t.cfg.knownIdB := by rwa [(hv.underway hread.underway).cfg]
  exact ⟨t, (identityPoll_of_ok hv ht).trans (identityTest_of_knownId (hread.bytes 0 Nat.one_pos) hid), hevt, hread⟩

/-- Settles O37: the loop goes through the failed polls, and ends with the one that identifies the peripheral. -/
theorem rstEndsAtTheFirstKnownIdentity : Obligations.RstEndsAtTheFirstKnownIdentity := by
  intro s w0 w fs b rest hl hf hb ha
  obtain ⟨u, hexec, hsu, hua⟩ := exec_rst_polls ha
  have hbus := (sameBus_startRst s).underway hsu
  obtain ⟨k, v, hv, huv, hva, -⟩ := retryFromOne_reaches (pause := s.cfg.tIdRetry)
    (fun x hx => identityPoll_failsOn (hf x hx)) hbus hua hl
  have hvbus := hbus.underway huv
  obtain ⟨t, ht, hevt, hread⟩ := identityPoll_identifies hvbus hb hva
  rw [handshakePolls_of_ok hbus (hv.trans (retry_of_ok k ht))] at hexec
  obtain ⟨hset, -, hring, hout, -, -, -, -, htrace⟩ := (hsu.trans huv).trans hread.underway
  refine ⟨_, hexec, rfl, rfl, setWidth_word_toNat b, BitVec.eq_of_toNat_eq hread.blen, hread.bytes 0 Nat.one_pos, ?_,
    hset, hring, hout, ?_, State.evt_of_not_valid hevt⟩
  · rw [intercalate_concat, List.flatMap_map, ← List.append_assoc]
    rw [hvbus.devAddr] at htrace
    exact State.returnOk_ended (u := t.acceptId b) htrace
  · exact hread.answers.trans (congrArg (List.drop 2) hva)

/-- Settles O38: the loop gives up with the outcome of the last poll. -/
theorem rstFailsWhenItsPollsAreSpent : Obligations.RstFailsWhenItsPollsAreSpent := by
  intro s w0 fs x rest hl hf ha
  obtain ⟨u, hexec, hsu, hua⟩ := exec_rst_polls ha
  have hbus := (sameBus_startRst s).underway hsu
  obtain ⟨t, ht, hut, hta⟩ := retryFromOne_spent (pause := s.cfg.tIdRetry)
    (fun y hy => identityPoll_failsOn (hf y hy)) hbus hua hl
  rw [handshakePolls_of_failed hbus ht] at hexec
  obtain ⟨hhs, hid, hend, hset, hring, hout⟩ := (hsu.trans hut).rst_failed .eHandshake x.outcome.1 x.outcome.2
  exact ⟨_, hexec, hhs, hid, hend, hset, hring, hout, hta⟩

/-! ### RST under a transport that answers (20_memory R67) -/

/-- What a poll comes back with when the transport answers it (40_core R147), with the configuration `c`. -/
inductive PollAnswered (c : Config) : Result → Prop where
  | identified {t : State} {b : Byte} (hid : b = c.knownIdA ∨ b = c.knownIdB) (hl : t.blen = 1)
      (hb : t.bufByte 0 = b) : PollAnswered c (.ok (t.acceptId b))
  | failed {st : Status} {info : Byte} {t : State} (ht : Answering t) : PollAnswered c (.failed st info t)

theorem identityPoll_answered {s : State} (h : Answering s) : PollAnswered s.cfg (identityPoll s) := by
  have hs : SameBus s s := ⟨rfl, rfl, rfl⟩
  have hkeep := h.doRead s.cfg.idModule s.cfg.idFunction 1 s.stdDelay
  cases hr : doRead s.cfg.idModule s.cfg.idFunction 1 s.stdDelay s with
  | stalled t => exact (doRead_ne_stalled h _ _ _ _ t hr).elim
  | failed st info t =>
    rw [identityPoll_of_failed hs hr]
    rw [hr] at hkeep
    exact .failed hkeep
  | ok t =>
    rw [identityPoll_of_ok hs hr]
    rw [hr] at hkeep
    obtain ⟨w, bs, hw, hb, hl, -⟩ := doRead_ok hr
    obtain ⟨u, hu, hread, -, -⟩ := doRead_hasRead hw hb hl
    cases hr.symm.trans hu
    by_cases hid : t.bufByte 0 = t.cfg.knownIdA ∨ t.bufByte 0 = t.cfg.knownIdB
    · rw [identityTest_of_knownId rfl hid]
      rw [hread.underway.outside.1] at hid
      exact .identified hid (BitVec.eq_of_toNat_eq (hread.blen.trans hl)) rfl
    · rw [identityTest_of_unknownId rfl (not_or.1 hid)]
      exact .failed hkeep

theorem Answering.of_identityPoll_failed {s t : State} {st : Status} {info : Byte} (h : Answering s)
    (hr : identityPoll s = .failed st info t) : Answering t := by
  have hpoll := identityPoll_answered h
  rw [hr] at hpoll
  cases hpoll with
  | failed ht => exact ht

/-- RST has ended verified (40_core R147). -/
def RstVerified (s t : State) : Prop :=
  t.hs = .ready ∧ t.st = .ok ∧ (t.hwId = s.cfg.knownIdA ∨ t.hwId = s.cfg.knownIdB) ∧ t.r.toNat = t.hwId.toNat ∧
    t.blen = 1 ∧ t.bufByte 0 = t.hwId

/-- RST has ended failed (40_core R148). -/
def RstFailed (s t : State) : Prop :=
  t.hs = .failed ∧ t.hwId = s.hwId ∧ t.blen = 0 ∧ (t.st = .eTransport ∨ t.st = .eHandshake)

theorem rstVerified_acceptId {s u : State} {b : Byte} (hid : b = s.cfg.knownIdA ∨ b = s.cfg.knownIdB)
    (hl : u.blen = 1) (hb : u.bufByte 0 = b) : RstVerified s (u.acceptId b).returnOk :=
  ⟨rfl, rfl, hid, setWidth_word_toNat b, hl, hb⟩

theorem Running.rstFailed {s u : State} (h : Running s.startRst u) {st : Status}
    (hst : st = .eTransport ∨ st = .eHandshake) (sub : Status) (info : Byte) :
    RstFailed s (u.failHandshake st sub info) := by
  obtain ⟨es, hu⟩ := h.underway
  obtain ⟨hhs, hid, ⟨hst', -, -, hblen, -⟩, -⟩ := hu.rst_failed st sub info
  exact ⟨hhs, hid, hblen, hst' ▸ hst⟩

theorem Running.sameBus_of_rst {s u : State} (h : Running s.startRst u) : SameBus s u :=
  let ⟨_, hu⟩ := h.underway
  (sameBus_startRst s).underway hu

/-- The polls of RST end as the last of them does (40_core R146 to R148). -/
theorem handshakePolls_verified_or_failed {s u : State} (h : Running s.startRst u) (ha : Answering u) :
    (handshakePolls u).seq = .idle ∧ (RstVerified s (handshakePolls u) ∨ RstFailed s (handshakePolls u)) := by
  obtain ⟨v, ⟨hv, hva⟩, -, -, hr⟩ := retry_eq_lastAttempt (P := fun v => Running s.startRst v ∧ Answering v)
    (limit := s.cfg.nIdTry) (pause := s.cfg.tIdRetry) (fun v => (identityPoll_polled (.refl v)).state_att)
    (fun v st info t ⟨hv, hva⟩ hr =>
      have ht : Answering t := hva.of_identityPoll_failed hr
      ⟨(((hr ▸ identityPoll_polled hv).running_of_failed.setLast _).delay _).setAtt _, ht⟩)
    s.cfg.nIdTry (s := u.setAtt 1) ⟨h.setAtt 1, ha⟩ (Nat.le_refl 1) s.cfg.one_le_nIdTry
    (by rw [State.setAtt_att]; omega)
  have hlast := identityPoll_answered hva
  have hpolled := identityPoll_polled hv
  cases hp : identityPoll v with
  | ok t =>
    rw [hp] at hr hlast
    rw [hv.sameBus_of_rst.cfg] at hlast
    rw [handshakePolls_of_ok h.sameBus_of_rst hr]
    cases hlast with
    | identified hid hl hb => exact ⟨rfl, .inl (rstVerified_acceptId hid hl hb)⟩
  | failed st info t =>
    rw [hp] at hr hpolled
    rw [handshakePolls_of_failed h.sameBus_of_rst hr]
    exact ⟨rfl, .inr ((hpolled.running_of_failed.setLast _).rstFailed (.inr rfl) ..)⟩
  | stalled t =>
    rw [hp] at hlast
    cases hlast

/-- Settles O40: the reset write fails, or the polls end verified or failed. -/
theorem rstEndsVerifiedOrFailed : Obligations.RstEndsVerifiedOrFailed := by
  intro s ha
  have hstart : Answering s.startRst := ha
  have hcalled := doWrite_called (.refl s.startRst) s.cfg.rstModule s.cfg.rstFunction s.cfg.rstPayload
  have hkeep := hstart.doWrite s.cfg.rstModule s.cfg.rstFunction s.cfg.rstPayload
  cases hr : doWrite s.cfg.rstModule s.cfg.rstFunction s.cfg.rstPayload s.startRst with
  | stalled t => exact (doWrite_ne_stalled hstart _ _ _ t hr).elim
  | failed st info t =>
    rw [hr] at hcalled
    exact ⟨_, execRst_of_write_failed hr, rfl,
      .inr (hcalled.running_of_failed.rstFailed (.inl (doWrite_failed hr).1) ..)⟩
  | ok t =>
    rw [hr] at hcalled hkeep
    exact ⟨_, execRst_of_write_ok hr, handshakePolls_verified_or_failed (hcalled.running.delay _) hkeep⟩

end Sys2Proof.Machine
end

section
/-!
PROOFS. Key events and the key-matrix commands (41_key): `KeyDec` and `KeyEnc` as numbers, from which their round trips
follow; the two commands that only write `R`; and the four that are one read or one write.
-/
namespace Sys2Proof.Machine

/-! ### Key Events as numbers (30_encoding R105, R106) -/

theorem keyDec_key_toNat (b : Byte) : (keyDec b).key.toNat = b.toNat / 4 := by
  have := b.isLt
  rw [keyDec, BitVec.extractLsb'_toNat, Nat.shiftRight_eq_div_pow]
  omega

theorem keyDec_edge_toNat (b : Byte) : (keyDec b).edge.number.toNat = b.toNat % 4 := by
  rw [keyDec, Edge.number_ofNumber, BitVec.extractLsb'_toNat, Nat.shiftRight_zero]

/-- The two fields of the wire byte do not overlap. -/
theorem keyEnc_toNat (e : KeyEvent) : (keyEnc e).toNat = 4 * e.key.toNat + e.edge.number.toNat := by
  have hkey := e.key.isLt
  have hedge := e.edge.number.isLt
  have hshift : (e.key.setWidth 8 <<< 2).toNat = e.key.toNat <<< 2 := by
    rw [BitVec.toNat_shiftLeft, BitVec.toNat_setWidth_of_le (by decide), Nat.shiftLeft_eq]
    omega
  rw [keyEnc, BitVec.toNat_or, hshift, BitVec.toNat_setWidth_of_le (by decide), ← Nat.shiftLeft_add_eq_or_of_lt hedge,
    Nat.shiftLeft_eq]
  omega

theorem keyWord_toNat (e : KeyEvent) : (keyWord e).toNat = 256 * e.key.toNat + e.edge.number.toNat := by
  have hkey := e.key.isLt
  have hedge := e.edge.number.isLt
  rw [keyWord, BitVec.toNat_setWidth_of_le (by decide), be16, BitVec.toNat_ofNat,
    BitVec.toNat_setWidth_of_le (by decide), BitVec.toNat_setWidth_of_le (by decide)]
  omega

/-- A Key Event is the numbers of its two fields. -/
theorem keyEvent_ext_toNat {e e' : KeyEvent} (hedge : e.edge.number.toNat = e'.edge.number.toNat)
    (hkey : e.key.toNat = e'.key.toNat) : e = e' := by
  have hinj : Function.Injective Edge.number := Function.LeftInverse.injective Edge.ofNumber_number
  obtain ⟨edge, key⟩ := e
  obtain ⟨edge', key'⟩ := e'
  rw [KeyEvent.mk.injEq]
  exact ⟨hinj (BitVec.eq_of_toNat_eq hedge), BitVec.eq_of_toNat_eq hkey⟩

/-! ### The round trips (41_key R170, R171) -/

theorem keyDec_keyEnc (e : KeyEvent) : keyDec (keyEnc e) = e := by
  have hedge := e.edge.number.isLt
  apply keyEvent_ext_toNat
  · rw [keyDec_edge_toNat, keyEnc_toNat]
    omega
  · rw [keyDec_key_toNat, keyEnc_toNat]
    omega

theorem keyEnc_keyDec (b : Byte) : keyEnc (keyDec b) = b := by
  apply BitVec.eq_of_toNat_eq
  rw [keyEnc_toNat, keyDec_key_toNat, keyDec_edge_toNat, Nat.div_add_mod]

/-- Settles O42: both directions follow from the fields as numbers. -/
theorem keyEncAndKeyDecAreInverse : Obligations.KeyEncAndKeyDecAreInverse :=
  ⟨fun e => ⟨keyEnc_toNat e, keyDec_keyEnc e⟩, keyEnc_keyDec⟩

/-- Settles O43: the one byte of a pair is its `KeyEnc`. -/
theorem keyDecSplitsEveryByte : Obligations.KeyDecSplitsEveryByte := by
  refine ⟨fun b => ⟨Edge.number_ofNumber _, rfl⟩, fun e => ⟨keyEnc e, keyDec_keyEnc e, ?_⟩, rfl, rfl, rfl, rfl⟩
  rintro b rfl
  exact (keyEnc_keyDec b).symm

/-! ### Commands that only write `R` (41_key R172, R173) -/

/-- A write of `R` and `return OK` (60_exceptions R229): no bus event, and all else as before. -/
theorem State.setR_returnOk_frame (v : Word) (s : State) :
    EndedOk s (s.setR v).returnOk [] ∧ SameButResult s (s.setR v).returnOk ∧ (s.setR v).returnOk.draws = s.draws :=
  ⟨State.returnOk_ended (by simp),
    ⟨⟨rfl, rfl⟩, ⟨rfl, rfl⟩, ⟨rfl, rfl⟩, rfl, rfl, rfl, ⟨rfl, rfl⟩, rfl, ⟨rfl, rfl⟩, rfl⟩, rfl⟩

/-- Settles O44: the word in `R` is the two fields of `KeyDec`. -/
theorem keydecDecodesIntoR : Obligations.KeydecDecodesIntoR := by
  intro b s
  refine ⟨_, rfl, ?_, State.setR_returnOk_frame _ s⟩
  rw [State.returnOk_r, State.setR_r, keyWord_toNat, keyDec_key_toNat, keyDec_edge_toNat]

/-- Settles O45: the word in `R` is the byte of `KeyEnc`. -/
theorem keyencEncodesIntoR : Obligations.KeyencEncodesIntoR := by
  intro key edge s
  refine ⟨_, rfl, ?_, State.setR_returnOk_frame _ s⟩
  rw [State.returnOk_r, State.setR_r, setWidth_word_toNat, keyEnc_toNat]

/-! ### Commands that are one read or one write (41_key R174 to R177) -/

/-- Marking the bytes as events is no part of what a read leaves (10_state R30). -/
theorem HasRead.markEvents {s u : State} {m f : Byte} {d : Word} {w bs : List Byte} (h : HasRead s u m f d w bs) :
    HasRead s u.markEvents m f d w bs where
  underway := ⟨h.underway.settings, h.underway.handshake, h.underway.ring, h.underway.outside, h.underway.response,
    h.underway.st, h.underway.sub, h.underway.info, h.underway.trace⟩
  blen := h.blen
  bytes := h.bytes
  loop := h.loop
  dcnt := h.dcnt
  answers := h.answers
  draws := h.draws

theorem State.evt_of_blen_le {s : State} {k : Nat} (h : s.blen.toNat ≤ k) : s.evt k = none :=
  if_neg fun hk => absurd hk.2 (Nat.not_lt.2 h)

/-- Settles O28: a read, whose bytes are then marked as events. -/
theorem keyrdReadsTheEvents : Obligations.KeyrdReadsTheEvents := by
  intro n s w bs hw hb hl
  obtain ⟨u, hu, hread, -, hr⟩ := doRead_hasRead hw hb hl
  have hexec : exec (.keyrd n) s = .next u.markEvents.returnOk := by
    simp only [exec, execKeyrd, hu, Result.conclude]
  have heffect := hread.markEvents.returnOk
  have ⟨hblen, hbytes, _⟩ := heffect
  refine ⟨_, hexec, hr, heffect, fun k hk => ?_, fun k hk => State.evt_of_blen_le (hblen.trans_le hk)⟩
  have hevt : u.markEvents.returnOk.evt k = some (keyDec bs[k]) := by
    rw [← hbytes k hk]
    exact State.evt_of_valid rfl (hk.trans_eq hblen.symm)
  exact ⟨_, hevt, keyDec_edge_toNat _, keyDec_key_toNat _⟩

/-- Settles O29: KEYCNT is the RDREG of the count register (30_encoding R124). -/
theorem keycntReadsTheDepth : Obligations.KeycntReadsTheDepth := by
  intro s w b hw hb
  have hexec : exec .keycnt s = exec (.rdreg s.cfg.keyModule s.cfg.keyFnCount) s := rfl
  rw [hexec]
  exact rdregReadsOneByte _ _ s w b hw hb

/-- Settles O34: for each value of `en`, one write of the payload. -/
theorem keyintWritesOneOfTwoRegisters : Obligations.KeyintWritesOneOfTwoRegisters := by
  intro en s w ws hset hclear h
  cases en with
  | true =>
    obtain rfl := hset rfl
    exact ⟨_, rfl, doWrite_writeEffect h⟩
  | false =>
    obtain rfl := hclear rfl
    exact ⟨_, rfl, doWrite_writeEffect h⟩

/-- Settles O35: one write of the key and the byte that `keypadState` makes. -/
theorem keycfgWritesKeyAndState : Obligations.KeycfgWritesKeyAndState := by
  intro key emask en s w state hstate h
  obtain rfl : keypadState emask en = state := by
    rw [keypadState_eq_ofNat, ← hstate, BitVec.ofNat_toNat, BitVec.setWidth_eq]
  exact ⟨_, rfl, doWrite_writeEffect h⟩

end Sys2Proof.Machine
end

section
/-!
PROOFS. The Moisture Sample Ring (42_moisture): the average as the mean of the samples, the ring as a sliding window,
and the three commands that use it.
-/
namespace Sys2Proof.Machine

/-! ### The average (42_moisture R191) -/

/-- The samples are what the slots that read non-zero hold. -/
theorem Ring.samples_eq_map (cap : Nat) (g : Ring) :
    Ring.samples cap g = ((List.range cap).filter fun k => g.read k ≠ 0).map g.read := by
  rw [Ring.samples, List.filter_map]
  rfl

/-- A sum of samples is at most their number times the largest 16-bit value. -/
theorem sum_toNat_le (vs : List Half) : (vs.map BitVec.toNat).sum ≤ vs.length * 65535 := by
  have hle : ∀ n ∈ vs.map BitVec.toNat, n ≤ 65535 := by
    simp only [List.forall_mem_map]
    intro v _
    have := v.isLt
    omega
  simpa using List.sum_le_card_nsmul (vs.map BitVec.toNat) 65535 hle

/-- The mean is exact, since it fits 16 bits; of no samples it is 0, as a quotient by 0 is. -/
theorem Ring.average_toNat (cap : Nat) (g : Ring) :
    (Ring.average cap g).toNat = ((Ring.samples cap g).map BitVec.toNat).sum / (Ring.samples cap g).length := by
  have hfits : ((Ring.samples cap g).map BitVec.toNat).sum / (Ring.samples cap g).length ≤ 65535 :=
    Nat.div_le_of_le_mul (sum_toNat_le _)
  by_cases hnone : (Ring.samples cap g).length = 0
  · simp [Ring.average, hnone]
  · rw [Ring.average, if_neg hnone, BitVec.toNat_ofNat, Nat.mod_eq_of_lt (by omega)]

/-- Samples in another order have the same average. -/
theorem Ring.average_eq_of_perm {cap : Nat} {g g' : Ring} (h : (Ring.samples cap g).Perm (Ring.samples cap g')) :
    Ring.average cap g = Ring.average cap g' := by
  apply BitVec.eq_of_toNat_eq
  rw [Ring.average_toNat, Ring.average_toNat, (h.map BitVec.toNat).sum_eq, h.length_eq]

/-- Settles O47: the average as a number, with the samples read from the slots that hold one. -/
theorem averageIsTheExactMean : Obligations.AverageIsTheExactMean := by
  refine ⟨fun cap g hnone => ?_, ?_, fun cap g g' h => Ring.average_eq_of_perm (h.filter _)⟩
  · apply BitVec.eq_of_toNat_eq
    rw [Ring.average_toNat, Ring.samples_eq_map, hnone, List.map_nil, List.length_nil, Nat.div_zero]
    rfl
  · rintro cap g _ rfl -
    rw [Ring.average_toNat, Ring.samples_eq_map, List.map_map, List.length_map]
    rfl

/-! ### The ring as a window (42_moisture R190) -/

/-- What the slots 0 to `cap - 1` read, in slot order. -/
def Ring.slots (cap : Nat) (g : Ring) : List Half := (List.range cap).map g.read

@[simp] theorem Ring.slots_length (cap : Nat) (g : Ring) : (Ring.slots cap g).length = cap := by
  simp [Ring.slots]

theorem Ring.samples_eq_filter (cap : Nat) (g : Ring) :
    Ring.samples cap g = (Ring.slots cap g).filter fun v => v ≠ 0 := rfl

theorem Ring.slots_nil (cap : Nat) : Ring.slots cap [] = List.replicate cap 0 :=
  List.eq_replicate_iff.2 ⟨Ring.slots_length cap [], by simp [Ring.slots, Ring.read]⟩

/-- A non-zero sample written to a slot replaces what that slot reads. -/
theorem Ring.slots_write (cap i : Nat) {v : Half} (hv : v ≠ 0) (g : Ring) :
    Ring.slots cap (Ring.write i v g) = (Ring.slots cap g).set i v := by
  refine List.ext_getElem (by simp) fun k _ _ => ?_
  simp only [Ring.slots, List.getElem_map, List.getElem_range, List.getElem_set]
  split_ifs with hk
  · rw [← hk, Ring.read_write_same i v hv]
  · exact Ring.read_write_other i k v hv (Ne.symm hk) g

/-- What the slots read, from the cursor on and around the ring: the oldest slot first. -/
def State.window (s : State) : List Half := (Ring.slots s.cfg.ringCap s.ring).rotate s.cur

theorem State.window_of_empty {s : State} (hr : s.ring = []) : s.window = List.replicate s.cfg.ringCap 0 := by
  rw [State.window, hr, Ring.slots_nil, List.rotate_replicate]

/-- The samples of the ring are those of the window, which only starts elsewhere. -/
theorem State.samples_perm_window (s : State) :
    (Ring.samples s.cfg.ringCap s.ring).Perm (s.window.filter fun v => v ≠ 0) := by
  rw [Ring.samples_eq_filter, State.window]
  exact ((List.rotate_perm _ s.cur).filter _).symm

/-- Replacing an element of a ring and starting behind it is taking the element off the front and adding the new one
at the back. -/
theorem rotate_succ_set {α : Type} {l : List α} {i : Nat} (hi : i < l.length) (v : α) :
    (l.set i v).rotate ((i + 1) % l.length) = (l.rotate i ++ [v]).tail := by
  have hi' : i + 1 ≤ (l.set i v).length := by rw [List.length_set]; exact hi
  rw [← List.length_set (as := l) (i := i) (a := v), List.rotate_mod, List.rotate_eq_drop_append_take hi',
    List.rotate_eq_drop_append_take hi.le, List.drop_eq_getElem_cons hi]
  simp [List.take_add_one, hi, List.take_set_of_le, List.drop_set]

/-- A push into the window: the oldest slot goes, the sample comes last. -/
theorem State.push_window {s : State} (hcur : s.cur < s.cfg.ringCap) {v : Half} (hv : v ≠ 0) :
    (s.push v).window = (s.window ++ [v]).tail := by
  have hrot := rotate_succ_set (l := Ring.slots s.cfg.ringCap s.ring) (by rwa [Ring.slots_length]) v
  rw [Ring.slots_length, ← Ring.slots_write _ _ hv] at hrot
  rw [State.push_nonzero hv]
  exact hrot

theorem State.pushes_cfg (vs : List Half) (s : State) : (vs.foldl (fun t v => t.push v) s).cfg = s.cfg := by
  induction vs generalizing s with
  | nil => rfl
  | cons v vs ih => rw [List.foldl_cons, ih, State.push_cfg]

/-- The window after a sequence of pushes: of what it showed and the non-zero samples behind it, the last `RING_CAP`. -/
theorem State.pushes_window (vs : List Half) {s : State} (h : RingFilled s) :
    (vs.foldl (fun t v => t.push v) s).window =
      (s.window ++ vs.filter fun v => v ≠ 0).drop (vs.filter fun v => v ≠ 0).length := by
  induction vs generalizing s with
  | nil => simp
  | cons v vs ih =>
    rw [List.foldl_cons]
    by_cases hv : v = 0
    · rw [State.push_of_zero hv, ih h, List.filter_cons_of_neg (by simpa using hv)]
    · rw [ih (h.push v), State.push_window h.1 hv, List.filter_cons_of_pos (by simpa using hv), List.length_cons,
        ← List.tail_append_of_ne_nil (by simp), List.drop_tail, List.append_assoc, List.singleton_append]

/-- Pushed into zeros, the samples that stay in the window are the last `RING_CAP` non-zero ones. -/
theorem filter_drop_replicate_zero_append {ws : List Half} (hws : ∀ w ∈ ws, w ≠ 0) (cap : Nat) :
    ((List.replicate cap 0 ++ ws).drop ws.length).filter (fun v => v ≠ 0) = (ws.reverse.take cap).reverse := by
  have hkept : (ws.drop (ws.length - cap)).filter (fun v => v ≠ 0) = ws.drop (ws.length - cap) :=
    List.filter_eq_self.2 fun w hw => decide_eq_true (hws w (List.mem_of_mem_drop hw))
  rw [List.drop_append, List.length_replicate, List.filter_append, hkept, List.drop_replicate, List.take_reverse,
    List.reverse_reverse, List.filter_replicate_of_neg (by simp), List.nil_append]

/-- Settles O49: the samples of the ring are those of its window, which begins as zeros. -/
theorem ringHoldsTheLastSamples : Obligations.RingHoldsTheLastSamples := by
  intro s vs hr hc
  have hperm := State.samples_perm_window (vs.foldl (fun t v => t.push v) s)
  rw [State.pushes_cfg, State.pushes_window vs (.of_empty hr hc), State.window_of_empty hr,
    filter_drop_replicate_zero_append (by simp)] at hperm
  exact hperm.trans (List.reverse_perm _)

/-! ### MPUSH and MAVG (42_moisture R192 to R194) -/

/-- What `Push` does to the ring, as seen in a later state with that ring (42_moisture R192). -/
theorem State.push_ring_effect {s t : State} {v : Half} (h : SameRing (s.push v) t) :
    (v = 0 → SameRing s t) ∧
      (v ≠ 0 → t.ring.read s.cur = v ∧ (∀ k, k ≠ s.cur → t.ring.read k = s.ring.read k) ∧
        t.cur = (s.cur + 1) % s.cfg.ringCap) := by
  refine ⟨fun hv => ?_, fun hv => ?_⟩
  · rwa [State.push_of_zero hv] at h
  · obtain ⟨hslots, hcur⟩ := h
    rw [hslots, hcur, State.push_nonzero hv]
    exact ⟨Ring.read_write_same _ _ hv _, fun k hk => Ring.read_write_other _ _ _ hv hk _, rfl⟩

/-- Settles O46: `Push` writes the ring and the cursor only. -/
theorem mpushStoresAtTheCursor : Obligations.MpushStoresAtTheCursor := by
  intro v s
  have hended : EndedOk s (s.push v).returnOk [] := State.returnOk_ended (by simp)
  have hring : SameRing (s.push v) (s.push v).returnOk := by simp [SameRing]
  exact ⟨(s.push v).returnOk, rfl, hended, by simp, by simp [SameBuf], by simp [SameSettings], by simp [SameHandshake],
    by simp [SameLoop], by simp, by simp [SameOutside], by simp, by simp, State.push_ring_effect hring⟩

/-- Settles O48: the word in `R` is the average. -/
theorem mavgReturnsTheMean : Obligations.MavgReturnsTheMean := by
  intro s
  refine ⟨_, rfl, ?_, State.setR_returnOk_frame _ s⟩
  rw [State.returnOk_r, State.setR_r, BitVec.toNat_setWidth_of_le (by decide)]

/-! ### MREAD (42_moisture R196, R197) -/

theorem be16_toNat (hi lo : Byte) : (be16 hi lo).toNat = 256 * hi.toNat + lo.toNat := by
  have := hi.isLt
  have := lo.isLt
  rw [be16, BitVec.toNat_ofNat]
  omega

theorem be16_eq_zero_iff (hi lo : Byte) : be16 hi lo = 0 ↔ hi = 0 ∧ lo = 0 := by
  simp only [← BitVec.toNat_inj, be16_toNat, BitVec.ofNat_eq_ofNat, BitVec.toNat_ofNat, Nat.zero_mod]
  omega

theorem State.takeSample_r_toNat (s : State) : s.takeSample.r.toNat = s.sample.toNat :=
  BitVec.toNat_setWidth_of_le (by decide)
@[simp] theorem State.takeSample_blen (s : State) : s.takeSample.blen = s.blen := State.push_blen ..
@[simp] theorem State.takeSample_bufByte (s : State) (i : Nat) : s.takeSample.bufByte i = s.bufByte i := by
  simp [State.takeSample]
@[simp] theorem State.takeSample_evtValid (s : State) : s.takeSample.evtValid = s.evtValid := State.push_evtValid ..
@[simp] theorem State.takeSample_answers (s : State) : s.takeSample.answers = s.answers := State.push_answers ..

/-- An attempt of MREAD that reads two bytes succeeds. -/
theorem moistureRead_reads {s v : State} {w : List Byte} {hi lo : Byte} {rest : List Answer} (hv : SameBus s v)
    (ha : v.answers = .reply (.ok w) :: .reply (.ok [hi, lo]) :: rest) :
    ∃ u, moistureRead v = .ok u ∧ u.evtValid = false ∧
      HasRead v u s.cfg.moistModule s.cfg.moistFunction s.cfg.tMoist w [hi, lo] := by
  obtain ⟨u, hu, hread, hevt, -⟩ := doRead_hasRead (m := s.cfg.moistModule) (f := s.cfg.moistFunction) (n := 2)
    (d := s.cfg.tMoist) (State.nextAnswer_scripted ha _) (afterAddressPhase_nextAnswer_scripted ha _) rfl
  exact ⟨u, (moistureRead_of_sameBus hv).trans hu, hevt, hread⟩

theorem HasRead.sample {s u : State} {m f : Byte} {d : Word} {w : List Byte} {hi lo : Byte}
    (h : HasRead s u m f d w [hi, lo]) : u.sample = be16 hi lo :=
  congrArg₂ be16 (h.bytes 0 Nat.two_pos) (h.bytes 1 Nat.one_lt_two)

/-- MREAD goes through its failed attempts to one that reads a sample, which it pushes and returns. -/
theorem execMread_reads {s : State} {w : List Byte} {fs : List FailedRead} {hi lo : Byte} {rest : List Answer}
    (hl : fs.length < 5) (hf : ∀ x ∈ fs, x.possible 2)
    (ha : s.answers = fs.flatMap FailedRead.answers ++ .reply (.ok w) :: .reply (.ok [hi, lo]) :: rest) :
    ∃ v u, exec .mread s = .next u.takeSample.returnOk ∧ u.evtValid = false ∧
      Underway s v (fs.flatMap fun x => x.events s.devAddr s.cfg.moistModule s.cfg.moistFunction 2 s.cfg.tMoist ++
        [.delay s.cfg.tMoistBackoff]) ∧
      HasRead v u s.cfg.moistModule s.cfg.moistFunction s.cfg.tMoist w [hi, lo] ∧ u.answers = rest := by
  obtain ⟨k, v, hv, huv, hva, -⟩ := retryFromOne_reaches (limit := Config.moistTries) (pause := s.cfg.tMoistBackoff)
    (fun x hx => moistureRead_failsOn (hf x hx)) (sameBus_startLoop s) ha hl
  have hsv := (Underway.refl s).startLoop.trans huv
  obtain ⟨u, hu, hevt, hread⟩ := moistureRead_reads ((sameBus_startLoop s).underway huv) hva
  exact ⟨v, u, execMread_of_ok (hv.trans (retry_of_ok k hu)), hevt, hsv, hread,
    hread.answers.trans (congrArg (List.drop 2) hva)⟩

theorem Underway.persistent {s t : State} {es : List Event} (h : Underway s t es) : SamePersistent s t :=
  ⟨h.settings, h.handshake, h.ring, h.outside⟩

/-- A command on its way that takes its sample and returns: the sample is pushed, and nothing else that outlives the
command is written (42_moisture R196, R198). -/
theorem Underway.takeSample {s u : State} {es : List Event} (h : Underway s u es) :
    EndedOk s u.takeSample.returnOk es ∧ SameSettings s u.takeSample.returnOk ∧
      SameHandshake s u.takeSample.returnOk ∧ SameOutside s u.takeSample.returnOk ∧
      SameRing (s.push u.sample) u.takeSample.returnOk := by
  obtain ⟨hset, hhs, hring, hout⟩ := h.persistent
  have hpush := State.push_sameRing hring hout.1 u.sample
  exact ⟨State.returnOk_ended (by simpa [State.takeSample] using h.trace),
    by simpa [SameSettings, State.takeSample] using hset, by simpa [SameHandshake, State.takeSample] using hhs,
    by simpa [SameOutside, State.takeSample] using hout, by simpa [SameRing, State.takeSample] using hpush⟩

/-- Settles O50: the loop goes through the failed attempts, and ends with the one that reads the sample. -/
theorem mreadReturnsAndPushesTheSample : Obligations.MreadReturnsAndPushesTheSample := by
  intro s w fs hi lo rest hl hf ha
  obtain ⟨v, u, hexec, hevt, hsv, hread, hrest⟩ := execMread_reads hl hf ha
  have hsu := hsv.trans hread.underway
  obtain ⟨hend, hset, hhs, hout, hpush⟩ := hsu.takeSample
  have hblen : u.blen = 2 := BitVec.eq_of_toNat_eq hread.blen
  rw [hread.sample] at hpush
  have hring := State.push_ring_effect hpush
  rw [Ne, be16_eq_zero_iff, ← BitVec.toNat_inj (y := be16 hi lo), be16_toNat] at hring
  refine ⟨_, hexec, ?_, ?_, ?_, ?_, ?_, hset, hhs, hout, ?_, ?_, hring⟩
  · rw [State.returnOk_r, State.takeSample_r_toNat, hread.sample, be16_toNat]
  · simpa using hblen
  · simpa using hread.bytes 0 Nat.two_pos
  · simpa using hread.bytes 1 Nat.one_lt_two
  · rw [intercalate_concat, List.flatMap_map]
    rw [hsv.settings.1] at hend
    exact hend
  · simpa using hrest
  · exact State.evt_of_not_valid (by simpa using hevt)

/-- Settles O51: the loop gives up with the outcome of the last attempt. -/
theorem mreadFailsAfterFiveAttempts : Obligations.MreadFailsAfterFiveAttempts := by
  intro s fs x rest hl hf ha
  obtain ⟨t, ht, hut, hta⟩ := retryFromOne_spent (limit := Config.moistTries) (pause := s.cfg.tMoistBackoff)
    (fun y hy => moistureRead_failsOn (hf y hy)) (sameBus_startLoop s) ha (congrArg Nat.succ hl)
  have hst := (Underway.refl s).startLoop.trans hut
  obtain ⟨hset, hhs, hring, hout⟩ := hst.persistent.fail .eRetry x.outcome.1 x.outcome.2
  exact ⟨_, execMread_of_failed ht, State.fail_ended _ _ _ hst.trace, hset, hhs, hring, hout, hta⟩

end Sys2Proof.Machine
end

section
/-!
PROOFS. Control and status registers (43_csr): what CSRR and CSRW do, by the register their number names; what each
register holds, as a number; and the statements, one for each way an access can end.
-/
namespace Sys2Proof

/-! ### Legal configurations (00_scope R7) -/

theorem Config.ringCap_le (c : Config) : c.ringCap ≤ 61440 := by
  have h := c.legal
  simp only [Params.legal, Bool.and_eq_true, decide_eq_true_eq] at h
  obtain ⟨-, hcap⟩ := h
  exact hcap

end Sys2Proof

namespace Sys2Proof.Machine

/-! ### An access, by the register its number names (43_csr R210, R211) -/

theorem csrOf_eq_none_iff (cap : Nat) (c : Half) : csrOf cap c = none ↔ ¬listedCsr cap c.toNat := by
  rw [← csrOf_isSome, Option.not_isSome_iff_eq_none]

/-- A listed number other than those of `DEV_ADDR` and `STD_DELAY` names a read-only register. -/
theorem csrOf_readOnly {cap : Nat} {c : Half} (h : listedCsr cap c.toNat) (h0 : c ≠ 0) (h2 : c ≠ 2) :
    ∃ x, csrOf cap c = some x ∧ x.writableWidth = none := by
  obtain ⟨x, hx⟩ := Option.isSome_iff_exists.1 ((csrOf_isSome cap c).2 h)
  refine ⟨x, hx, ?_⟩
  by_contra hwritable
  rcases csrOf_writable hx hwritable with ⟨hc, -⟩ | ⟨hc, -⟩
  · exact h0 hc
  · exact h2 hc

section Access

variable {c : Half} {v : Word} {s : State} {x : Csr} {w : Nat}

theorem execCsrr_of_unlisted (h : ¬listedCsr s.cfg.ringCap c.toNat) :
    exec (.csrr c) s = .next (s.fail .eBadCsr .ok 0) := by
  simp only [exec, execCsrr, (csrOf_eq_none_iff _ c).2 h]

theorem execCsrr_of_listed (h : csrOf s.cfg.ringCap c = some x) :
    exec (.csrr c) s = .next ((s.afterCsrRead x).setR (s.csrValue x)).returnOk := by
  simp only [exec, execCsrr, h]

theorem execCsrw_of_unlisted (h : ¬listedCsr s.cfg.ringCap c.toNat) :
    exec (.csrw c v) s = .next (s.fail .eBadCsr .ok 0) := by
  simp only [exec, execCsrw, (csrOf_eq_none_iff _ c).2 h]

theorem execCsrw_of_readOnly (h : csrOf s.cfg.ringCap c = some x) (hx : x.writableWidth = none) :
    exec (.csrw c v) s = .next (s.fail .eBadCsr .ok 1) := by
  simp only [exec, execCsrw, h, hx]

theorem execCsrw_of_tooWide (h : csrOf s.cfg.ringCap c = some x) (hx : x.writableWidth = some w)
    (hv : 2 ^ w ≤ v.toNat) : exec (.csrw c v) s = .next (s.fail .eBadCsr .ok 2) := by
  simp only [exec, execCsrw, h, hx, if_pos hv]

theorem execCsrw_of_fits (h : csrOf s.cfg.ringCap c = some x) (hx : x.writableWidth = some w)
    (hv : v.toNat < 2 ^ w) : exec (.csrw c v) s = .next (s.writeCsr x v).returnOk := by
  simp only [exec, execCsrw, h, hx, if_neg (Nat.not_le.2 hv)]

end Access

/-! ### Refused accesses (60_exceptions R232) -/

/-- Settles O55: whichever refusal it is, nothing has happened before the failure. -/
theorem badCsrAccessIsRefused : Obligations.BadCsrAccessIsRefused := by
  intro s c v
  have hrefused (info : Byte) := (Underway.refl s).fail_frame ⟨rfl, rfl⟩ rfl (k := 0) rfl .eBadCsr .ok info
  refine ⟨fun h => ⟨?_, ?_⟩, fun h h0 h2 => ?_, fun hv => ?_⟩
  · exact ⟨_, execCsrr_of_unlisted h, hrefused 0⟩
  · exact ⟨_, execCsrw_of_unlisted h, hrefused 0⟩
  · obtain ⟨x, hx, hreadOnly⟩ := csrOf_readOnly h h0 h2
    exact ⟨_, execCsrw_of_readOnly hx hreadOnly, hrefused 1⟩
  · exact ⟨_, execCsrw_of_tooWide (x := .devAddr) rfl rfl hv, hrefused 2⟩

/-! ### The registers as numbers (43_csr R212) -/

theorem be32_toNat (b3 b2 b1 b0 : Byte) :
    (be32 b3 b2 b1 b0).toNat = 16777216 * b3.toNat + 65536 * b2.toNat + 256 * b1.toNat + b0.toNat := by
  have := b3.isLt
  have := b2.isLt
  have := b1.isLt
  have := b0.isLt
  rw [be32, BitVec.toNat_ofNat]
  omega

theorem Handshake.code_toNat (h : Handshake) : h.code.toNat = handshakeNumber h := by
  cases h <;> rfl

theorem Status.code_toNat (st : Status) : st.code.toNat = statusNumber st := by
  cases st <;> rfl

theorem State.statusWord_toNat (s : State) :
    s.statusWord.toNat = 65536 * statusNumber s.st + 256 * statusNumber s.sub + s.info.toNat := by
  rw [State.statusWord, be32_toNat, Status.code_toNat, Status.code_toNat, show (0 : Byte).toNat = 0 from rfl]
  omega

/-- `CUR` and `RING_CAP` are shown as 16-bit values. -/
theorem setWidth_half_toNat {n : Nat} (h : n < 65536) : ((BitVec.ofNat 16 n).setWidth 32).toNat = n := by
  rw [BitVec.toNat_setWidth_of_le (by decide), BitVec.toNat_ofNat]
  exact Nat.mod_eq_of_lt h

/-! ### CSRR (43_csr R210) -/

/-- CSRR of a listed register completes; `R`, the end of the command and perhaps a draw are all it writes. -/
theorem State.csrRead_frame (s : State) (x : Csr) (v : Word) :
    EndedOk s ((s.afterCsrRead x).setR v).returnOk [] ∧ SameButResult s ((s.afterCsrRead x).setR v).returnOk := by
  rcases s.afterCsrRead_cases x with hx | hx <;> rw [hx]
  · obtain ⟨hend, hframe, -⟩ := State.setR_returnOk_frame v s
    exact ⟨hend, hframe⟩
  · obtain ⟨hend, hframe, -⟩ := State.setR_returnOk_frame v s.countDraw
    exact ⟨hend, hframe⟩

/-- CSRR of a register whose value is specified draws none. -/
theorem execCsrr_reads {s : State} {c : Half} {x : Csr} {n : Nat} (hc : csrOf s.cfg.ringCap c = some x)
    (hx : s.afterCsrRead x = s) (hn : (s.csrValue x).toNat = n) :
    ∃ t, exec (.csrr c) s = .next t ∧ t.r.toNat = n ∧ EndedOk s t [] ∧ SameButResult s t ∧ t.draws = s.draws := by
  have hexec := execCsrr_of_listed hc
  rw [hx] at hexec
  exact ⟨_, hexec, hn, State.setR_returnOk_frame _ s⟩

/-- Settles O52: the number of each register, and the number it holds. -/
theorem csrrReturnsTheRegister : Obligations.CsrrReturnsTheRegister := by
  intro s
  have hcap := s.cfg.ringCap_le
  have hzext {w : Nat} (hw : w ≤ 32) (v : BitVec w) : (v.setWidth 32).toNat = v.toNat := BitVec.toNat_setWidth_of_le hw
  refine ⟨?devAddr, ?hwId, ?stdDelay, ?hs, ?status, ?r, ?blen, fun hcur => ?cur, ?ringCap, fun k hk => ?ring⟩
  case devAddr => exact execCsrr_reads (x := .devAddr) rfl rfl (hzext (by decide) _)
  case hwId => exact execCsrr_reads (x := .hwId) rfl rfl (hzext (by decide) _)
  case stdDelay => exact execCsrr_reads (x := .stdDelay) rfl rfl rfl
  case hs => exact execCsrr_reads (x := .hs) rfl rfl ((hzext (by decide) _).trans s.hs.code_toNat)
  case status => exact execCsrr_reads (x := .status) rfl rfl s.statusWord_toNat
  case r => exact execCsrr_reads (x := .r) rfl rfl rfl
  case blen => exact execCsrr_reads (x := .blen) rfl rfl (hzext (by decide) _)
  case cur => exact execCsrr_reads (x := .cur) rfl rfl (setWidth_half_toNat hcur)
  case ringCap => exact execCsrr_reads (x := .ringCap) rfl rfl (setWidth_half_toNat (by omega))
  case ring =>
    have hnumber : (BitVec.ofNat 16 (0x1000 + k)).toNat = 0x1000 + k := by rw [BitVec.toNat_ofNat]; omega
    exact execCsrr_reads (csrOf_ring _ k _ hk hnumber) rfl (hzext (by decide) _)

/-- Settles O53: the byte that the state before the command shows, specified or free. -/
theorem csrrReturnsTheBufferByte : Obligations.CsrrReturnsTheBufferByte := by
  intro s k hk
  have hnumber : (BitVec.ofNat 16 (0x0100 + k)).toNat = 0x0100 + k := by rw [BitVec.toNat_ofNat]; omega
  have hvalue : (s.csrValue (.buf k)).toNat = (s.bufByte k).toNat := setWidth_word_toNat _
  exact ⟨_, execCsrr_of_listed (csrOf_buf _ k _ hk hnumber), hvalue ▸ (s.bufByte k).isLt, fun _ => hvalue,
    s.csrRead_frame ..⟩

/-! ### CSRW (43_csr R211) -/

/-- CSRW writes no register but the two settings. -/
theorem State.writeCsr_eq (x : Csr) (v : Word) (s : State) :
    ∃ a d, s.writeCsr x v = { s with devAddr := a, stdDelay := d } := by
  cases x with
  | devAddr | stdDelay | hwId | hs | status | r | blen | cur | ringCap | buf | ring => exact ⟨_, _, rfl⟩

/-- A write of a CSR and `return OK` (60_exceptions R229): of the settings nothing is said here. -/
theorem State.writeCsr_returnOk_frame {s t : State} {x : Csr} {v : Word} (ht : t = (s.writeCsr x v).returnOk) :
    EndedOk s t [] ∧ t.r = s.r ∧ SameBuf s t ∧ SameHandshake s t ∧ SameRing s t ∧ SameLoop s t ∧ t.dcnt = s.dcnt ∧
      SameOutside s t ∧ t.answers = s.answers ∧ t.draws = s.draws := by
  obtain ⟨a, d, hwrite⟩ := s.writeCsr_eq x v
  rw [hwrite] at ht
  subst ht
  exact ⟨State.returnOk_ended (List.append_nil _).symm, rfl, ⟨rfl, fun _ => rfl, fun _ => rfl⟩, ⟨rfl, rfl⟩, ⟨rfl, rfl⟩,
    ⟨rfl, rfl⟩, rfl, ⟨rfl, rfl⟩, rfl, rfl⟩

/-- Settles O54: a value that fits `DEV_ADDR` is its own low half, and every value fits `STD_DELAY`. -/
theorem csrwWritesTheTwoSettings : Obligations.CsrwWritesTheTwoSettings := by
  intro s v
  refine ⟨fun hv => ?_, ?_⟩
  · have hlow : (v.setWidth 16).toNat = v.toNat := by rw [BitVec.toNat_setWidth]; exact Nat.mod_eq_of_lt hv
    exact ⟨_, execCsrw_of_fits (x := .devAddr) rfl rfl hv, hlow, rfl, State.writeCsr_returnOk_frame rfl⟩
  · exact ⟨_, execCsrw_of_fits (x := .stdDelay) rfl rfl v.isLt, rfl, rfl, State.writeCsr_returnOk_frame rfl⟩

end Sys2Proof.Machine
end

section
/-!
PROOFS. The statements of 60_exceptions: what the block takes from the host; what a failure leaves alone; the delays
between the transactions of a command, and the times they enforce; and that every command ends when the transport
answers.
-/
namespace Sys2Proof.Machine

/-! ### What the block takes from the host (60_exceptions R251 to R253) -/

/-- Settles O6: what the step does around `exec` is `State.accept`. -/
theorem stepRunsTheDecodedCommand : Obligations.StepRunsTheDecodedCommand :=
  fun _ _ _ _ hs hi hd => step_of_decode_ok hs hi hd

/-- Settles O7: a busy block fetches nothing. -/
theorem busyBlockServesNoHost : Obligations.BusyBlockServesNoHost :=
  fun _ => step_of_busy

theorem State.fetch_of_no_inputs {s : State} (h : s.inputs = []) : s.fetch = .nothing := by
  cases hs : s.seq <;> simp only [State.fetch, hs, h]

/-- Settles O8: there is nothing to fetch. -/
theorem idleBlockWaits : Obligations.IdleBlockWaits := by
  intro s _ hi
  rw [step, State.fetch_of_no_inputs hi]

/-! ### What a failure leaves alone (60_exceptions R230) -/

/-- An RST that fails leaves `Failed` in `HS`; the identity, the settings and the ring stay (40_core R148, R149). -/
theorem RstEnds.failure {s t : State} (h : RstEnds s t) (hidle : t.seq = .idle) (hst : t.st ≠ .ok) :
    t.hs = .failed ∧ t.hwId = s.hwId ∧ SameSettings s t ∧ SameRing s t := by
  cases h with
  | stalled _ hp => exact absurd hidle hp
  | writeFailed hu | pollsSpent hu =>
    obtain ⟨es, h⟩ := hu.running.underway
    obtain ⟨hhs, hid, -, hset, hring, -⟩ := h.rst_failed ..
    exact ⟨hhs, hid, hset, hring⟩
  | ready => simp at hst

/-- Any other command that fails leaves all that outlives it. -/
theorem Ends.failure {i : Instr} {s t : State} (h : Ends s i t) (hi : i ≠ .rst) (hidle : t.seq = .idle)
    (hst : t.st ≠ .ok) : SamePersistent s t := by
  cases h with
  | returned | keyrd | devAddr | stdDelay | mpush => simp at hst
  | failed hu => exact hu.persistent.fail ..
  | stalled _ _ hp => exact absurd hidle hp
  | rst => exact absurd rfl hi
  | mread h =>
    cases h with
    | stalled _ hp => exact absurd hidle hp
    | attemptsSpent hu => exact hu.running.persistent.fail ..
    | sampled => simp at hst

/-- Settles O21: the failure of RST, and that of any other command. -/
theorem failureLeavesPersistentState : Obligations.FailureLeavesPersistentState := by
  intro i s t h hidle hst
  have hblen := ((exec_ends h).responded hidle).blen_of_failed hst
  by_cases hi : i = .rst
  · subst hi
    obtain ⟨hhs, hid, hset, hring⟩ := (execRst_ends h).failure hidle hst
    exact ⟨hblen, hset, hid, hring, fun hne => absurd rfl hne, fun _ => hhs⟩
  · obtain ⟨hset, ⟨hhs, hid⟩, hring, -⟩ := (exec_ends h).failure hi hidle hst
    exact ⟨hblen, hset, hid, hring, fun _ => hhs, fun heq => absurd heq hi⟩

/-! ### Schedules (60_exceptions R245) -/

/-- A part of a schedule is the schedule of its events, from some later time on. -/
theorem Scheduled.of_append {tick now : Nat} {xs ys : List (Event × Nat × Nat)}
    (h : Scheduled tick now (xs ++ ys)) : ∃ later, now ≤ later ∧ Scheduled tick later ys := by
  induction xs generalizing now with
  | nil => exact ⟨now, Nat.le_refl now, h⟩
  | cons x xs ih =>
    obtain ⟨hstart, hstop, hrest⟩ := h
    obtain ⟨later, hlater, hys⟩ := ih hrest
    exact ⟨later, by omega, hys⟩

/-- What comes after a delay starts no earlier than the delay allows. -/
theorem Scheduled.delay_le_start {tick now start stop : Nat} {between after : List (Event × Nat × Nat)} {e : Event}
    {d : Word} (h : Scheduled tick now (between ++ (e, start, stop) :: after))
    (hd : .delay d ∈ between.map Prod.fst) : now + d.toNat * tick ≤ start := by
  obtain ⟨⟨_, begun, upto⟩, hmem, rfl⟩ := List.mem_map.1 hd
  obtain ⟨xs, ys, rfl⟩ := List.append_of_mem hmem
  rw [List.append_assoc] at h
  obtain ⟨later, hlater, hfrom, hupto, hrest⟩ := h.of_append
  obtain ⟨last, hlast, hstart, -⟩ := hrest.of_append
  calc now + d.toNat * tick ≤ begun + d.toNat * tick := Nat.add_le_add_right (hlater.trans hfrom) _
    _ ≤ upto := hupto
    _ ≤ start := hlast.trans hstart

/-! ### The delays between the transactions of a command (60_exceptions R246) -/

/-- Between any two transactions of the events `es` of the command `i`, one right after the other, lies the delay of
R246. -/
def KeepsDelays (s : State) (i : Instr) (es : List Event) : Prop :=
  ∀ before x a between y b after, es = before ++ .transaction x a :: between ++ .transaction y b :: after →
    transactionsOf between = [] → .delay (delayBefore s i (transactionsOf before) y) ∈ between

/-- After the events `es` of the command `i` the transaction `y` may come: it is the first one, or the last event is
the delay of R246. -/
def Due (s : State) (i : Instr) (es : List Event) (y : Transaction) : Prop :=
  transactionsOf es = [] ∨ es.getLast? = some (.delay (delayBefore s i (transactionsOf es).dropLast y))

/-- An attempt, which begins with a write, may come. -/
def AttemptDue (s : State) (i : Instr) (es : List Event) : Prop := ∀ a ws, Due s i es (.write a ws)

theorem transactionsOf_append (es fs : List Event) :
    transactionsOf (es ++ fs) = transactionsOf es ++ transactionsOf fs :=
  List.filterMap_append ..

@[simp] theorem transactionsOf_cons_transaction (x : Transaction) (a : Answer) (es : List Event) :
    transactionsOf (.transaction x a :: es) = x :: transactionsOf es := rfl
@[simp] theorem transactionsOf_cons_delay (d : Word) (es : List Event) :
    transactionsOf (.delay d :: es) = transactionsOf es := rfl
@[simp] theorem transactionsOf_nil : transactionsOf [] = [] := rfl

theorem KeepsDelays.nil (s : State) (i : Instr) : KeepsDelays s i [] := by
  intro before x a between y b after hsplit
  simp at hsplit

/-- The delays are kept when the next event is no transaction, or one that is due. -/
theorem KeepsDelays.concat {s : State} {i : Instr} {es : List Event} {e : Event} (h : KeepsDelays s i es)
    (hdue : ∀ y b, e = .transaction y b → Due s i es y) : KeepsDelays s i (es ++ [e]) := by
  intro before x a between y b after hsplit hnone
  rcases List.eq_nil_or_concat after with rfl | ⟨after, e', rfl⟩
  · obtain ⟨rfl, he⟩ := List.append_inj' hsplit rfl
    have hdue := hdue y b (List.singleton_inj.1 he)
    simp only [Due, transactionsOf_append, transactionsOf_cons_transaction, hnone, List.dropLast_concat,
      List.getLast?_append_cons] at hdue
    rcases hdue with hfirst | hlast
    · simp at hfirst
    · simpa using List.mem_of_getLast? hlast
  · rw [List.concat_eq_append, ← List.cons_append, ← List.append_assoc] at hsplit
    exact h before x a between y b after (List.append_inj' hsplit rfl).1 hnone

/-- The command `i`, begun in `s`, has come to `u` by the transactions and delays `es`, which keep the delays of
R246. -/
structure Paced (s : State) (i : Instr) (u : State) (es : List Event) : Prop where
  bus : SameBus s u
  trace : u.trace = s.trace ++ es
  onlyBus : busEvents es = es
  delays : KeepsDelays s i es

namespace Paced

variable {s u v : State} {i : Instr} {es : List Event}

theorem refl (s : State) (i : Instr) : Paced s i s [] :=
  ⟨⟨rfl, rfl, rfl⟩, (List.append_nil _).symm, rfl, .nil s i⟩

/-- What puts nothing on record and leaves the parameters of the bus. -/
theorem silently (h : Paced s i u es) (hbus : SameBus u v) (htrace : v.trace = u.trace) : Paced s i v es :=
  ⟨⟨hbus.cfg.trans h.bus.cfg, hbus.devAddr.trans h.bus.devAddr, hbus.stdDelay.trans h.bus.stdDelay⟩,
    htrace.trans h.trace, h.onlyBus, h.delays⟩

theorem delay (h : Paced s i u es) (d : Word) : Paced s i (u.delay d) (es ++ [.delay d]) :=
  ⟨⟨h.bus.cfg, h.bus.devAddr, h.bus.stdDelay⟩, by simp [h.trace], by rw [busEvents_append, h.onlyBus]; rfl,
    h.delays.concat nofun⟩

/-- A transaction that is due, and the phase it is made in. -/
theorem transact (h : Paced s i u es) (p : Phase) {x : Transaction} (hdue : Due s i es x) :
    Paced s i ((u.enter p).issue x) (es ++ [.transaction x (u.nextAnswer x)]) :=
  ⟨⟨h.bus.cfg, h.bus.devAddr, h.bus.stdDelay⟩, by simp [h.trace], by rw [busEvents_append, h.onlyBus]; rfl,
    h.delays.concat fun _ _ he => by cases he; exact hdue⟩

/-! ### The core procedures -/

theorem doWrite (h : Paced s i u es) (hdue : AttemptDue s i es) (m f : Byte) (ws : List Byte) :
    ∃ x a, Paced s i (doWrite m f ws u).state (es ++ [.transaction x a]) := by
  have hissue := h.transact .write (hdue u.devAddr (m :: f :: ws))
  rcases doWrite_cases m f ws u with ⟨-, hr⟩ | ⟨e, -, hr⟩ | ⟨w, -, hr⟩ <;> rw [hr] <;> exact ⟨_, _, hissue⟩

theorem dataPhase (h : Paced s i u es) (n : Byte) (hdue : ∀ a k, Due s i es (.read a k)) :
    ∃ x a, Paced s i (dataPhase n u).state (es ++ [.transaction x a]) := by
  have hissue := h.transact .data (hdue u.devAddr n.toNat)
  rcases dataPhase_cases n u with ⟨-, hr⟩ | ⟨e, -, hr⟩ | ⟨bs, -, -, hr⟩ | ⟨bs, -, -, hr⟩ <;> rw [hr]
  · exact ⟨_, _, hissue⟩
  · exact ⟨_, _, hissue⟩
  · exact ⟨_, _, hissue⟩
  · exact ⟨_, _, hissue.silently ⟨rfl, rfl, rfl⟩ rfl⟩

/-- A read with the delay of R246 between its phases (40_core R140). -/
theorem doRead (h : Paced s i u es) (hdue : AttemptDue s i es) (m f n : Byte) :
    ∃ fs, transactionsOf fs ≠ [] ∧ Paced s i (doRead m f n (dataDelay s i) u).state (es ++ fs) := by
  have hpair := h.transact .addr (hdue u.devAddr [m, f])
  rcases doRead_cases m f n (dataDelay s i) u with ⟨-, hr⟩ | ⟨e, -, hr⟩ | ⟨w, -, hr⟩ <;> rw [hr]
  · exact ⟨_, by simp, hpair⟩
  · exact ⟨_, by simp, hpair⟩
  · obtain ⟨x, a, hdata⟩ := (hpair.delay (dataDelay s i)).dataPhase n fun _ _ => .inr (List.getLast?_concat ..)
    rw [List.append_assoc, List.append_assoc] at hdata
    exact ⟨_, by simp, hdata⟩

end Paced

/-! ### The retry loop -/

/-- The command `i` has come from the events `es`, before its loop, to an attempt of the loop. -/
def AtAttempt (s : State) (i : Instr) (es : List Event) (u : State) : Prop :=
  ∃ fs, Paced s i u (es ++ fs) ∧ AttemptDue s i (es ++ fs)

/-- The pause is the delay of R246 before an attempt that follows transactions of the loop. -/
def PauseDue (s : State) (i : Instr) (es : List Event) (pause : Word) : Prop :=
  ∀ xs, xs ≠ [] → attemptDelay s i (transactionsOf es ++ xs).dropLast.isEmpty = pause

/-- An attempt whose first write is due keeps the delays, and makes at least that one transaction. -/
def KeepsAttempt (s : State) (i : Instr) (attempt : State → Result) : Prop :=
  ∀ u es, Paced s i u es → AttemptDue s i es →
    ∃ fs, transactionsOf fs ≠ [] ∧ Paced s i (attempt u).state (es ++ fs)

section Loop

variable {s u : State} {i : Instr} {es : List Event} {attempt : State → Result} {limit : Nat} {pause : Word}

/-- A failed attempt and the pause lead to the next attempt. -/
theorem AtAttempt.next {t : State} {st : Status} {info : Byte} (h : AtAttempt s i es u)
    (hattempt : KeepsAttempt s i attempt) (hpause : PauseDue s i es pause) (hr : attempt u = .failed st info t) :
    AtAttempt s i es (((t.setLast (st, info)).delay pause).setAtt (t.att + 1)) := by
  obtain ⟨fs, hu, hdue⟩ := h
  obtain ⟨gs, hgs, ht⟩ := hattempt u _ hu hdue
  rw [hr, List.append_assoc] at ht
  have hnoted : Paced s i (t.setLast (st, info)) (es ++ (fs ++ gs)) := ht.silently ⟨rfl, rfl, rfl⟩ rfl
  have hdelay := hpause (transactionsOf (fs ++ gs)) (by simp [transactionsOf_append, hgs])
  rw [← transactionsOf_append] at hdelay
  refine ⟨fs ++ gs ++ [.delay pause], ?_, fun a ws => .inr ?_⟩ <;> rw [← List.append_assoc es]
  · exact (hnoted.delay pause).silently ⟨rfl, rfl, rfl⟩ rfl
  · rw [List.getLast?_concat, transactionsOf_append, transactionsOf_cons_delay, transactionsOf_nil, List.append_nil,
      delayBefore, hdelay]

/-- A loop that follows the events `es` keeps the delays up to the end of its last attempt. -/
theorem retryFromOne_paced (hatt : ∀ v, (attempt v).state.att = v.att) (hattempt : KeepsAttempt s i attempt)
    (hpause : PauseDue s i es pause) (hlimit : 1 ≤ limit) (h : Paced s i u es) (hdue : AttemptDue s i es) :
    ∃ v fs, Paced s i (attempt v).state fs ∧ retryFromOne attempt limit pause u = (attempt v).noteFailure := by
  have hstart : AtAttempt s i es (u.setAtt 1) :=
    ⟨[], by rw [List.append_nil]; exact ⟨h.silently ⟨rfl, rfl, rfl⟩ rfl, hdue⟩⟩
  obtain ⟨v, ⟨fs, hv, hvdue⟩, -, -, hr⟩ := retry_eq_lastAttempt hatt
    (fun u st info t hu hr => hu.next hattempt hpause hr) limit hstart (Nat.le_refl 1) hlimit
    (by rw [State.setAtt_att]; omega)
  obtain ⟨gs, -, hlast⟩ := hattempt v _ hv hvdue
  exact ⟨v, _, hlast, hr⟩

end Loop

/-! ### The commands -/

/-- The command `i`, begun in `s`, keeps the delays of R246 until it waits for ever, or until its response, which is
the last event. -/
inductive EndsPaced (s : State) (i : Instr) : State → Prop where
  | stalled {u : State} {es : List Event} (h : Paced s i u es) (hp : u.seq ≠ .idle) : EndsPaced s i u
  | ended {u t : State} {es : List Event} (h : Paced s i u es)
      (ht : t.trace = u.trace ++ [.responded t.responseBytes]) : EndsPaced s i t

theorem Paced.returnOk {s u : State} {i : Instr} {es : List Event} (h : Paced s i u es) : EndsPaced s i u.returnOk :=
  .ended h (by rw [State.returnOk_trace, State.returnOk_responseBytes])

theorem Paced.fail {s u : State} {i : Instr} {es : List Event} (h : Paced s i u es) (st sub : Status) (info : Byte) :
    EndsPaced s i (u.fail st sub info) :=
  .ended h (by rw [State.fail_trace, State.fail_responseBytes])

theorem Called.seq_of_stalled {s u t : State} (h : Called s u (.stalled t)) : t.seq ≠ .idle := by
  cases h with
  | stalled _ _ hp => exact hp

theorem Polled.seq_of_stalled {s u t : State} (h : Polled s u (.stalled t)) : t.seq ≠ .idle := by
  cases h with
  | stalled _ _ hp => exact hp

/-- A command that is one procedure keeps the delays as the procedure does. -/
theorem Called.conclude_paced {s : State} {i : Instr} {r : Result} {es : List Event} {finish : State → State}
    (h : Called s s r) (hp : Paced s i r.state es) (hfin : ∀ u, SameBus u (finish u))
    (htrace : ∀ u, (finish u).trace = u.trace) : EndsPaced s i (r.conclude finish) := by
  cases r with
  | ok u => exact (hp.silently (hfin u) (htrace u)).returnOk
  | failed st info u => exact hp.fail st .ok info
  | stalled u => exact .stalled hp h.seq_of_stalled

/-! ### RST and MREAD -/

/-- A poll is a read with the standard delay, and its test (40_core R146, R147). -/
theorem identityPoll_keepsAttempt (s : State) : KeepsAttempt s .rst identityPoll := by
  intro u es hu hdue
  obtain ⟨fs, hfs, hread⟩ := hu.doRead hdue s.cfg.idModule s.cfg.idFunction 1
  refine ⟨fs, hfs, ?_⟩
  cases hr : doRead s.cfg.idModule s.cfg.idFunction 1 s.stdDelay u with
  | ok t =>
    rw [dataDelay, hr] at hread
    rw [identityPoll_of_ok hu.bus hr]
    rcases identityTest_cases t with ht | ht <;> rw [ht]
    · exact hread.silently ⟨rfl, rfl, rfl⟩ rfl
    · exact hread
  | failed st info t => rw [identityPoll_of_failed hu.bus hr]; rwa [dataDelay, hr] at hread
  | stalled t => rw [identityPoll_of_stalled hu.bus hr]; rwa [dataDelay, hr] at hread

/-- After the first transaction of RST and its settle delay, the polls keep the delays to the end of the command. -/
theorem handshakePolls_paced {s u : State} {x : Transaction} {a : Answer}
    (h : Paced s .rst u [.transaction x a]) : EndsPaced s .rst (handshakePolls (u.delay s.cfg.tResetSettle)) := by
  have hsettled := h.delay s.cfg.tResetSettle
  obtain ⟨v, fs, hlast, hr⟩ := retryFromOne_paced (limit := s.cfg.nIdTry) (pause := s.cfg.tIdRetry)
    (fun v => (identityPoll_polled (.refl v)).state_att) (identityPoll_keepsAttempt s)
    (fun xs hxs => by simp [List.dropLast_cons_of_ne_nil hxs, attemptDelay]) s.cfg.one_le_nIdTry hsettled
    fun _ _ => .inr rfl
  have hpolled := identityPoll_polled (.refl v)
  cases hp : identityPoll v with
  | ok t =>
    rw [hp] at hr hlast
    rw [handshakePolls_of_ok hsettled.bus hr]
    exact hlast.returnOk
  | failed st info t =>
    rw [hp] at hr hlast
    rw [handshakePolls_of_failed hsettled.bus hr]
    have hfailed : Paced s .rst ((t.setLast (st, info)).setHs .failed) fs := hlast.silently ⟨rfl, rfl, rfl⟩ rfl
    exact hfailed.fail ..
  | stalled t =>
    rw [hp] at hr hlast hpolled
    rw [handshakePolls_of_stalled hsettled.bus hr]
    exact .stalled hlast hpolled.seq_of_stalled

theorem execRst_paced {s t : State} (h : exec .rst s = .next t) : EndsPaced s .rst t := by
  have hcalled := doWrite_called (.refl s.startRst) s.cfg.rstModule s.cfg.rstFunction s.cfg.rstPayload
  have hstart : Paced s .rst s.startRst [] := (Paced.refl s .rst).silently (sameBus_startRst s) rfl
  obtain ⟨x, a, hwrite⟩ := hstart.doWrite (fun _ _ => .inl rfl) s.cfg.rstModule s.cfg.rstFunction s.cfg.rstPayload
  cases hr : doWrite s.cfg.rstModule s.cfg.rstFunction s.cfg.rstPayload s.startRst with
  | ok u =>
    rw [hr] at hwrite
    cases (execRst_of_write_ok hr).symm.trans h
    rw [show u.cfg = s.cfg from hwrite.bus.cfg]
    exact handshakePolls_paced hwrite
  | failed st info u =>
    rw [hr] at hwrite
    cases (execRst_of_write_failed hr).symm.trans h
    have hfailed : Paced s .rst (u.setHs .failed) _ := hwrite.silently ⟨rfl, rfl, rfl⟩ rfl
    exact hfailed.fail ..
  | stalled u =>
    rw [hr] at hwrite hcalled
    cases (execRst_of_write_stalled hr).symm.trans h
    exact .stalled hwrite hcalled.seq_of_stalled

/-- An attempt of MREAD is a read with its own delay (42_moisture R196). -/
theorem moistureRead_keepsAttempt (s : State) : KeepsAttempt s .mread moistureRead := by
  intro u es hu hdue
  rw [moistureRead_of_sameBus hu.bus]
  exact hu.doRead hdue s.cfg.moistModule s.cfg.moistFunction 2

theorem Paced.takeSample {s u : State} {i : Instr} {es : List Event} (h : Paced s i u es) :
    Paced s i u.takeSample es := by
  have hbus : SameBus u u.takeSample := by constructor <;> simp [State.takeSample]
  exact h.silently hbus (by simp [State.takeSample])

theorem execMread_paced {s t : State} (h : exec .mread s = .next t) : EndsPaced s .mread t := by
  have hstart : Paced s .mread s.startLoop [] := (Paced.refl s .mread).silently (sameBus_startLoop s) rfl
  obtain ⟨v, fs, hlast, hr⟩ := retryFromOne_paced (limit := Config.moistTries) (pause := s.cfg.tMoistBackoff)
    (fun v => (moistureRead_called (.refl v)).state_att) (moistureRead_keepsAttempt s) (fun _ _ => rfl) (by decide)
    hstart fun _ _ => .inl rfl
  have hcalled := moistureRead_called (.refl v)
  cases hp : moistureRead v with
  | ok u =>
    rw [hp] at hr hlast
    cases (execMread_of_ok hr).symm.trans h
    exact hlast.takeSample.returnOk
  | failed st info u =>
    rw [hp] at hr hlast
    cases (execMread_of_failed hr).symm.trans h
    have hnoted : Paced s .mread (u.setLast (st, info)) fs := hlast.silently ⟨rfl, rfl, rfl⟩ rfl
    exact hnoted.fail ..
  | stalled u =>
    rw [hp] at hr hlast hcalled
    cases (execMread_of_stalled hr).symm.trans h
    exact .stalled hlast hcalled.seq_of_stalled

/-! ### Every command -/

/-- The command has delivered its response, and nothing else stands on record. -/
def OnlyResponded (s t : State) : Prop := t.seq = .idle ∧ t.trace = s.trace ++ [.responded t.responseBytes]

theorem EndedOk.onlyResponded {s t : State} (h : EndedOk s t []) : OnlyResponded s t := by
  obtain ⟨-, -, -, hidle, -, htrace⟩ := h
  exact ⟨hidle, by rwa [List.append_nil] at htrace⟩

theorem State.fail_onlyResponded (st sub : Status) (info : Byte) (s : State) :
    OnlyResponded s (s.fail st sub info) :=
  ⟨rfl, by rw [State.fail_trace, State.fail_responseBytes]⟩

/-- What a command is to the bus: a read with the delay of R246, a write, one of the two loops, or nothing. -/
inductive BusForm (s : State) : Instr → State → Prop where
  | read {i : Instr} {finish : State → State} (m f n : Byte) (hfin : ∀ u, SameBus u (finish u))
      (htrace : ∀ u, (finish u).trace = u.trace) :
      BusForm s i ((doRead m f n (dataDelay s i) s).conclude finish)
  | write {i : Instr} (m f : Byte) (ws : List Byte) : BusForm s i ((doWrite m f ws s).conclude id)
  | rst {t : State} (h : exec .rst s = .next t) : BusForm s .rst t
  | mread {t : State} (h : exec .mread s = .next t) : BusForm s .mread t
  | quiet {i : Instr} {t : State} (h : OnlyResponded s t) : BusForm s i t

theorem execCsrr_onlyResponded {c : Half} {s t : State} (h : exec (.csrr c) s = .next t) : OnlyResponded s t := by
  cases hc : csrOf s.cfg.ringCap c with
  | none =>
    cases (execCsrr_of_unlisted ((csrOf_eq_none_iff _ c).1 hc)).symm.trans h
    exact s.fail_onlyResponded ..
  | some x =>
    cases (execCsrr_of_listed hc).symm.trans h
    exact (s.csrRead_frame x _).1.onlyResponded

theorem execCsrw_onlyResponded {c : Half} {v : Word} {s t : State} (h : exec (.csrw c v) s = .next t) :
    OnlyResponded s t := by
  cases hc : csrOf s.cfg.ringCap c with
  | none =>
    cases (execCsrw_of_unlisted ((csrOf_eq_none_iff _ c).1 hc)).symm.trans h
    exact s.fail_onlyResponded ..
  | some x =>
    cases hx : x.writableWidth with
    | none =>
      cases (execCsrw_of_readOnly hc hx).symm.trans h
      exact s.fail_onlyResponded ..
    | some w =>
      by_cases hv : v.toNat < 2 ^ w
      · cases (execCsrw_of_fits hc hx hv).symm.trans h
        exact (State.writeCsr_returnOk_frame rfl).1.onlyResponded
      · cases (execCsrw_of_tooWide hc hx (Nat.not_lt.1 hv)).symm.trans h
        exact s.fail_onlyResponded ..

theorem exec_busForm {i : Instr} {s t : State} (h : exec i s = .next t) : BusForm s i t := by
  cases i with
  | rdreg | rd | keyrd | keycnt => cases h; exact .read _ _ _ (fun _ => ⟨rfl, rfl, rfl⟩) fun _ => rfl
  | wrreg | wr | keyint | keycfg => cases h; exact .write ..
  | keydec | keyenc | mavg => cases h; exact .quiet (State.setR_returnOk_frame ..).1.onlyResponded
  | mpush v => cases h; exact .quiet (State.returnOk_ended (by simp)).onlyResponded
  | rst => exact .rst h
  | mread => exact .mread h
  | csrr => exact .quiet (execCsrr_onlyResponded h)
  | csrw => exact .quiet (execCsrw_onlyResponded h)

/-- Every command keeps the delays of R246. -/
theorem exec_paced {i : Instr} {s t : State} (h : exec i s = .next t) : EndsPaced s i t := by
  have hstart := Paced.refl s i
  have hdue : AttemptDue s i [] := fun _ _ => .inl rfl
  cases exec_busForm h with
  | read m f n hfin htrace =>
    obtain ⟨fs, -, hread⟩ := hstart.doRead hdue m f n
    exact (doRead_called (.refl s) ..).conclude_paced hread hfin htrace
  | write m f ws =>
    obtain ⟨x, a, hwrite⟩ := hstart.doWrite hdue m f ws
    exact (doWrite_called (.refl s) ..).conclude_paced hwrite (fun _ => ⟨rfl, rfl, rfl⟩) fun _ => rfl
  | rst h => exact execRst_paced h
  | mread h => exact execMread_paced h
  | quiet h => exact .ended hstart h.2

theorem EndsPaced.keepsDelays {s t : State} {i : Instr} (h : EndsPaced s i t) :
    ∃ es, t.trace = s.trace ++ es ∧ KeepsDelays s i es := by
  cases h with
  | stalled h => exact ⟨_, h.trace, h.delays⟩
  | ended h ht => exact ⟨_, by rw [ht, h.trace, List.append_assoc], h.delays.concat (e := .responded _) nofun⟩

/-- Settles O24: a schedule keeps the delays that stand between the transactions of the command. -/
theorem schedulesKeepTheDelays : Obligations.SchedulesKeepTheDelays := by
  intro i s t h
  obtain ⟨es, htrace, hdelays⟩ := (exec_paced h).keepsDelays
  refine ⟨es, htrace, fun now timed hes hsched before between after x a p answered y b start stop hsplit hnone => ?_⟩
  have hdelay := hdelays (before.map Prod.fst) x a (between.map Prod.fst) y b (after.map Prod.fst)
    (by rw [← hes, hsplit]; simp) hnone
  rw [hsplit, List.append_assoc] at hsched
  obtain ⟨later, -, -, -, hrest⟩ := hsched.of_append
  exact hrest.delay_le_start hdelay

/-! ### A transport that answers (60_exceptions R220) -/

theorem exec_eq_next (i : Instr) (s : State) : ∃ t, exec i s = .next t := by
  cases i <;> exact ⟨_, rfl⟩

theorem Result.conclude_seq {r : Result} (h : ∀ u, r ≠ .stalled u) (finish : State → State) :
    (r.conclude finish).seq = .idle := by
  cases r with
  | ok | failed => rfl
  | stalled u => exact absurd rfl (h u)

theorem Answering.of_moistureRead_failed {s t : State} {st : Status} {info : Byte} (h : Answering s)
    (hr : moistureRead s = .failed st info t) : Answering t := by
  have hkeep : Answering (moistureRead s).state := h.doRead _ _ _ _
  rwa [hr] at hkeep

/-- The transport answers every attempt of MREAD. -/
theorem execMread_idle {s t : State} (ha : Answering s) (h : exec .mread s = .next t) : t.seq = .idle := by
  obtain ⟨v, hv, -, -, hr⟩ := retry_eq_lastAttempt (P := Answering) (limit := Config.moistTries)
    (pause := s.cfg.tMoistBackoff) (fun u => (moistureRead_called (.refl u)).state_att)
    (fun _ _ _ t hu hr => show Answering t from hu.of_moistureRead_failed hr) Config.moistTries
    (s := s.startLoop.setAtt 1) ha (Nat.le_refl 1) (show 1 ≤ Config.moistTries by decide)
    (Nat.lt_add_of_pos_left Nat.one_pos)
  cases hp : moistureRead v with
  | ok u => rw [hp] at hr; cases (execMread_of_ok hr).symm.trans h; rfl
  | failed st info u => rw [hp] at hr; cases (execMread_of_failed hr).symm.trans h; rfl
  | stalled u => exact (doRead_ne_stalled hv _ _ _ _ u hp).elim

/-- A command that the transport answers ends, whatever the bus sees of it. -/
theorem exec_idle {i : Instr} {s t : State} (ha : Answering s) (h : exec i s = .next t) : t.seq = .idle := by
  cases exec_busForm h with
  | read => exact Result.conclude_seq (doRead_ne_stalled ha _ _ _ _) _
  | write => exact Result.conclude_seq (doWrite_ne_stalled ha _ _ _) _
  | rst h =>
    obtain ⟨u, hu, hidle, -⟩ := rstEndsVerifiedOrFailed s ha
    cases hu.symm.trans h
    exact hidle
  | mread h => exact execMread_idle ha h
  | quiet h => exact h.1

theorem EndsPaced.trace_of_idle {s t : State} {i : Instr} (h : EndsPaced s i t) (hidle : t.seq = .idle) :
    ∃ es, busEvents es = es ∧ t.trace = s.trace ++ es ++ [.responded t.responseBytes] := by
  cases h with
  | stalled _ hp => exact absurd hidle hp
  | ended h ht => exact ⟨_, h.onlyBus, by rw [ht, h.trace]⟩

/-- Settles O15: an answered command does not stall, and what it puts on record before its response is of the bus. -/
theorem everyCommandEnds : Obligations.EveryCommandEnds := by
  intro i s ha
  obtain ⟨t, h⟩ := exec_eq_next i s
  have hidle := exec_idle ha h
  obtain ⟨es, hbus, htrace⟩ := (exec_paced h).trace_of_idle hidle
  exact ⟨t, es, h, hidle, ((exec_ends h).responded hidle).response, by rw [hbus]; exact htrace⟩

end Sys2Proof.Machine
end

section
/-!
PROOFS. The statements of 70_reset_and_hazards: what the RST command leaves of the block's state; that no command
depends on the handshake state; and how much work a command may do.
-/
namespace Sys2Proof.Machine

/-! ### The RST command is no reset of the block (70_reset R263) -/

/-- RST writes no setting and no slot of the ring. -/
theorem RstEnds.keepsSettingsAndRing {s t : State} (h : RstEnds s t) : SameSettings s t ∧ SameRing s t := by
  cases h.ownWrites with
  | none hk => exact ⟨hk.settings, hk.ring⟩
  | handshake hset hring => exact ⟨hset, hring⟩
  | ring hi => simp at hi

/-- Only the end in `Ready` writes the identity (40_core R147, R148). -/
theorem RstEnds.ready_of_hwId_ne {s t : State} (h : RstEnds s t) (hid : t.hwId ≠ s.hwId) :
    t.hs = .ready ∧ t.st = .ok := by
  cases h with
  | stalled hu | writeFailed hu | pollsSpent hu => exact absurd hu.running.handshake.2 hid
  | ready => exact ⟨rfl, rfl⟩

/-- Settles O41: what RST can end in keeps the settings and the ring, and its failures and stalls the identity. -/
theorem rstIsNoResetOfTheBlock : Obligations.RstIsNoResetOfTheBlock := by
  intro s t h
  have hends := execRst_ends h
  obtain ⟨hset, hring⟩ := hends.keepsSettingsAndRing
  exact ⟨hset, hring, hends.ready_of_hwId_ne⟩

/-! ### What the handshake state makes no difference to (70_reset R266) -/

/-- `HS <- h` in the state that a procedure left. -/
def Result.setHs (h : Handshake) : Result → Result
  | .ok s => .ok (s.setHs h)
  | .failed st info s => .failed st info (s.setHs h)
  | .stalled s => .stalled (s.setHs h)

/-- The state change does the same from any `HS`, which it leaves. -/
def IgnoresHs (g : State → State) : Prop := ∀ h s, g (s.setHs h) = (g s).setHs h

/-- The procedure comes back with the same from any `HS`, which it leaves. -/
def CallIgnoresHs (f : State → Result) : Prop := ∀ h s, f (s.setHs h) = (f s).setHs h

theorem IgnoresHs.comp {g k : State → State} (hk : IgnoresHs k) (hg : IgnoresHs g) : IgnoresHs (fun u => k (g u)) :=
  fun h s => (congrArg k (hg h s)).trans (hk h (g s))

theorem returnOk_ignoresHs : IgnoresHs State.returnOk := fun _ _ => rfl
theorem fail_ignoresHs (st sub : Status) (info : Byte) : IgnoresHs (State.fail st sub info) := fun _ _ => rfl

theorem push_ignoresHs (v : Half) : IgnoresHs (State.push v) := by
  intro h s
  by_cases hv : v = 0
  · simp only [State.push_of_zero hv]
  · simp only [State.push_nonzero hv]; rfl

theorem takeSample_ignoresHs : IgnoresHs State.takeSample :=
  fun h s => congrArg (State.setR (s.sample.setWidth 32)) (push_ignoresHs s.sample h s)

theorem writeCsr_ignoresHs (x : Csr) (v : Word) : IgnoresHs (State.writeCsr x v) := by
  intro h s
  cases x <;> rfl

theorem doWrite_ignoresHs (m f : Byte) (ws : List Byte) : CallIgnoresHs (doWrite m f ws) := by
  intro h s
  rcases doWrite_cases m f ws s with ⟨ha, hr⟩ | ⟨e, ha, hr⟩ | ⟨w, ha, hr⟩ <;> rw [hr]
  · exact doWrite_of_silent rfl ha
  · exact doWrite_of_fail rfl ha
  · exact doWrite_of_ok rfl ha

theorem dataPhase_ignoresHs (n : Byte) : CallIgnoresHs (dataPhase n) := by
  intro h s
  rcases dataPhase_cases n s with ⟨ha, hr⟩ | ⟨e, ha, hr⟩ | ⟨bs, ha, hl, hr⟩ | ⟨bs, ha, hl, hr⟩ <;> rw [hr]
  · exact dataPhase_of_silent rfl ha
  · exact dataPhase_of_fail rfl ha
  · exact dataPhase_of_length rfl ha hl
  · exact dataPhase_of_ok rfl ha hl

theorem doRead_ignoresHs (m f n : Byte) (d : Word) : CallIgnoresHs (doRead m f n d) := by
  intro h s
  rcases doRead_cases m f n d s with ⟨ha, hr⟩ | ⟨e, ha, hr⟩ | ⟨w, ha, hr⟩ <;> rw [hr]
  · exact doRead_of_address_silent ha
  · exact doRead_of_address_fail ha
  · exact (doRead_of_takesPair (s := s.setHs h) ha).trans (dataPhase_ignoresHs n h (s.afterAddressPhase m f d))

/-- A loop of attempts to which `HS` makes no difference. -/
theorem retry_ignoresHs {attempt : State → Result} (ha : CallIgnoresHs attempt) (limit : Nat) (pause : Word)
    (fuel : Nat) : CallIgnoresHs (retry attempt limit pause fuel) := by
  intro h s
  induction fuel generalizing s with
  | zero => rfl
  | succ fuel ih =>
    have hagain := ha h s
    cases hr : attempt s with
    | ok t =>
      rw [hr] at hagain
      rw [retry_of_ok fuel hr, retry_of_ok fuel hagain]; rfl
    | stalled t =>
      rw [hr] at hagain
      rw [retry_of_stalled fuel hr, retry_of_stalled fuel hagain]; rfl
    | failed st info t =>
      rw [hr] at hagain
      by_cases hlim : t.att = limit
      · rw [retry_of_spent fuel hr hlim, retry_of_spent fuel hagain hlim]; rfl
      · rw [retry_of_failed fuel hr hlim, retry_of_failed fuel hagain hlim]
        exact ih (((t.setLast (st, info)).delay pause).setAtt (t.att + 1))

/-- A command that is one procedure and its own end. -/
theorem CallIgnoresHs.conclude {f : State → Result} {finish : State → State} (hf : CallIgnoresHs f)
    (hfin : IgnoresHs finish) : IgnoresHs (fun u => (f u).conclude finish) := by
  intro h s
  simp only [hf h s]
  cases f s with
  | ok t => exact (returnOk_ignoresHs.comp hfin) h t
  | failed st info t => rfl
  | stalled t => rfl

/-- The command `i` does the same from any `HS`, which it leaves. -/
def CommandIgnoresHs (i : Instr) : Prop :=
  ∀ s t h, exec i s = .next t → exec i (s.setHs h) = .next (t.setHs h)

/-- A command that is a state change. -/
theorem IgnoresHs.command {i : Instr} {g : State → State} (hg : IgnoresHs g) (hexec : ∀ u, exec i u = .next (g u)) :
    CommandIgnoresHs i := by
  intro s t h he
  cases (hexec s).symm.trans he
  rw [hexec, hg]

theorem mread_ignoresHs : CommandIgnoresHs .mread := by
  intro s t h he
  have hattempt : CallIgnoresHs moistureRead := fun h u => doRead_ignoresHs _ _ _ _ h u
  have hloop := retry_ignoresHs hattempt Config.moistTries s.cfg.tMoistBackoff Config.moistTries h
    (s.startLoop.setAtt 1)
  cases hr : retryFromOne moistureRead Config.moistTries s.cfg.tMoistBackoff s.startLoop with
  | ok u =>
    cases (execMread_of_ok hr).symm.trans he
    rw [← retryFromOne, hr] at hloop
    rw [execMread_of_ok (s := s.setHs h) hloop]
    exact congrArg _ ((returnOk_ignoresHs.comp takeSample_ignoresHs) h u)
  | failed st info u =>
    cases (execMread_of_failed hr).symm.trans he
    rw [← retryFromOne, hr] at hloop
    exact execMread_of_failed (s := s.setHs h) hloop
  | stalled u =>
    cases (execMread_of_stalled hr).symm.trans he
    rw [← retryFromOne, hr] at hloop
    exact execMread_of_stalled (s := s.setHs h) hloop

theorem csrw_ignoresHs (c : Half) (v : Word) : CommandIgnoresHs (.csrw c v) := by
  intro s t h he
  cases hc : csrOf s.cfg.ringCap c with
  | none =>
    have hunlisted := (csrOf_eq_none_iff _ c).1 hc
    cases (execCsrw_of_unlisted hunlisted).symm.trans he
    exact execCsrw_of_unlisted (s := s.setHs h) hunlisted
  | some x =>
    cases hx : x.writableWidth with
    | none =>
      cases (execCsrw_of_readOnly hc hx).symm.trans he
      exact execCsrw_of_readOnly (s := s.setHs h) hc hx
    | some w =>
      by_cases hv : v.toNat < 2 ^ w
      · cases (execCsrw_of_fits hc hx hv).symm.trans he
        rw [execCsrw_of_fits (s := s.setHs h) hc hx hv]
        exact congrArg _ ((returnOk_ignoresHs.comp (writeCsr_ignoresHs x v)) h s)
      · cases (execCsrw_of_tooWide hc hx (Nat.not_lt.1 hv)).symm.trans he
        exact execCsrw_of_tooWide (s := s.setHs h) hc hx (Nat.not_lt.1 hv)

/-- No command but RST, which writes `HS`, and CSRR, which may read it, has to do with `HS`. -/
theorem exec_ignoresHs {i : Instr} (hr : i ≠ .rst) (hc : ∀ c, i ≠ .csrr c) : CommandIgnoresHs i := by
  have hid : IgnoresHs id := fun _ _ => rfl
  have hbyte : IgnoresHs State.byteToR := fun _ _ => rfl
  have hmark : IgnoresHs State.markEvents := fun _ _ => rfl
  cases i with
  | rdreg m f =>
    have hcall : CallIgnoresHs fun u => doRead m f 1 u.stdDelay u := fun h u => doRead_ignoresHs _ _ _ _ h u
    exact (hcall.conclude hbyte).command fun _ => rfl
  | rd m f n d => exact ((doRead_ignoresHs m f n d).conclude hid).command fun _ => rfl
  | keyrd n =>
    have hcall : CallIgnoresHs fun u => doRead u.cfg.keyModule u.cfg.keyFnFifo n u.cfg.tKeyFifo u :=
      fun h u => doRead_ignoresHs _ _ _ _ h u
    exact (hcall.conclude hmark).command fun _ => rfl
  | keycnt =>
    have hcall : CallIgnoresHs fun u => doRead u.cfg.keyModule u.cfg.keyFnCount 1 u.stdDelay u :=
      fun h u => doRead_ignoresHs _ _ _ _ h u
    exact (hcall.conclude hbyte).command fun _ => rfl
  | wrreg m f b => exact ((doWrite_ignoresHs m f [b]).conclude hid).command fun _ => rfl
  | wr m f ws => exact ((doWrite_ignoresHs m f ws).conclude hid).command fun _ => rfl
  | keyint en =>
    have hcall : CallIgnoresHs fun u => doWrite u.cfg.keyModule
        (if en then u.cfg.keyFnIntenset else u.cfg.keyFnIntenclr) u.cfg.keyIntPayload u :=
      fun h u => doWrite_ignoresHs _ _ _ h u
    exact (hcall.conclude hid).command fun _ => rfl
  | keycfg key emask en =>
    have hcall : CallIgnoresHs fun u => doWrite u.cfg.keyModule u.cfg.keyFnEvent [key, keypadState emask en] u :=
      fun h u => doWrite_ignoresHs _ _ _ h u
    exact (hcall.conclude hid).command fun _ => rfl
  | keydec | keyenc | mavg => exact IgnoresHs.command (fun _ _ => rfl) fun _ => rfl
  | mpush v => exact (returnOk_ignoresHs.comp (push_ignoresHs v)).command fun _ => rfl
  | rst => exact absurd rfl hr
  | mread => exact mread_ignoresHs
  | csrr c => exact absurd rfl (hc c)
  | csrw c v => exact csrw_ignoresHs c v

/-- RST overwrites `HS` before anything else (40_core R146). -/
theorem exec_rst_setHs (h : Handshake) (s : State) : exec .rst (s.setHs h) = exec .rst s := rfl

/-- Settles O23: RST overwrites `HS` at its start, and any other command but CSRR carries it along. -/
theorem handshakeStateGatesNothing : Obligations.HandshakeStateGatesNothing := by
  intro i s t h hc he
  by_cases hi : i = .rst
  · subst hi
    exact (exec_rst_setHs h s).trans he
  · rw [if_neg hi]
    exact exec_ignoresHs hi hc s t h he

/-! ### The work of a command (70_reset R281) -/

/-- From `s` to `t` at most `ts` transactions and `ds` delays have been put on record. -/
def WorkWithin (ts ds : Nat) (s t : State) : Prop :=
  ∃ es, t.trace = s.trace ++ es ∧ (transactionsOf es).length ≤ ts ∧ (delaysOf es).length ≤ ds

theorem delaysOf_append (es fs : List Event) : delaysOf (es ++ fs) = delaysOf es ++ delaysOf fs :=
  List.filterMap_append ..

namespace WorkWithin

variable {s t u : State} {ts ds ts' ds' : Nat}

theorem of_trace_eq (h : t.trace = s.trace) : WorkWithin 0 0 s t :=
  ⟨[], by rw [h, List.append_nil], Nat.le_refl 0, Nat.le_refl 0⟩

theorem mono (h : WorkWithin ts ds s t) (hts : ts ≤ ts') (hds : ds ≤ ds') : WorkWithin ts' ds' s t :=
  let ⟨es, htrace, ht, hd⟩ := h
  ⟨es, htrace, ht.trans hts, hd.trans hds⟩

theorem trans (h : WorkWithin ts ds s t) (k : WorkWithin ts' ds' t u) : WorkWithin (ts + ts') (ds + ds') s u := by
  obtain ⟨es, htrace, ht, hd⟩ := h
  obtain ⟨fs, ktrace, kt, kd⟩ := k
  refine ⟨es ++ fs, by rw [ktrace, htrace, List.append_assoc], ?_, ?_⟩
  · rw [transactionsOf_append, List.length_append]; exact Nat.add_le_add ht kt
  · rw [delaysOf_append, List.length_append]; exact Nat.add_le_add hd kd

/-- What is no transaction and no delay costs nothing. -/
theorem silently (h : WorkWithin ts ds s t) (k : WorkWithin 0 0 t u) : WorkWithin ts ds s u := h.trans k

end WorkWithin

theorem issue_work (p : Phase) (x : Transaction) (s : State) : WorkWithin 1 0 s ((s.enter p).issue x) :=
  ⟨[.transaction x (s.nextAnswer x)], rfl, Nat.le_refl 1, Nat.le_refl 0⟩

theorem delay_work (d : Word) (s : State) : WorkWithin 0 1 s (s.delay d) :=
  ⟨[.delay d], rfl, Nat.le_refl 0, Nat.le_refl 1⟩

theorem OnlyResponded.work {s t : State} (h : OnlyResponded s t) : WorkWithin 0 0 s t :=
  ⟨[.responded t.responseBytes], h.2, Nat.le_refl 0, Nat.le_refl 0⟩

theorem returnOk_work (s : State) : WorkWithin 0 0 s s.returnOk := ⟨_, rfl, Nat.le_refl 0, Nat.le_refl 0⟩

theorem fail_work (st sub : Status) (info : Byte) (s : State) : WorkWithin 0 0 s (s.fail st sub info) :=
  (s.fail_onlyResponded st sub info).work

theorem failHandshake_work (st sub : Status) (info : Byte) (s : State) :
    WorkWithin 0 0 s (s.failHandshake st sub info) :=
  (WorkWithin.of_trace_eq rfl).silently (fail_work st sub info (s.setHs .failed))

/-- A write is one transaction (40_core R141). -/
theorem doWrite_work (m f : Byte) (ws : List Byte) (s : State) : WorkWithin 1 0 s (doWrite m f ws s).state := by
  have hissue := issue_work .write (.write s.devAddr (m :: f :: ws)) s
  rcases doWrite_cases m f ws s with ⟨-, hr⟩ | ⟨e, -, hr⟩ | ⟨w, -, hr⟩ <;> rw [hr] <;> exact hissue

theorem dataPhase_work (n : Byte) (s : State) : WorkWithin 1 0 s (dataPhase n s).state := by
  have hissue := issue_work .data (.read s.devAddr n.toNat) s
  rcases dataPhase_cases n s with ⟨-, hr⟩ | ⟨e, -, hr⟩ | ⟨bs, -, -, hr⟩ | ⟨bs, -, -, hr⟩ <;> rw [hr] <;> exact hissue

/-- A read is two transactions and the delay between them (40_core R140). -/
theorem doRead_work (m f n : Byte) (d : Word) (s : State) : WorkWithin 2 1 s (doRead m f n d s).state := by
  have hpair := issue_work .addr (.write s.devAddr [m, f]) s
  rcases doRead_cases m f n d s with ⟨-, hr⟩ | ⟨e, -, hr⟩ | ⟨w, -, hr⟩ <;> rw [hr]
  · exact hpair.mono (by decide) (by decide)
  · exact hpair.mono (by decide) (by decide)
  · exact (hpair.trans (delay_work d _)).trans (dataPhase_work n _)

/-- A loop of reads with `fuel` attempts left, and a pause between any two. -/
theorem retry_work {attempt : State → Result} {limit : Nat} (pause : Word)
    (hatt : ∀ u, (attempt u).state.att = u.att) (hread : ∀ u, WorkWithin 2 1 u (attempt u).state) (fuel : Nat)
    {s : State} (hfuel : s.att + fuel = limit + 1) :
    WorkWithin (2 * fuel) (fuel + (fuel - 1)) s (retry attempt limit pause fuel s).state := by
  induction fuel generalizing s with
  | zero => exact .of_trace_eq rfl
  | succ fuel ih =>
    have hfirst := hread s
    have hts : 2 ≤ 2 * (fuel + 1) := by omega
    have hds : 1 ≤ fuel + 1 + (fuel + 1 - 1) := by omega
    cases hr : attempt s with
    | ok t => rw [hr] at hfirst; rw [retry_of_ok fuel hr]; exact hfirst.mono hts hds
    | stalled t => rw [hr] at hfirst; rw [retry_of_stalled fuel hr]; exact hfirst.mono hts hds
    | failed st info t =>
      have ht : t.att = s.att := by simpa [hr, Result.state] using hatt s
      rw [hr] at hfirst
      by_cases hlim : t.att = limit
      · rw [retry_of_spent fuel hr hlim]
        exact (hfirst.silently (.of_trace_eq rfl)).mono hts hds
      · rw [retry_of_failed fuel hr hlim]
        have hpause : WorkWithin 0 1 t (((t.setLast (st, info)).delay pause).setAtt (t.att + 1)) :=
          delay_work pause (t.setLast (st, info))
        have hrest := ih (s := ((t.setLast (st, info)).delay pause).setAtt (t.att + 1))
          (by rw [State.setAtt_att]; omega)
        exact ((hfirst.trans hpause).trans hrest).mono (by omega) (by omega)

/-- The loop from its start: `limit` attempts at most (40_core R146, 42_moisture R196). -/
theorem retryFromOne_work {attempt : State → Result} (limit : Nat) (pause : Word)
    (hatt : ∀ u, (attempt u).state.att = u.att) (hread : ∀ u, WorkWithin 2 1 u (attempt u).state) (s : State) :
    WorkWithin (2 * limit) (limit + (limit - 1)) s (retryFromOne attempt limit pause s).state :=
  retry_work pause hatt hread limit (s := s.setAtt 1) (Nat.add_comm 1 limit)

/-- A command that is one procedure does the work of the procedure. -/
theorem Result.conclude_work {s : State} {r : Result} {finish : State → State} {ts ds : Nat}
    (h : WorkWithin ts ds s r.state) (hfin : ∀ u, (finish u).trace = u.trace) :
    WorkWithin ts ds s (r.conclude finish) := by
  cases r with
  | ok t => exact (h.silently (.of_trace_eq (hfin t))).silently (returnOk_work _)
  | failed st info t => exact h.silently (fail_work st .ok info t)
  | stalled t => exact h

/-- A poll of RST is a read; its test asks the transport nothing (40_core R147). -/
theorem identityPoll_work (s : State) : WorkWithin 2 1 s (identityPoll s).state := by
  have hread := doRead_work s.cfg.idModule s.cfg.idFunction 1 s.stdDelay s
  have hs : SameBus s s := ⟨rfl, rfl, rfl⟩
  cases hr : doRead s.cfg.idModule s.cfg.idFunction 1 s.stdDelay s with
  | ok t =>
    rw [hr] at hread
    rw [identityPoll_of_ok hs hr]
    rcases identityTest_cases t with ht | ht <;> rw [ht] <;> exact hread
  | failed st info t => rw [identityPoll_of_failed hs hr]; rwa [hr] at hread
  | stalled t => rw [identityPoll_of_stalled hs hr]; rwa [hr] at hread

theorem handshakePolls_work (s : State) :
    WorkWithin (2 * s.cfg.nIdTry) (s.cfg.nIdTry + (s.cfg.nIdTry - 1)) s (handshakePolls s) := by
  have hloop := retryFromOne_work s.cfg.nIdTry s.cfg.tIdRetry (fun u => (identityPoll_polled (.refl u)).state_att)
    identityPoll_work s
  have hs : SameBus s s := ⟨rfl, rfl, rfl⟩
  cases hr : retryFromOne identityPoll s.cfg.nIdTry s.cfg.tIdRetry s with
  | ok t => rw [hr] at hloop; rw [handshakePolls_of_ok hs hr]; exact hloop.silently (returnOk_work t)
  | failed st info t =>
    rw [hr] at hloop
    rw [handshakePolls_of_failed hs hr]
    exact hloop.silently (failHandshake_work .eHandshake st info t)
  | stalled t => rw [hr] at hloop; rw [handshakePolls_of_stalled hs hr]; exact hloop

/-- RST is its reset write, the settle delay and the polls. -/
theorem execRst_work {s t : State} (h : exec .rst s = .next t) :
    WorkWithin (maxTransactions s.cfg .rst) (maxDelays s.cfg .rst) s t := by
  have hcalled := doWrite_called (.refl s.startRst) s.cfg.rstModule s.cfg.rstFunction s.cfg.rstPayload
  have hwrite : WorkWithin 1 0 s (doWrite s.cfg.rstModule s.cfg.rstFunction s.cfg.rstPayload s.startRst).state :=
    doWrite_work s.cfg.rstModule s.cfg.rstFunction s.cfg.rstPayload s.startRst
  have honly : 1 ≤ maxTransactions s.cfg .rst := Nat.le_add_right 1 _
  cases hr : doWrite s.cfg.rstModule s.cfg.rstFunction s.cfg.rstPayload s.startRst with
  | ok u =>
    rw [hr] at hwrite hcalled
    cases (execRst_of_write_ok hr).symm.trans h
    have hcfg : u.cfg = s.cfg := hcalled.running.sameBus_of_rst.cfg
    have hpolls := handshakePolls_work (u.delay u.cfg.tResetSettle)
    rw [State.delay_cfg, hcfg] at hpolls
    rw [hcfg]
    exact ((hwrite.trans (delay_work s.cfg.tResetSettle u)).trans hpolls).mono (Nat.le_refl _)
      (by simp only [maxDelays]; omega)
  | failed st info u =>
    rw [hr] at hwrite
    cases (execRst_of_write_failed hr).symm.trans h
    exact (hwrite.silently (failHandshake_work st .ok info u)).mono honly (Nat.zero_le _)
  | stalled u =>
    rw [hr] at hwrite
    cases (execRst_of_write_stalled hr).symm.trans h
    exact hwrite.mono honly (Nat.zero_le _)

/-- MREAD is its attempts and the pauses between them. -/
theorem execMread_work {s t : State} (h : exec .mread s = .next t) : WorkWithin 10 9 s t := by
  have hloop : WorkWithin 10 9 s
      (retryFromOne moistureRead Config.moistTries s.cfg.tMoistBackoff s.startLoop).state :=
    retryFromOne_work Config.moistTries s.cfg.tMoistBackoff (fun u => (moistureRead_called (.refl u)).state_att)
      (fun u => doRead_work _ _ _ _ u) s.startLoop
  cases hr : retryFromOne moistureRead Config.moistTries s.cfg.tMoistBackoff s.startLoop with
  | ok u =>
    rw [hr] at hloop
    cases (execMread_of_ok hr).symm.trans h
    have hsample : WorkWithin 0 0 u u.takeSample := .of_trace_eq (by simp [State.takeSample])
    exact (hloop.silently hsample).silently (returnOk_work _)
  | failed st info u =>
    rw [hr] at hloop
    cases (execMread_of_failed hr).symm.trans h
    exact hloop.silently (fail_work .eRetry st info u)
  | stalled u =>
    rw [hr] at hloop
    cases (execMread_of_stalled hr).symm.trans h
    exact hloop

/-- Settles O18: the work of a read, of a write, of the two loops, or none. -/
theorem commandWorkIsBounded : Obligations.CommandWorkIsBounded := by
  intro i s t h
  suffices hwork : WorkWithin (maxTransactions s.cfg i) (maxDelays s.cfg i) s t from hwork
  cases i with
  | rdreg | rd | keyrd | keycnt => cases h; exact Result.conclude_work (doRead_work ..) fun _ => rfl
  | wrreg | wr | keyint | keycfg => cases h; exact Result.conclude_work (doWrite_work ..) fun _ => rfl
  | keydec | keyenc | mavg => cases h; exact (State.setR_returnOk_frame ..).1.onlyResponded.work
  | mpush v => cases h; exact (WorkWithin.of_trace_eq (State.push_trace v s)).silently (returnOk_work _)
  | rst => exact execRst_work h
  | mread => exact execMread_work h
  | csrr => exact (execCsrr_onlyResponded h).work
  | csrw => exact (execCsrw_onlyResponded h).work

end Sys2Proof.Machine
end
